-- ==== Sys2Proof/Word.lean ====
section
/-! DEFINITION. The word types of KYBER-CORE: what the spec itself treats as bits. -/

namespace Sys2Proof

/-- A coefficient: an int16 held in 16 bits in two's complement (00_scope R6, 10_state R21). Its integer value is `BitVec.toInt`. -/
abbrev Word := BitVec 16

/-- A command word CMD[63:0] (30_encoding R70). -/
abbrev Command := BitVec 64

/-- A response word RSP[31:0] (30_encoding R78). -/
abbrev Rsp := BitVec 32

/-- The 256 words of one slot in index order (00_scope R8: `P[s]`). Every operation that reads a slot gives a list of length 256. -/
abbrev Poly := List Word

end Sys2Proof
end

