-- ==== Sys2Proof/Config.lean ====
section
/-! DEFINITION. What is fixed for one machine: the constants of rule R4 and R5, the parameters the spec leaves OPEN, and the free values. -/

namespace Sys2Proof

/-- HOST_BYTE_ORDER (00_scope R5, 20_memory R52). -/
inductive ByteOrder where
  | little
  | big
  deriving DecidableEq, Repr

/-- The parameters the spec marks OPEN (00_scope R5, 93 U10). The state carries one such record, which no step changes, so
that a statement about every state is a statement about every value of the parameters (log 3). -/
structure Config where
  /-- NSLOT: the number of slots of the coefficient memory. -/
  nslot : Nat
  /-- NENG: the number of engines on one coefficient memory. -/
  neng : Nat
  /-- HOST_BYTE_ORDER: how a host bus that is not 16 bits wide maps onto a word. -/
  hostByteOrder : ByteOrder
  deriving DecidableEq, Repr

namespace Config

/-- The defaults of rule R5: NSLOT = 16, NENG = 1, little-endian host. -/
def default : Config := ⟨16, 1, .little⟩

/-- The ranges of rule R5: NSLOT is 9 to 256; there is an engine. -/
abbrev wf (c : Config) : Prop := 9 ≤ c.nslot ∧ c.nslot ≤ 256 ∧ 1 ≤ c.neng

/-- q, the modulus (00_scope R4). -/
abbrev Q : Int := 3329

/-- The Montgomery constant R = 2^16 (00_scope R4). -/
abbrev R : Int := 65536

/-- QINV = q^-1 mod 2^16 (00_scope R4, 90_conflicts C1: not -q^-1). -/
abbrev QINV : Int := 62209

/-- The Barrett reciprocal BV and its shift BSHIFT (00_scope R5). -/
abbrev BV : Int := 20159

abbrev BSHIFT : Nat := 26

/-- The primitive 256th root of unity of the zeta tables (00_scope R5). -/
abbrev ZROOT : Int := 17

/-- N, coefficients per polynomial, which is also the number of words of a slot (00_scope R4, 10_state R21). -/
abbrev N : Nat := 256

/-- What a word of CM that has not been written since reset reads as: nothing constrains it (10_state R36, 70 R216, 93 U4).
The first argument is the state's read counter, the second the word address, so that two reads need not agree (log 2). -/
opaque freeWord : Nat → Nat → Word

end Config

end Sys2Proof
end

