-- ==== Sys2Proof/Machine/Arith.lean ====
section
/-! DEFINITION. The helper functions of rule R7, the integer units of file 40 (multiplier, Barrett reducer, 16-bit adder and
subtractor) and the butterflies of file 41. Operands are read as integers, computed exactly and narrowed explicitly. -/

namespace Sys2Proof.Machine

open Sys2Proof.Config

/-! ### Helpers over the integers (00_scope R7) -/

/-- `s16(x)`: the int16 congruent to x modulo 2^16. -/
def s16 (x : Int) : Int := x.bmod 65536

/-- `lo16(x) = x mod 2^16`, in 0..65535. -/
def lo16 (x : Int) : Int := x % 65536

/-- `asr(x, n) = floor(x / 2^n)`. -/
def asr (x : Int) (n : Nat) : Int := x / 2 ^ n

/-- `hi16(x) = floor(x / 2^16)`. -/
def hi16 (x : Int) : Int := asr x 16

/-- `cmod(x)`: the centred representative of x modulo Q, in -1664..1664. -/
def cmod (x : Int) : Int := x.bmod 3329

/-- `brv7(k)`: the 7-bit bit reversal. -/
def brv7 (k : Nat) : Nat := ((List.range 7).map fun b => k / 2 ^ b % 2 * 2 ^ (6 - b)).sum

/-- The word that holds s16(x) (00_scope R6). -/
def toWord (x : Int) : Word := BitVec.ofInt 16 x

/-! ### 16-bit addition and subtraction (40_modarith R108, OVF_POLICY = wrap, log 13) -/

/-- `add16(a, b) = s16(a + b)`. -/
def add16 (a b : Word) : Word := toWord (a.toInt + b.toInt)

/-- `sub16(a, b) = s16(a - b)`. -/
def sub16 (a b : Word) : Word := toWord (a.toInt - b.toInt)

/-! ### Montgomery multiplier (40_modarith R101) -/

/-- `fqmul` over the integers: two arithmetic shifts and one subtraction. -/
def fqmulInt (a b : Int) : Int :=
  let p := a * b
  let t := s16 (lo16 p * QINV)
  let u := t * Q
  hi16 p - hi16 u

/-- The Montgomery multiplier on two int16 words; the result always fits int16 (40_modarith R102 item 2). -/
def fqmul (a b : Word) : Word := toWord (fqmulInt a.toInt b.toInt)

/-! ### Barrett reducer (40_modarith R104) -/

/-- `barrett` over the integers: the quotient estimate, then one subtraction of its multiple of Q. -/
def barrettInt (a : Int) : Int :=
  let t := asr (BV * a + 2 ^ 25) BSHIFT
  a - t * Q

/-- The Barrett reducer on an int16 word. -/
def barrett (a : Word) : Word := toWord (barrettInt a.toInt)

/-! ### Butterflies (41_butterfly_layout R120, R121), each giving (low, high) -/

/-- The last-layer constants F and ZF (10_state R26). -/
def constF : Word := toWord 1441

def constZF : Word := toWord (-1397)

/-- The toMont constant R2 of VACC (10_state R26). -/
def constR2 : Word := toWord 1353

/-- Forward (Cooley-Tukey) butterfly (R120). -/
def bflyCt (x y z : Word) : Word × Word :=
  let t := fqmul y z
  (add16 x t, sub16 x t)

/-- Inverse (Gentleman-Sande) butterfly, the source's formula (R121). -/
def bflyGs (x y z : Word) : Word × Word := (add16 x y, fqmul (sub16 x y) z)

/-- The same with the interleaved reduction of the low output, used in layers 1 to 6 of INTT (R121). -/
def bflyGsR (x y z : Word) : Word × Word := (barrett (add16 x y), fqmul (sub16 x y) z)

/-- The last layer's butterfly, with F folded in (R121, 43_ntt_inverse R153). -/
def bflyGsF (x y : Word) : Word × Word := (fqmul (add16 x y) constF, fqmul (sub16 x y) constZF)

/-- The product of a0 + a1·x and b0 + b1·x modulo x^2 - ζ, for z ≡ R·ζ: five Montgomery products (45_polyvecops R173). -/
def basemul (a0 a1 b0 b1 z : Word) : Word × Word :=
  (add16 (fqmul (fqmul a1 b1) z) (fqmul a0 b0), add16 (fqmul a0 b1) (fqmul a1 b0))

end Sys2Proof.Machine
end

