-- ==== Sys2Proof/Syntax.lean ====
section
/-! DEFINITION. The commands of KCMD-1, one constructor per row of spec/opcode_table.json, and the five statuses. -/

namespace Sys2Proof

/-- The twelve commands of rule R74. Slots are slot numbers as rule R73 reads them from the word, `k` is the vector length
itself; `a` and `b` of the scalar commands are 16-bit two's-complement patterns. Operand order is rule R79's: destination first. -/
inductive Instr where
  /-- FQMUL a, b (40_modarith R103). -/
  | fqmul (a b : Word)
  /-- BARRETT a (40_modarith R106). -/
  | barrett (a : Word)
  /-- NTT sD (42_ntt_forward R140). -/
  | ntt (d : Nat)
  /-- INTT sD (43_ntt_inverse R150). -/
  | intt (d : Nat)
  /-- RED sD (44_polyops R160). -/
  | red (d : Nat)
  /-- ADDR sD, sA (44_polyops R161). -/
  | addr (d a : Nat)
  /-- ADDADDR sD, sA, sB (44_polyops R162). -/
  | addaddr (d a b : Nat)
  /-- SUBR sD, sA (44_polyops R163). -/
  | subr (d a : Nat)
  /-- VNTT.kK sD (45_polyvecops R170). -/
  | vntt (k d : Nat)
  /-- VINTT.kK sD (45_polyvecops R171). -/
  | vintt (k d : Nat)
  /-- VADDR.kK sD, sA (45_polyvecops R172). -/
  | vaddr (k d a : Nat)
  /-- VACC.kK[.m] sD, sA, sB (45_polyvecops R174). -/
  | vacc (k : Nat) (toMont : Bool) (d a b : Nat)
  deriving DecidableEq, Repr

/-- The statuses a response can carry (60_exceptions R191); 5 to 15 are never produced (93 U8). -/
inductive Status where
  | ok
  | illegalOpcode
  | illegalField
  | slotRange
  | overlap
  deriving DecidableEq, Repr

end Sys2Proof
end

