-- ==== Sys2Proof/Machine/State.lean ====
section
/-! DEFINITION. The state of the machine as plain data, the reasons a step can stop, and the state after reset. -/

namespace Sys2Proof.Machine

/-- Coefficient memory CM (10_state R21): the words written since reset, as pairs (word address, word) with rising addresses.
The only addressable unit is the 16-bit word, so a cell is a word (log 1). An address that is not listed has not been
written since reset and reads as a free value (log 2), so every written word is listed. -/
abbrev Memory := List (Nat × Word)

/-- The order tag of a slot (10_state R28). -/
inductive OrderTag where
  /-- standard order -/
  | std
  /-- bit-reversed order, the NTT domain -/
  | brev
  deriving DecidableEq, Repr

/-- The ghost attributes of a slot (10_state R28 to R30); `none` says that nothing is known. No step depends on them. -/
structure Ghost where
  tag : Option OrderTag
  scale : Option Int
  bound : Option Nat
  deriving DecidableEq, Repr

/-- One access through the host's memory port (20_memory R56). -/
inductive HostAccess where
  /-- HostRead(addr) -/
  | read (addr : Nat)
  /-- HostWrite(addr, v) -/
  | write (addr : Nat) (v : Word)
  deriving DecidableEq, Repr

/-- What the outside world does to the block; each step consumes one (20_memory R56, R59; 70_reset R210, R211). -/
inductive HostEvent where
  /-- Issue(cmd) on the command port of one engine. -/
  | issue (engine : Nat) (cmd : Command)
  /-- An access while no command runs. -/
  | access (a : HostAccess)
  /-- Commands that run at the same time on different engines, and host accesses made while they run (20_memory R56, R59). -/
  | together (jobs : List (Nat × Command)) (accesses : List HostAccess)
  /-- Bookkeeping of the model, no action on the hardware: the host says what a slot it has written stands for (10_state R36). -/
  | mark (slot : Nat) (tag : Option OrderTag) (scale : Option Int)
  /-- A pulse on the reset input; `running` are the commands being performed when it comes, which are abandoned. -/
  | reset (running : List (Nat × Command))
  deriving DecidableEq, Repr

/-- What a port delivers to the host. -/
inductive Delivery where
  /-- The 32-bit response to a command (30_encoding R78). -/
  | response (rsp : Rsp)
  /-- The int16 a HostRead returns (20_memory R56). -/
  | data (v : Word)
  deriving DecidableEq, Repr

/-- The state. Of its fields `cm` is the hardware's (10_state R20), `cfg` the parameters left OPEN (00_scope R5), `ghost` the
ghost attributes (10_state R28 to R30), and `tick`, `hostWrote`, `port` and `out` are the model's own. -/
structure State where
  /-- NSLOT, NENG, HOST_BYTE_ORDER; no step changes them (log 3). -/
  cfg : Config
  /-- The coefficient memory. -/
  cm : Memory
  /-- Counts the reads, so that each read of an unwritten word has a free value of its own (log 2). -/
  tick : Nat
  /-- The slots about which something is known, rising (log 7). -/
  ghost : List (Nat × Ghost)
  /-- The slots of which the host has written a word since reset, as rising keys: a slot has no mark before (10_state R36, log 7). -/
  hostWrote : List (Nat × Unit)
  /-- The host's pending actions, oldest first (log 4). -/
  port : List HostEvent
  /-- What the ports delivered in the last step (log 5). -/
  out : List Delivery
  deriving DecidableEq, Repr

/-- The reasons the machine stops with a fault. -/
inductive Fault where
  /-- Raised by a HostRead, a HostWrite or a mark that names an address at or above 256·NSLOT, which does not exist (20_memory
  R55, 93 U11). Safe: the spec gives such an access no effect at all. -/
  | noSuchAddress (addr : Nat)
  deriving DecidableEq, Repr

/-- The reasons an action is not admitted. -/
inductive Refusal where
  /-- Raised by an arm of `exec` whose instruction has no meaning yet; no arm is one. Safe. -/
  | notModelled (mnemonic : String)
  /-- Raised by a command issued to an engine at or above NENG: there is no such command port (60_exceptions R202). Safe. -/
  | noSuchEngine (engine : Nat)
  /-- Raised by two simultaneous commands on one engine: the host must wait for the response first (20_memory R56). Safe. -/
  | engineBusy
  /-- Raised by simultaneous commands or host accesses whose footprints collide: not defined (20_memory R56, R59, 93 U6). Safe. -/
  | footprintCollision
  deriving DecidableEq, Repr

/-- The state right after reset for any parameters: every word of CM unspecified, no ghost attribute, no response pending, the
engine idle (10_state R36, 70_reset R210). -/
def State.resetWith (c : Config) : State := ⟨c, [], 0, [], [], [], []⟩

/-- The state right after reset with the default parameters of rule R5. -/
def State.reset : State := State.resetWith Config.default

end Sys2Proof.Machine
end

