-- ==== Sys2Proof/Machine/Flags.lean ====
section
/-! DEFINITION. KYBER-CORE has no flags (10_state R33). What it has in their place is the STATUS field of the response word,
which is computed here (30_encoding R78, 60_exceptions R191). -/

namespace Sys2Proof.Machine

/-- The status codes of rule R191. -/
def statusCode : Status → BitVec 4
  | .ok => 0
  | .illegalOpcode => 1
  | .illegalField => 2
  | .slotRange => 3
  | .overlap => 4

/-- RSP = zero[31:20], STATUS[19:16], RESULT[15:0] (30_encoding R78). -/
def responseWord (st : Status) (result : Word) : Rsp := 0#12 ++ statusCode st ++ result

end Sys2Proof.Machine
end

