-- ==== Sys2Proof/WellFormed.lean ====
section
/-! DEFINITION. When an instruction term is one that a command word can name: every slot fits its 8-bit field and the vector
length is 2, 3 or 4 (30_encoding R71, R73, R76). A slot number at or above NSLOT is well formed and is refused by the machine. -/

namespace Sys2Proof

/-- A slot number fits the 8-bit field it is read from (30_encoding R73). -/
def slotFits (s : Nat) : Bool := decide (s < 256)

/-- K is 2, 3 or 4 (30_encoding R76, 10_state R24). -/
def vecLenLegal (k : Nat) : Bool := decide (k = 2 ∨ k = 3 ∨ k = 4)

/-- Well-formedness, constructor by constructor. -/
def Instr.wf : Instr → Bool
  | .fqmul _ _ => true
  | .barrett _ => true
  | .ntt d => slotFits d
  | .intt d => slotFits d
  | .red d => slotFits d
  | .addr d a => slotFits d && slotFits a
  | .addaddr d a b => slotFits d && slotFits a && slotFits b
  | .subr d a => slotFits d && slotFits a
  | .vntt k d => vecLenLegal k && slotFits d
  | .vintt k d => vecLenLegal k && slotFits d
  | .vaddr k d a => vecLenLegal k && slotFits d && slotFits a
  | .vacc k _ d a b => vecLenLegal k && slotFits d && slotFits a && slotFits b

end Sys2Proof
end

