-- ==== Sys2Proof/Decode.lean ====
section
/-! DEFINITION. The decoder of rule R81 (the part that needs no memory), total on every 64-bit word and refusing by name; then
the encoder, from the same formats R71 and R72; then the assembler text of rule R79. -/

namespace Sys2Proof

/-! ### Fields of a command word (30_encoding R71 to R73) -/

/-- CMD[7:0], the opcode, in both formats (R70). -/
def fieldOP (w : Command) : Nat := (w.extractLsb' 0 8).toNat

/-- CMD[10:8], the vector length itself. -/
def fieldK (w : Command) : Nat := (w.extractLsb' 8 3).toNat

/-- CMD[11], the toMont flag. -/
def fieldTM (w : Command) : Bool := w.extractLsb' 11 1 == 1#1

/-- CMD[23:16], the destination slot. -/
def fieldRD (w : Command) : Nat := (w.extractLsb' 16 8).toNat

/-- CMD[31:24], the first source slot. -/
def fieldRA (w : Command) : Nat := (w.extractLsb' 24 8).toNat

/-- CMD[39:32], the second source slot. -/
def fieldRB (w : Command) : Nat := (w.extractLsb' 32 8).toNat

/-- CMD[31:16], scalar operand a. -/
def fieldA (w : Command) : Word := w.extractLsb' 16 16

/-- CMD[47:32], scalar operand b. -/
def fieldB (w : Command) : Word := w.extractLsb' 32 16

/-! ### The opcode map (30_encoding R74) -/

/-- The names of the twelve rows. -/
inductive Opcode where
  | fqmul | barrett | ntt | intt | red | addr | addaddr | subr | vntt | vintt | vaddr | vacc
  deriving DecidableEq, Repr

/-- Column OP of rule R74. -/
def Opcode.byte : Opcode → Nat
  | .fqmul => 0x01
  | .barrett => 0x02
  | .ntt => 0x10
  | .intt => 0x11
  | .red => 0x20
  | .addr => 0x21
  | .addaddr => 0x22
  | .subr => 0x23
  | .vntt => 0x30
  | .vintt => 0x31
  | .vaddr => 0x32
  | .vacc => 0x33

/-- The rows in the table's order. -/
def Opcode.all : List Opcode :=
  [.fqmul, .barrett, .ntt, .intt, .red, .addr, .addaddr, .subr, .vntt, .vintt, .vaddr, .vacc]

/-- The row an opcode byte selects, if any (R75: every other value is illegal). -/
def Opcode.ofByte (op : Nat) : Option Opcode := Opcode.all.find? fun o => o.byte == op

/-- Column "match" of rule R74. -/
def Opcode.pattern (o : Opcode) : Command := BitVec.ofNat 64 o.byte

/-- Column "mask" of rule R74: the bits a command does not use, and the opcode. -/
def Opcode.mask : Opcode → Command
  | .fqmul => 0xFFFF00000000FFFF#64
  | .barrett => 0xFFFFFFFF0000FFFF#64
  | .ntt => 0xFFFFFFFFFF00FFFF#64
  | .intt => 0xFFFFFFFFFF00FFFF#64
  | .red => 0xFFFFFFFFFF00FFFF#64
  | .addr => 0xFFFFFFFF0000FFFF#64
  | .addaddr => 0xFFFFFF000000FFFF#64
  | .subr => 0xFFFFFFFF0000FFFF#64
  | .vntt => 0xFFFFFFFFFF00F8FF#64
  | .vintt => 0xFFFFFFFFFF00F8FF#64
  | .vaddr => 0xFFFFFFFF0000F8FF#64
  | .vacc => 0xFFFFFF000000F0FF#64

/-- The four vector commands, whose K field must be 2, 3 or 4 (R76). -/
def Opcode.isVector : Opcode → Bool
  | .fqmul | .barrett | .ntt | .intt | .red | .addr | .addaddr | .subr => false
  | .vntt | .vintt | .vaddr | .vacc => true

/-- The operands of a row, assembled from the fields it uses (R73, R74). -/
def Opcode.build (w : Command) : Opcode → Instr
  | .fqmul => .fqmul (fieldA w) (fieldB w)
  | .barrett => .barrett (fieldA w)
  | .ntt => .ntt (fieldRD w)
  | .intt => .intt (fieldRD w)
  | .red => .red (fieldRD w)
  | .addr => .addr (fieldRD w) (fieldRA w)
  | .addaddr => .addaddr (fieldRD w) (fieldRA w) (fieldRB w)
  | .subr => .subr (fieldRD w) (fieldRA w)
  | .vntt => .vntt (fieldK w) (fieldRD w)
  | .vintt => .vintt (fieldK w) (fieldRD w)
  | .vaddr => .vaddr (fieldK w) (fieldRD w) (fieldRA w)
  | .vacc => .vacc (fieldK w) (fieldTM w) (fieldRD w) (fieldRA w) (fieldRB w)

/-! ### The decoder (30_encoding R81) -/

/-- What a command word decodes to: a command, or a refusal with its status. -/
inductive Decoded where
  | instr (i : Instr)
  | refused (st : Status)
  deriving DecidableEq, Repr

/-- The first three checks of rule R81, in its order; the checks of slot range and overlap need NSLOT and are
`Machine.admission`. -/
def decode (w : Command) : Decoded :=
  match Opcode.ofByte (fieldOP w) with
  | none => .refused .illegalOpcode
  | some o =>
    if w &&& o.mask ≠ o.pattern then .refused .illegalField
    else if o.isVector && !vecLenLegal (fieldK w) then .refused .illegalField
    else .instr (o.build w)

/-- The instruction read from the word whose bits are `w`, numbered as spec/opcode_table.json numbers them: a command is one
64-bit word (R70), and the bits at `nbits` and above are 0. -/
def decodeTableWord (nbits w : Nat) : Option Instr :=
  match decode (BitVec.ofNat 64 (w % 2 ^ nbits)) with
  | .instr i => some i
  | .refused _ => none

/-! ### The encoder (30_encoding R71, R72) -/

/-- Format P: zero[63:40], RB, RA, RD, zero[15:12], TM, K, OP (R71). -/
def formatP (op : Opcode) (k : Nat) (tm : Bool) (rd ra rb : Nat) : Command :=
  0#24 ++ BitVec.ofNat 8 rb ++ BitVec.ofNat 8 ra ++ BitVec.ofNat 8 rd ++ 0#4 ++ BitVec.ofBool tm ++ BitVec.ofNat 3 k
    ++ BitVec.ofNat 8 op.byte

/-- Format S: zero[63:48], B, A, zero[15:8], OP (R72). -/
def formatS (op : Opcode) (a b : Word) : Command :=
  0#16 ++ b ++ a ++ 0#8 ++ BitVec.ofNat 8 op.byte

/-- The word of a well-formed instruction; every field a command does not use is zero. -/
def encode : Instr → Command
  | .fqmul a b => formatS .fqmul a b
  | .barrett a => formatS .barrett a 0
  | .ntt d => formatP .ntt 0 false d 0 0
  | .intt d => formatP .intt 0 false d 0 0
  | .red d => formatP .red 0 false d 0 0
  | .addr d a => formatP .addr 0 false d a 0
  | .addaddr d a b => formatP .addaddr 0 false d a b
  | .subr d a => formatP .subr 0 false d a 0
  | .vntt k d => formatP .vntt k false d 0 0
  | .vintt k d => formatP .vintt k false d 0 0
  | .vaddr k d a => formatP .vaddr k false d a 0
  | .vacc k tm d a b => formatP .vacc k tm d a b

/-- The row of rule R74 an instruction belongs to. -/
def Instr.opcode : Instr → Opcode
  | .fqmul _ _ => .fqmul
  | .barrett _ => .barrett
  | .ntt _ => .ntt
  | .intt _ => .intt
  | .red _ => .red
  | .addr _ _ => .addr
  | .addaddr _ _ _ => .addaddr
  | .subr _ _ => .subr
  | .vntt _ _ => .vntt
  | .vintt _ _ => .vintt
  | .vaddr _ _ _ => .vaddr
  | .vacc _ _ _ _ _ => .vacc

/-! ### Assembler text (30_encoding R79) -/

/-- A slot is `s` followed by its decimal number. -/
def slotText (s : Nat) : String := "s" ++ toString s

/-- A scalar operand, in the signed decimal form of the two that rule R79 allows. -/
def scalarText (a : Word) : String := toString a.toInt

/-- The line of assembler text of an instruction: mnemonic, `.kK`, `.m`, then the operands, destination first. -/
def Instr.text : Instr → String
  | .fqmul a b => "FQMUL " ++ scalarText a ++ ", " ++ scalarText b
  | .barrett a => "BARRETT " ++ scalarText a
  | .ntt d => "NTT " ++ slotText d
  | .intt d => "INTT " ++ slotText d
  | .red d => "RED " ++ slotText d
  | .addr d a => "ADDR " ++ slotText d ++ ", " ++ slotText a
  | .addaddr d a b => "ADDADDR " ++ slotText d ++ ", " ++ slotText a ++ ", " ++ slotText b
  | .subr d a => "SUBR " ++ slotText d ++ ", " ++ slotText a
  | .vntt k d => "VNTT.k" ++ toString k ++ " " ++ slotText d
  | .vintt k d => "VINTT.k" ++ toString k ++ " " ++ slotText d
  | .vaddr k d a => "VADDR.k" ++ toString k ++ " " ++ slotText d ++ ", " ++ slotText a
  | .vacc k tm d a b =>
    "VACC.k" ++ toString k ++ (if tm then ".m " else " ") ++ slotText d ++ ", " ++ slotText a ++ ", " ++ slotText b

end Sys2Proof
end

