-- ==== Sys2Proof/Machine/Operands.lean ====
section
/-! DEFINITION. The operand forms: which slots a command names, the checks of rule R81 that need NSLOT, and the footprint of a
command (20_memory R63). -/

namespace Sys2Proof.Machine

/-- The slot operands of a command as (base field, count): exactly the slot fields the command uses, count K for a vector
operand and 1 for a polynomial (60_exceptions R194). -/
def slotOperands : Instr → List (Nat × Nat)
  | .fqmul _ _ => []
  | .barrett _ => []
  | .ntt d => [(d, 1)]
  | .intt d => [(d, 1)]
  | .red d => [(d, 1)]
  | .addr d a => [(d, 1), (a, 1)]
  | .addaddr d a b => [(d, 1), (a, 1), (b, 1)]
  | .subr d a => [(d, 1), (a, 1)]
  | .vntt k d => [(d, k)]
  | .vintt k d => [(d, k)]
  | .vaddr k d a => [(d, k), (a, k)]
  | .vacc k _ d a b => [(d, 1), (a, k), (b, k)]

/-- Every slot operand lies below NSLOT: s + count ≤ NSLOT (60_exceptions R194). -/
def slotsInRange (nslot : Nat) (i : Instr) : Bool := (slotOperands i).all fun o => decide (o.1 + o.2 ≤ nslot)

/-- Slot `s` lies in the range [base, base + count). -/
def inRange (base count s : Nat) : Bool := decide (base ≤ s ∧ s < base + count)

/-- The forbidden overlaps (60_exceptions R195, 20_memory R62): VADDR with ranges that intersect and are not identical, VACC with
the destination in a source vector. No other command has one. -/
def overlaps : Instr → Bool
  | .fqmul _ _ => false
  | .barrett _ => false
  | .ntt _ => false
  | .intt _ => false
  | .red _ => false
  | .addr _ _ => false
  | .addaddr _ _ _ => false
  | .subr _ _ => false
  | .vntt _ _ => false
  | .vintt _ _ => false
  | .vaddr k d a => decide (d ≠ a ∧ d < a + k ∧ a < d + k)
  | .vacc k _ d a b => inRange a k d || inRange b k d

/-- The vector length of a vector command is 2, 3 or 4 (30_encoding R76); the other commands have none. The decoder lets no other
length through; a term with another length is refused as rule R193 says of such a word (log 15). -/
def lengthLegal : Instr → Bool
  | .fqmul _ _ => true
  | .barrett _ => true
  | .ntt _ => true
  | .intt _ => true
  | .red _ => true
  | .addr _ _ => true
  | .addaddr _ _ _ => true
  | .subr _ _ => true
  | .vntt k _ => vecLenLegal k
  | .vintt k _ => vecLenLegal k
  | .vaddr k _ _ => vecLenLegal k
  | .vacc k _ _ _ _ => vecLenLegal k

/-- The status a decoded command gets before the first access to CM, in the order of rules R81 and R196. -/
def admission (nslot : Nat) (i : Instr) : Status :=
  if lengthLegal i = false then .illegalField
  else if slotsInRange nslot i = false then .slotRange
  else if overlaps i then .overlap
  else .ok

/-- The status of a command word: the decoder's refusal, or the admission of the instruction it reads (60_exceptions R196). -/
def wordStatus (nslot : Nat) (w : Command) : Status :=
  match decode w with
  | .instr i => admission nslot i
  | .refused st => st

/-- The slots base, base + 1, ..., base + count - 1. -/
def slotRun (base count : Nat) : List Nat := (List.range count).map fun e => base + e

/-- The slots a command reads and the slots it writes. -/
structure Footprint where
  reads : List Nat
  writes : List Nat
  deriving DecidableEq, Repr

/-- The footprint of a performed command (20_memory R63). VACC does not read its destination. -/
def footprint : Instr → Footprint
  | .fqmul _ _ => ⟨[], []⟩
  | .barrett _ => ⟨[], []⟩
  | .ntt d => ⟨[d], [d]⟩
  | .intt d => ⟨[d], [d]⟩
  | .red d => ⟨[d], [d]⟩
  | .addr d a => ⟨[d, a], [d]⟩
  | .addaddr d a b => ⟨[d, a, b], [d]⟩
  | .subr d a => ⟨[d, a], [d]⟩
  | .vntt k d => ⟨slotRun d k, slotRun d k⟩
  | .vintt k d => ⟨slotRun d k, slotRun d k⟩
  | .vaddr k d a => ⟨slotRun d k ++ slotRun a k, slotRun d k⟩
  | .vacc k _ d a b => ⟨slotRun a k ++ slotRun b k, [d]⟩

/-- The footprint of a command word: a refused command reads and writes nothing (20_memory R63). -/
def wordFootprint (nslot : Nat) (w : Command) : Footprint :=
  match decode w with
  | .instr i => if admission nslot i = .ok then footprint i else ⟨[], []⟩
  | .refused _ => ⟨[], []⟩

/-- Two footprints collide if one writes a slot the other reads or writes; two may both read a slot (20_memory R59). -/
def collide (f g : Footprint) : Bool :=
  f.writes.any (fun n => g.reads.contains n || g.writes.contains n) || g.writes.any (fun n => f.reads.contains n)

end Sys2Proof.Machine
end

