-- ==== Sys2Proof/Machine/Ops.lean ====
section
/-! DEFINITION. The named operations over memory and state: sorted storage, reading and writing words and slots, responding and
refusing, and the shared shape of a command. -/

namespace Sys2Proof.Machine

/-! ### Sorted storage: a list of (key, value) pairs with rising keys -/

/-- The value at a key, if the key is listed. -/
def storeGet {α : Type} : List (Nat × α) → Nat → Option α
  | [], _ => none
  | (k, v) :: rest, a => if k = a then some v else storeGet rest a

/-- Store a value at a key, keeping the keys rising. -/
def storePut {α : Type} : List (Nat × α) → Nat → α → List (Nat × α)
  | [], a, v => [(a, v)]
  | (k, w) :: rest, a, v =>
    if k < a then (k, w) :: storePut rest a v
    else if k = a then (a, v) :: rest
    else (a, v) :: (k, w) :: rest

/-- Take a key off the list. -/
def storeDel {α : Type} (m : List (Nat × α)) (a : Nat) : List (Nat × α) := m.filter fun c => c.1 != a

/-- The canonical form: keys strictly rising. -/
abbrev Rising {α : Type} (m : List (Nat × α)) : Prop := m.Pairwise fun c c' => c.1 < c'.1

/-! ### Memory (20_memory R51) -/

/-- The word last written at an address since reset, if any. -/
def Memory.read (m : Memory) (a : Nat) : Option Word := storeGet m a

/-- MemWrite(addr, 1, v) (00_scope R8). -/
def Memory.write (m : Memory) (a : Nat) (v : Word) : Memory := storePut m a v

/-- Store consecutive words from an address on. -/
def Memory.writeRun : Memory → Nat → List Word → Memory
  | m, _, [] => m
  | m, a, w :: ws => Memory.writeRun (Memory.write m a w) (a + 1) ws

/-- The canonical form of memory: every listed address once, rising. Every address written since reset is listed, for an unlisted
one reads as no fixed value (log 2). -/
abbrev Memory.wf (m : Memory) : Prop := Rising m

/-- The word address of coefficient i of slot s (10_state R21, 20_memory R51). -/
def wordAddr (s i : Nat) : Nat := 256 * s + i

/-- MemRead(addr, 1), as the j-th read since `tick`: the word last written, or a free value if none has been since reset (log 2). -/
def State.wordAt (s : State) (j a : Nat) : Word := (s.cm.read a).getD (Config.freeWord (s.tick + j) a)

/-- `P[n]`: the 256 words of slot n, read as the j-th read since `tick` (00_scope R8). -/
def State.slotAt (s : State) (j n : Nat) : Poly := (List.range 256).map fun i => s.wordAt j (wordAddr n i)

/-- `P[n] <- p` (00_scope R8). -/
def State.setSlot (s : State) (n : Nat) (p : Poly) : State := { s with cm := s.cm.writeRun (wordAddr n 0) p }

/-- Count `n` reads. -/
def State.advance (s : State) (n : Nat) : State := { s with tick := s.tick + n }

/-! ### Ghost attributes (10_state R28 to R30; no step depends on them, log 7) -/

/-- Nothing is known. -/
def Ghost.unknown : Ghost := ⟨none, none, none⟩

/-- The attributes of a slot. -/
def State.ghostOf (s : State) (n : Nat) : Ghost := (storeGet s.ghost n).getD Ghost.unknown

/-- Record the attributes of a slot; a slot of which nothing is known is not listed. -/
def State.setGhost (s : State) (n : Nat) (g : Ghost) : State :=
  { s with ghost := if g = Ghost.unknown then storeDel s.ghost n else storePut s.ghost n g }

/-- The largest magnitude in a slot, if each of its words has been written since reset. -/
def State.slotBound (s : State) (n : Nat) : Option Nat :=
  (List.range 256).foldl
    (fun acc i => match acc, s.cm.read (wordAddr n i) with
      | some b, some v => some (max b v.toInt.natAbs)
      | _, _ => none)
    (some 0)

/-- The value all members of a list have, if there is one and it is known. -/
def common {α : Type} [DecidableEq α] : List (Option α) → Option α
  | [] => none
  | x :: xs => if xs.all (fun y => decide (y = x)) then x else none

/-- The largest of the bounds of a list, if all are known. -/
def maxBound (bs : List (Option Nat)) : Option Nat :=
  bs.foldl (fun acc b => match acc, b with
    | some x, some y => some (max x y)
    | _, _ => none) (some 0)

/-- The sum of the bounds of a list, if all are known. -/
def sumBound (bs : List (Option Nat)) : Option Nat :=
  bs.foldl (fun acc b => match acc, b with
    | some x, some y => some (x + y)
    | _, _ => none) (some 0)

/-- A bound that an output has where the operands' bound is within what the command needs (70_reset R213). -/
def boundWithin (need : Nat) (gives : Nat → Nat) (b : Option Nat) : Option Nat :=
  b.bind fun x => if x ≤ need then some (gives x) else none

/-! ### Responding and refusing -/

/-- The response to a command, delivered to the host (30_encoding R78). -/
def State.respond (s : State) (st : Status) (result : Word) : State :=
  { s with out := s.out ++ [.response (responseWord st result)] }

/-- Taking a refusal, the one exception of this hardware (60_exceptions R197): nothing of CM is read or changed, nothing is saved,
the response carries the status and RESULT = 0, and the engine is ready for the next command. There is no return from a
refusal and nothing to restore (R198). -/
def State.refuse (s : State) (st : Status) : State := s.respond st 0

/-- The shape of the ten slot commands: the checks before the first access (30_encoding R81, 60_exceptions R197), then the
command's own rule, which ends with `respond(0)` (00_scope R8); or the refusal. -/
def perform (i : Instr) (body : State → State) (s : State) : Host.Outcome State Fault Refusal :=
  if admission s.cfg.nslot i = .ok then .next ((body s).respond .ok 0)
  else .next (s.refuse (admission s.cfg.nslot i))

/-- `for e in 0 .. k-1: perform f e` (45_polyvecops R170 to R172). -/
def forElements (k : Nat) (f : Nat → State → State) (s : State) : State := (List.range k).foldl (fun t e => f e t) s

end Sys2Proof.Machine
end

