-- ==== Sys2Proof/Machine/Scalar.lean ====
section
/-! DEFINITION. The scalar commands FQMUL and BARRETT (40_modarith R103, R106): operands in the command word, result in the
response, no word of CM read or written. -/

namespace Sys2Proof.Machine

/-- FQMUL a, b: `respond( fqmul(A, B) )` (R103). -/
def execFqmul (a b : Word) (s : State) : Host.Outcome State Fault Refusal := .next (s.respond .ok (fqmul a b))

/-- BARRETT a: `respond( barrett(A) )` (R106). -/
def execBarrett (a : Word) (s : State) : Host.Outcome State Fault Refusal := .next (s.respond .ok (barrett a))

end Sys2Proof.Machine
end

