-- ==== Sys2Proof/Machine/PolyOps.lean ====
section
/-! DEFINITION. The coefficient-wise commands RED, ADDR, ADDADDR, SUBR (44_polyops R160 to R163). Every word of the result
depends on the operand words of the same index only, all read before it is written (20_memory R62). -/

namespace Sys2Proof.Machine

/-- `barrett` of every word (R160). -/
def redPoly (c : Poly) : Poly := c.map barrett

/-- `barrett( add16( c, a ) )` word by word (R161). -/
def addrPoly (c a : Poly) : Poly := List.zipWith (fun x y => barrett (add16 x y)) c a

/-- `barrett( add16( add16( c, a ), b ) )` word by word (R162). -/
def addaddrPoly (c a b : Poly) : Poly := List.zipWith (fun x y => barrett (add16 x y)) (List.zipWith add16 c a) b

/-- `barrett( sub16( c, a ) )` word by word (R163). -/
def subrPoly (c a : Poly) : Poly := List.zipWith (fun x y => barrett (sub16 x y)) c a

/-- RED: tag and scale stay, the bound becomes 1664 whatever the words were (10_state R28, R29; 70_reset R213). A slot of which
nothing is known has the bound as well. -/
def Ghost.afterRed (g : Ghost) : Ghost := ⟨g.tag, g.scale, some 1664⟩

/-- ADDR, ADDADDR, SUBR, VADDR: the tag and the scale all operands share, and the bound 1664 where the operands' bounds sum to at
most 32767 (10_state R28, R29; 44_polyops R165; 70_reset R213). -/
def Ghost.afterSum (gs : List Ghost) : Ghost :=
  ⟨common (gs.map Ghost.tag), common (gs.map Ghost.scale), boundWithin 32767 (fun _ => 1664) (sumBound (gs.map Ghost.bound))⟩

/-- The rule of RED on slot d: what RED and the reduce pass of VNTT perform. -/
def doRed (d : Nat) (s : State) : State :=
  ((s.setSlot d (redPoly (s.slotAt 0 d))).setGhost d (s.ghostOf d).afterRed).advance 1

/-- The rule of ADDR on slots d and a: what ADDR and each element of VADDR perform. -/
def doAddr (d a : Nat) (s : State) : State :=
  ((s.setSlot d (addrPoly (s.slotAt 0 d) (s.slotAt 1 a))).setGhost d (Ghost.afterSum [s.ghostOf d, s.ghostOf a])).advance 2

/-- The rule of ADDADDR on slots d, a and b. -/
def doAddaddr (d a b : Nat) (s : State) : State :=
  ((s.setSlot d (addaddrPoly (s.slotAt 0 d) (s.slotAt 1 a) (s.slotAt 2 b))).setGhost d
    (Ghost.afterSum [s.ghostOf d, s.ghostOf a, s.ghostOf b])).advance 3

/-- The rule of SUBR on slots d and a. -/
def doSubr (d a : Nat) (s : State) : State :=
  ((s.setSlot d (subrPoly (s.slotAt 0 d) (s.slotAt 1 a))).setGhost d (Ghost.afterSum [s.ghostOf d, s.ghostOf a])).advance 2

/-- RED sD (R160). -/
def execRed (d : Nat) (s : State) : Host.Outcome State Fault Refusal := perform (.red d) (doRed d) s

/-- ADDR sD, sA (R161). -/
def execAddr (d a : Nat) (s : State) : Host.Outcome State Fault Refusal := perform (.addr d a) (doAddr d a) s

/-- ADDADDR sD, sA, sB (R162). -/
def execAddaddr (d a b : Nat) (s : State) : Host.Outcome State Fault Refusal := perform (.addaddr d a b) (doAddaddr d a b) s

/-- SUBR sD, sA (R163). -/
def execSubr (d a : Nat) (s : State) : Host.Outcome State Fault Refusal := perform (.subr d a) (doSubr d a) s

end Sys2Proof.Machine
end

