-- ==== Sys2Proof/Machine/Zrom.lean ====
section
/-! DEFINITION. The constant memory ZROM (10_state R25 to R27): the values as the spec lists them. That they are the powers
rules R25 and R26 define is stated apart. No step can write it, so it is no part of the state (log 11). -/

namespace Sys2Proof.Machine

/-- The forward table Z[0..127] (10_state R25), 16 values per row. -/
def zetaTable : List Int :=
  [-1044, -758, -359, -1517, 1493, 1422, 287, 202, -171, 622, 1577, 182, 962, -1202, -1474, 1468] ++
  [573, -1325, 264, 383, -829, 1458, -1602, -130, -681, 1017, 732, 608, -1542, 411, -205, -1571] ++
  [1223, 652, -552, 1015, -1293, 1491, -282, -1544, 516, -8, -320, -666, -1618, -1162, 126, 1469] ++
  [-853, -90, -271, 830, 107, -1421, -247, -951, -398, 961, -1508, -725, 448, -1065, 677, -1275] ++
  [-1103, 430, 555, 843, -1251, 871, 1550, 105, 422, 587, 177, -235, -291, -460, 1574, 1653] ++
  [-246, 778, 1159, -147, -777, 1483, -602, 1119, -1590, 644, -872, 349, 418, 329, -156, -75] ++
  [817, 1097, 603, 610, 1322, -1285, -1465, 384, -1215, -136, 1218, -1335, -874, 220, -1187, -1659] ++
  [-1185, -1530, -1278, 794, -1510, -854, -870, 478, -108, -308, 996, 991, 958, -1460, 1522, 1628]

/-- The inverse table ZI[0..126] (10_state R26), 16 values per row. -/
def zetaInvTable : List Int :=
  [-1628, -1522, 1460, -958, -991, -996, 308, 108, -478, 870, 854, 1510, -794, 1278, 1530, 1185] ++
  [1659, 1187, -220, 874, 1335, -1218, 136, 1215, -384, 1465, 1285, -1322, -610, -603, -1097, -817] ++
  [75, 156, -329, -418, -349, 872, -644, 1590, -1119, 602, -1483, 777, 147, -1159, -778, 246] ++
  [-1653, -1574, 460, 291, 235, -177, -587, -422, -105, -1550, -871, 1251, -843, -555, -430, 1103] ++
  [1275, -677, 1065, -448, 725, 1508, -961, 398, 951, 247, 1421, -107, -830, 271, 90, 853] ++
  [-1469, -126, 1162, 1618, 666, 320, 8, -516, 1544, 282, -1491, 1293, -1015, 552, -652, -1223] ++
  [1571, 205, -411, 1542, -608, -732, -1017, 681, 130, 1602, -1458, 829, -383, -264, 1325, -573] ++
  [-1468, 1474, 1202, -962, -182, -1577, -622, 171, -202, -287, -1422, -1493, 1517, 359, 758]

/-- Z[k] as the word the multiplier reads; no command reads it at an index above 127 (20_memory R50). -/
def zeta (k : Nat) : Word := toWord (zetaTable.getD k 0)

/-- ZI[i] as the word the multiplier reads; no command reads it at an index above 126. -/
def zetaInv (i : Nat) : Word := toWord (zetaInvTable.getD i 0)

/-- `n` consecutive entries of the forward table, from `k` on: the zetas of `n` consecutive blocks. -/
def zetaRun (k n : Nat) : List Word := (List.range n).map fun i => zeta (k + i)

/-- `n` consecutive entries of the inverse table, from `k` on. -/
def zetaInvRun (k n : Nat) : List Word := (List.range n).map fun i => zetaInv (k + i)

/-- The constant of pair p in VACC: Z[64 + g] for the first pair of group g, its exact negation for the second
(45_polyvecops R174, R175). -/
def pairZeta (p : Nat) : Word := if p % 2 = 0 then zeta (64 + p / 2) else -zeta (64 + p / 2)

end Sys2Proof.Machine
end

