-- ==== Sys2Proof/Machine/Transform.lean ====
section
/-! DEFINITION. The transforms NTT and INTT (42_ntt_forward R140, R142; 43_ntt_inverse R150, R152, R153). -/

namespace Sys2Proof.Machine

/-! ### The forward transform on the 256 words -/

/-- The blocks of one forward layer of stride `len`, one zeta per block of 2·len words: the loops over `start` and `j` of R140. -/
def ctBlocks (len : Nat) : List Word → Poly → Poly
  | [], r => r
  | z :: zs, r =>
    let x := r.take len
    let y := (r.drop len).take len
    List.zipWith (fun a b => (bflyCt a b z).1) x y ++ List.zipWith (fun a b => (bflyCt a b z).2) x y
      ++ ctBlocks len zs (r.drop (2 * len))

/-- The layer of stride `len`: 128/len blocks, with the zetas from Z[128/len] on (R142). -/
def nttLayer (r : Poly) (len : Nat) : Poly := ctBlocks len (zetaRun (128 / len) (128 / len)) r

/-- The strides, coarsest first (R140). -/
def nttStrides : List Nat := [128, 64, 32, 16, 8, 4, 2]

/-- The transform of rule R140 on the words of a slot. -/
def nttPoly (r : Poly) : Poly := nttStrides.foldl nttLayer r

/-! ### The inverse transform on the 256 words -/

/-- The blocks of one inverse layer of stride `len`, low outputs reduced (R150). -/
def gsBlocks (len : Nat) : List Word → Poly → Poly
  | [], r => r
  | z :: zs, r =>
    let x := r.take len
    let y := (r.drop len).take len
    List.zipWith (fun a b => (bflyGsR a b z).1) x y ++ List.zipWith (fun a b => (bflyGsR a b z).2) x y
      ++ gsBlocks len zs (r.drop (2 * len))

/-- The layer of stride `len` for len up to 64: 128/len blocks, with the zetas from ZI[128 - 256/len] on (R152). -/
def inttLayer (r : Poly) (len : Nat) : Poly := gsBlocks len (zetaInvRun (128 - 256 / len) (128 / len)) r

/-- The strides of layers 1 to 6, finest first (R150). -/
def inttStrides : List Nat := [2, 4, 8, 16, 32, 64]

/-- Layer 7, stride 128, with F folded into both constants (R153). -/
def inttLast (r : Poly) : Poly :=
  let x := r.take 128
  let y := r.drop 128
  List.zipWith (fun a b => (bflyGsF a b).1) x y ++ List.zipWith (fun a b => (bflyGsF a b).2) x y

/-- The transform of rule R150 on the words of a slot. -/
def inttPoly (r : Poly) : Poly := inttLast (inttStrides.foldl inttLayer r)

/-! ### Ghost attributes (10_state R28, R29; 70_reset R213) -/

/-- NTT: STD becomes BREV, the scale stays, the bound grows by 7·(Q - 1) where it was at most 9464. -/
def Ghost.afterNtt (g : Ghost) : Ghost :=
  ⟨if g.tag = some .std then some .brev else none, g.scale, boundWithin 9464 (fun b => b + 23296) g.bound⟩

/-- INTT: BREV becomes STD, the scale rises by one, the bound is Q - 1 where it was at most 16383. -/
def Ghost.afterIntt (g : Ghost) : Ghost :=
  ⟨if g.tag = some .brev then some .std else none, g.scale.map (· + 1), boundWithin 16383 (fun _ => 3328) g.bound⟩

/-! ### The commands -/

/-- The rule of NTT on slot d, without checks and response: what NTT and each element of VNTT perform. -/
def doNtt (d : Nat) (s : State) : State :=
  ((s.setSlot d (nttPoly (s.slotAt 0 d))).setGhost d (s.ghostOf d).afterNtt).advance 1

/-- The rule of INTT on slot d, without checks and response. -/
def doIntt (d : Nat) (s : State) : State :=
  ((s.setSlot d (inttPoly (s.slotAt 0 d))).setGhost d (s.ghostOf d).afterIntt).advance 1

/-- NTT sD (42_ntt_forward R140). -/
def execNtt (d : Nat) (s : State) : Host.Outcome State Fault Refusal := perform (.ntt d) (doNtt d) s

/-- INTT sD (43_ntt_inverse R150). -/
def execIntt (d : Nat) (s : State) : Host.Outcome State Fault Refusal := perform (.intt d) (doIntt d) s

end Sys2Proof.Machine
end

