-- ==== Sys2Proof/Machine/VectorOps.lean ====
section
/-! DEFINITION. The vector commands VNTT, VINTT, VADDR, VACC (45_polyvecops R170 to R177). -/

namespace Sys2Proof.Machine

/-! ### The inner product (R174, R175) -/

/-- The two 16-bit accumulators of pair p after the elements of the vectors, in order of the element number (R174). -/
def vaccSums (ops : List (Poly × Poly)) (p : Nat) : Word × Word :=
  ops.foldl
    (fun s ab =>
      let c := basemul (ab.1.getD (2 * p) 0) (ab.1.getD (2 * p + 1) 0) (ab.2.getD (2 * p) 0) (ab.2.getD (2 * p + 1) 0) (pairZeta p)
      (add16 s.1 c.1, add16 s.2 c.2))
    (0, 0)

/-- `barrett` once at the end, then the rescale by R2 if toMont is set (R174). -/
def vaccFinish (toMont : Bool) (sum : Word) : Word := if toMont then fqmul (barrett sum) constR2 else barrett sum

/-- The output polynomial of VACC for the operand pairs (vecA[e], vecB[e]): two words per pair (R174). -/
def vaccPoly (ops : List (Poly × Poly)) (toMont : Bool) : Poly :=
  (List.range 128).flatMap fun p => [vaccFinish toMont (vaccSums ops p).1, vaccFinish toMont (vaccSums ops p).2]

/-! ### Ghost attributes -/

/-- The largest operand magnitude for which no sum of VACC overflows (R177, 70_reset R213). -/
def vaccNeed (k : Nat) : Nat := if k = 2 then 20682 else if k = 3 then 15774 else if k = 4 then 12622 else 0

/-- VACC: BREV where every operand slot is, scale eA + eB - 1 or eA + eB, bound 1664 or Q - 1 within the bounds of R177 (10_state
R28, R29; 70_reset R213). -/
def Ghost.afterVacc (k : Nat) (toMont : Bool) (as bs : List Ghost) : Ghost :=
  ⟨if common ((as ++ bs).map Ghost.tag) = some .brev then some .brev else none,
   (common (as.map Ghost.scale)).bind fun ea => (common (bs.map Ghost.scale)).map fun eb =>
     if toMont then ea + eb else ea + eb - 1,
   boundWithin (vaccNeed k) (fun _ => if toMont then 3328 else 1664) (maxBound ((as ++ bs).map Ghost.bound))⟩

/-! ### The commands -/

/-- The operand pairs of VACC: slot a + e with slot b + e. -/
def State.vaccOperands (s : State) (k a b : Nat) : List (Poly × Poly) :=
  (List.range k).map fun e => (s.slotAt (2 * e) (a + e), s.slotAt (2 * e + 1) (b + e))

/-- The rule of VACC (R174): slot d is written and not read. -/
def doVacc (k : Nat) (toMont : Bool) (d a b : Nat) (s : State) : State :=
  ((s.setSlot d (vaccPoly (s.vaccOperands k a b) toMont)).setGhost d
    (Ghost.afterVacc k toMont ((slotRun a k).map s.ghostOf) ((slotRun b k).map s.ghostOf))).advance (2 * k)

/-- The rule of VNTT: NTT, then RED, on each element (R170). -/
def doVntt (k d : Nat) (s : State) : State := forElements k (fun e t => doRed (d + e) (doNtt (d + e) t)) s

/-- The rule of VINTT: INTT on each element (R171). -/
def doVintt (k d : Nat) (s : State) : State := forElements k (fun e t => doIntt (d + e) t) s

/-- The rule of VADDR: ADDR on each element (R172). -/
def doVaddr (k d a : Nat) (s : State) : State := forElements k (fun e t => doAddr (d + e) (a + e) t) s

/-- VNTT.kK sD (R170). -/
def execVntt (k d : Nat) (s : State) : Host.Outcome State Fault Refusal := perform (.vntt k d) (doVntt k d) s

/-- VINTT.kK sD (R171). -/
def execVintt (k d : Nat) (s : State) : Host.Outcome State Fault Refusal := perform (.vintt k d) (doVintt k d) s

/-- VADDR.kK sD, sA (R172). -/
def execVaddr (k d a : Nat) (s : State) : Host.Outcome State Fault Refusal := perform (.vaddr k d a) (doVaddr k d a) s

/-- VACC.kK[.m] sD, sA, sB (R174). -/
def execVacc (k : Nat) (toMont : Bool) (d a b : Nat) (s : State) : Host.Outcome State Fault Refusal :=
  perform (.vacc k toMont d a b) (doVacc k toMont d a b) s

end Sys2Proof.Machine
end

