-- ==== Sys2Proof/Machine/Dispatch.lean ====
section
/-! DEFINITION. The meaning of each instruction, one arm per constructor. -/

namespace Sys2Proof.Machine

def exec (i : Instr) (s : State) : Host.Outcome State Fault Refusal :=
  match i with
  | .fqmul a b => Sys2Proof.Machine.execFqmul a b s
  | .barrett a => Sys2Proof.Machine.execBarrett a s
  | .ntt d => Sys2Proof.Machine.execNtt d s
  | .intt d => Sys2Proof.Machine.execIntt d s
  | .red d => Sys2Proof.Machine.execRed d s
  | .addr d a => Sys2Proof.Machine.execAddr d a s
  | .addaddr d a b => Sys2Proof.Machine.execAddaddr d a b s
  | .subr d a => Sys2Proof.Machine.execSubr d a s
  | .vntt k d => Sys2Proof.Machine.execVntt k d s
  | .vintt k d => Sys2Proof.Machine.execVintt k d s
  | .vaddr k d a => Sys2Proof.Machine.execVaddr k d a s
  | .vacc k tm d a b => Sys2Proof.Machine.execVacc k tm d a b s

end Sys2Proof.Machine
end

