-- ==== Sys2Proof/Machine/Command.lean ====
section
/-! DEFINITION. What the block does with each action of the host: a command word, an access through the memory port,
simultaneous use, a ghost mark, a reset pulse. -/

namespace Sys2Proof.Machine

/-- Perform a command word: decode it, then run the instruction or refuse the word (30_encoding R81, 60_exceptions R197). -/
def runCommand (w : Command) (s : State) : Host.Outcome State Fault Refusal :=
  match decode w with
  | .instr i => exec i s
  | .refused st => .next (s.refuse st)

/-- Go on with the next state, or stop as the first part stopped. -/
def andThen (o : Host.Outcome State Fault Refusal) (f : State → Host.Outcome State Fault Refusal) :
    Host.Outcome State Fault Refusal :=
  match o with
  | .next s => f s
  | .fault r => .fault r
  | .refused r => .refused r

/-- `Issue(cmd)` on one engine's command port (20_memory R56). -/
def issueCommand (engine : Nat) (w : Command) (s : State) : Host.Outcome State Fault Refusal :=
  if engine < s.cfg.neng then runCommand w s else .refused (.noSuchEngine engine)

/-- The address a host access names. -/
def HostAccess.addr : HostAccess → Nat
  | .read a => a
  | .write a _ => a

/-- An address of CM exists: it is below 256·NSLOT (20_memory R55). -/
def addrExists (c : Config) (a : Nat) : Bool := decide (a < 256 * c.nslot)

/-- `HostRead(addr)`: deliver the word; it counts as a read (20_memory R56). -/
def hostRead (a : Nat) (s : State) : State := { s with out := s.out ++ [.data (s.wordAt 0 a)], tick := s.tick + 1 }

/-- `HostWrite(addr, v)`: store the word; nothing is known of the slot until the host marks it (20_memory R56, log 7). -/
def hostWrite (a : Nat) (v : Word) (s : State) : State :=
  { s with cm := s.cm.write a v, ghost := storeDel s.ghost (a / 256), hostWrote := storePut s.hostWrote (a / 256) () }

/-- One access through the memory port; an address that does not exist faults (20_memory R55, 93 U11, log 8). -/
def hostAccess (x : HostAccess) (s : State) : Host.Outcome State Fault Refusal :=
  if addrExists s.cfg x.addr then
    match x with
    | .read a => .next (hostRead a s)
    | .write a v => .next (hostWrite a v s)
  else .fault (.noSuchAddress x.addr)

/-- Commands one after the other. -/
def runJobs : List (Nat × Command) → State → Host.Outcome State Fault Refusal
  | [], s => .next s
  | (_, w) :: rest, s => andThen (runCommand w s) (runJobs rest)

/-- Accesses one after the other. -/
def runAccesses : List HostAccess → State → Host.Outcome State Fault Refusal
  | [], s => .next s
  | x :: rest, s => andThen (hostAccess x s) (runAccesses rest)

/-- No engine is named twice (20_memory R56: the host waits for the response before the next Issue to the same engine). -/
def enginesDistinct : List (Nat × Command) → Bool
  | [] => true
  | j :: rest => rest.all (fun j' => j'.1 != j.1) && enginesDistinct rest

/-- No two of the commands have colliding footprints (20_memory R59). -/
def jobsDisjoint (nslot : Nat) : List (Nat × Command) → Bool
  | [] => true
  | j :: rest =>
    rest.all (fun j' => !collide (wordFootprint nslot j.2) (wordFootprint nslot j'.2)) && jobsDisjoint nslot rest

/-- A host access stays outside the footprint of every command that runs (20_memory R56). -/
def accessOutside (nslot : Nat) (jobs : List (Nat × Command)) (x : HostAccess) : Bool :=
  jobs.all fun j =>
    !(wordFootprint nslot j.2).reads.contains (x.addr / 256) && !(wordFootprint nslot j.2).writes.contains (x.addr / 256)

/-- Commands on several engines at the same time, and host accesses made meanwhile. Where the footprints are disjoint the result is
that of one after the other, in either order (20_memory R59); here it is the order of the list, accesses last. Other schedules
are not admitted (93 U6, log 9). -/
def runTogether (jobs : List (Nat × Command)) (accesses : List HostAccess) (s : State) : Host.Outcome State Fault Refusal :=
  match jobs.find? (fun j => !decide (j.1 < s.cfg.neng)) with
  | some j => .refused (.noSuchEngine j.1)
  | none =>
    if enginesDistinct jobs = false then .refused .engineBusy
    else if (jobsDisjoint s.cfg.nslot jobs && accesses.all (accessOutside s.cfg.nslot jobs)) = false then
      .refused .footprintCollision
    else andThen (runJobs jobs s) (runAccesses accesses)

/-- A slot can be marked once the host has written it: a word of it is the host's since reset (10_state R36), and none is
unspecified (70_reset R212, log 7). -/
def State.markable (s : State) (n : Nat) : Bool := (storeGet s.hostWrote n).isSome && (s.slotBound n).isSome

/-- The host says what a slot it has written stands for: tag and scale are its word, the bound is that of the words (10_state R28
to R30). Of a slot it has not written it can say nothing (R36): the mark changes nothing (log 7). -/
def markSlot (n : Nat) (tag : Option OrderTag) (scale : Option Int) (s : State) : Host.Outcome State Fault Refusal :=
  if n < s.cfg.nslot then .next (if s.markable n then s.setGhost n ⟨tag, scale, s.slotBound n⟩ else s)
  else .fault (.noSuchAddress (wordAddr n 0))

/-- A pulse on the reset input (70_reset R210, R211): the commands being performed are abandoned, no response is delivered for
them, every word of CM is unspecified and the engine is idle (log 10). -/
def resetPulse (s : State) : State := { s with cm := [], ghost := [], hostWrote := [] }

/-- What the block does with one action of the host. -/
def handle (ev : HostEvent) (s : State) : Host.Outcome State Fault Refusal :=
  match ev with
  | .issue engine w => issueCommand engine w s
  | .access x => hostAccess x s
  | .together jobs accesses => runTogether jobs accesses s
  | .mark n tag scale => markSlot n tag scale s
  | .reset _ => .next (resetPulse s)

/-! ### The host's view of a word as two bytes (20_memory R52, log 12) -/

/-- The bytes of a word at the lower and the higher host address. -/
def hostBytes (o : ByteOrder) (v : Word) : BitVec 8 × BitVec 8 :=
  match o with
  | .little => (v.extractLsb' 0 8, v.extractLsb' 8 8)
  | .big => (v.extractLsb' 8 8, v.extractLsb' 0 8)

/-- The word with these bytes at the lower and the higher host address. -/
def hostWord (o : ByteOrder) (lower higher : BitVec 8) : Word :=
  match o with
  | .little => higher ++ lower
  | .big => lower ++ higher

/-- The two bytes at which a host bus of bytes sees a word that has been written since reset. -/
def State.hostBytesAt (s : State) (a : Nat) : Option (BitVec 8 × BitVec 8) := (s.cm.read a).map (hostBytes s.cfg.hostByteOrder)

end Sys2Proof.Machine
end

