-- ==== Sys2Proof/Machine/Step.lean ====
section
/-! DEFINITION. One step: the next action of the host. Everything it does is `handle`'s. -/

namespace Sys2Proof.Machine

/-- Take the oldest pending action off the port, forget what was delivered before (30_encoding R78: nothing of a response is kept),
and do it. With no action pending the block is idle (60_exceptions R204). -/
def step (s : State) : Host.Outcome State Fault Refusal :=
  match s.port with
  | [] => .next { s with out := [] }
  | ev :: rest => handle ev { s with port := rest, out := [] }

/-- `s` with the command word whose bits are `w` (the bits at `nbits` and above 0) as the next action of the host: there is no
program counter and commands are not fetched, so this stands for the host's `Issue` on engine 0 (10_state R32, log 4). -/
def State.withFetchWord (s : State) (nbits w : Nat) : State :=
  { s with port := .issue 0 (BitVec.ofNat 64 (w % 2 ^ nbits)) :: s.port }

end Sys2Proof.Machine
end

