-- ==== Sys2Proof/Machine/Layout.lean ====
section
/-! DEFINITION. The reference datapath of file 41: lanes, interleaves, the transpose of a tile, vector butterflies, and the merged
schedules of 42_ntt_forward R143 and 43_ntt_inverse R154. No command calls it: rule R126 makes it invisible, and that its
schedules give the words of the scalar rules is stated apart (log 17). -/

namespace Sys2Proof.Machine

/-- A vector of LANES = 4 int16 values (R122). -/
structure Lanes where
  l0 : Word
  l1 : Word
  l2 : Word
  l3 : Word
  deriving DecidableEq, Repr

/-- The same value in all four lanes. -/
def broadcast (z : Word) : Lanes := ⟨z, z, z, z⟩

/-- Vector n of a polynomial holds words 4n .. 4n+3 (R122). -/
def toLanes : Poly → List Lanes
  | a :: b :: c :: d :: rest => ⟨a, b, c, d⟩ :: toLanes rest
  | _ => []

def ofLanes (vs : List Lanes) : Poly := vs.flatMap fun v => [v.l0, v.l1, v.l2, v.l3]

/-! ### Layout operations (R123 to R125) -/

/-- A fixed permutation of lanes, SHUF(V, π)[l] = V[π(l)] (R125), with π given by the four source lanes. -/
def Lanes.get (v : Lanes) : Fin 4 → Word
  | 0 => v.l0
  | 1 => v.l1
  | 2 => v.l2
  | 3 => v.l3

def shuf (v : Lanes) (p0 p1 p2 p3 : Fin 4) : Lanes := ⟨v.get p0, v.get p1, v.get p2, v.get p3⟩

/-- ZIPLO(A, B) (R123). -/
def zipLo (a b : Lanes) : Lanes := ⟨a.l0, b.l0, a.l1, b.l1⟩

/-- ZIPHI(A, B) (R123). -/
def zipHi (a b : Lanes) : Lanes := ⟨a.l2, b.l2, a.l3, b.l3⟩

/-- A 4 × 4 tile: 16 consecutive words as four vectors (R124). -/
structure Tile where
  v0 : Lanes
  v1 : Lanes
  v2 : Lanes
  v3 : Lanes
  deriving DecidableEq, Repr

/-- TRN4, by the two interleaving stages of rule R124. -/
def trn4 (t : Tile) : Tile :=
  let a := zipLo t.v0 t.v2
  let b := zipHi t.v0 t.v2
  let c := zipLo t.v1 t.v3
  let d := zipHi t.v1 t.v3
  ⟨zipLo a c, zipHi a c, zipLo b d, zipHi b d⟩

/-! ### Vector butterflies (R127): the scalar butterfly in each lane -/

def vbflyCt (x y z : Lanes) : Lanes × Lanes :=
  (⟨(bflyCt x.l0 y.l0 z.l0).1, (bflyCt x.l1 y.l1 z.l1).1, (bflyCt x.l2 y.l2 z.l2).1, (bflyCt x.l3 y.l3 z.l3).1⟩,
   ⟨(bflyCt x.l0 y.l0 z.l0).2, (bflyCt x.l1 y.l1 z.l1).2, (bflyCt x.l2 y.l2 z.l2).2, (bflyCt x.l3 y.l3 z.l3).2⟩)

def vbflyGsR (x y z : Lanes) : Lanes × Lanes :=
  (⟨(bflyGsR x.l0 y.l0 z.l0).1, (bflyGsR x.l1 y.l1 z.l1).1, (bflyGsR x.l2 y.l2 z.l2).1, (bflyGsR x.l3 y.l3 z.l3).1⟩,
   ⟨(bflyGsR x.l0 y.l0 z.l0).2, (bflyGsR x.l1 y.l1 z.l1).2, (bflyGsR x.l2 y.l2 z.l2).2, (bflyGsR x.l3 y.l3 z.l3).2⟩)

def vbflyGsF (x y : Lanes) : Lanes × Lanes :=
  (⟨(bflyGsF x.l0 y.l0).1, (bflyGsF x.l1 y.l1).1, (bflyGsF x.l2 y.l2).1, (bflyGsF x.l3 y.l3).1⟩,
   ⟨(bflyGsF x.l0 y.l0).2, (bflyGsF x.l1 y.l1).2, (bflyGsF x.l2 y.l2).2, (bflyGsF x.l3 y.l3).2⟩)

/-! ### Passes over vectors (R128) -/

/-- The blocks of a lane-parallel forward layer; `m` is the stride in vectors, one broadcast zeta per block of 2·m vectors. -/
def laneCtBlocks (m : Nat) : List Word → List Lanes → List Lanes
  | [], r => r
  | z :: zs, r =>
    let x := r.take m
    let y := (r.drop m).take m
    List.zipWith (fun a b => (vbflyCt a b (broadcast z)).1) x y ++ List.zipWith (fun a b => (vbflyCt a b (broadcast z)).2) x y
      ++ laneCtBlocks m zs (r.drop (2 * m))

/-- The blocks of a lane-parallel inverse layer. -/
def laneGsBlocks (m : Nat) : List Word → List Lanes → List Lanes
  | [], r => r
  | z :: zs, r =>
    let x := r.take m
    let y := (r.drop m).take m
    List.zipWith (fun a b => (vbflyGsR a b (broadcast z)).1) x y ++ List.zipWith (fun a b => (vbflyGsR a b (broadcast z)).2) x y
      ++ laneGsBlocks m zs (r.drop (2 * m))

/-- The stride-2 forward layer of one tile: transpose, two vector butterflies with four distinct zetas, transpose back (R143). -/
def tileCt (z : Lanes) (t : Tile) : Tile :=
  let u := trn4 t
  let p := vbflyCt u.v0 u.v2 z
  let q := vbflyCt u.v1 u.v3 z
  trn4 ⟨p.1, q.1, p.2, q.2⟩

/-- The stride-2 inverse layer of one tile (R154). -/
def tileGs (z : Lanes) (t : Tile) : Tile :=
  let u := trn4 t
  let p := vbflyGsR u.v0 u.v2 z
  let q := vbflyGsR u.v1 u.v3 z
  trn4 ⟨p.1, q.1, p.2, q.2⟩

/-- A tile operation on each four vectors in turn, with the zetas of each tile. -/
def eachTile (f : Lanes → Tile → Tile) : List Lanes → List Lanes → List Lanes
  | z :: zs, a :: b :: c :: d :: rest =>
    let t := f z ⟨a, b, c, d⟩
    t.v0 :: t.v1 :: t.v2 :: t.v3 :: eachTile f zs rest
  | _, r => r

/-- The zetas of the stride-2 forward layer for the eight tiles of half h: Z[64 + tb/4 + r] in lane r, tb = 128h + 16·tile. -/
def tileZetas (h : Nat) : List Lanes :=
  (List.range 8).map fun t =>
    let k := 64 + 32 * h + 4 * t
    ⟨zeta k, zeta (k + 1), zeta (k + 2), zeta (k + 3)⟩

/-- The zetas of the stride-2 inverse layer for the eight tiles of half h: ZI[tb/4 + r] in lane r. -/
def tileInvZetas (h : Nat) : List Lanes :=
  (List.range 8).map fun t =>
    let k := 32 * h + 4 * t
    ⟨zetaInv k, zetaInv (k + 1), zetaInv (k + 2), zetaInv (k + 3)⟩

/-! ### The merged schedules -/

/-- A lane-parallel forward layer of stride `len` on the 32 vectors of half h: the zetas of its 64/len blocks (R143). -/
def halfCtLayer (h : Nat) (vs : List Lanes) (len : Nat) : List Lanes :=
  laneCtBlocks (len / 4) (zetaRun (128 / len + h * (64 / len)) (64 / len)) vs

/-- Pass 2 of the forward transform on half h. -/
def halfNtt (h : Nat) (vs : List Lanes) : List Lanes :=
  eachTile tileCt (tileZetas h) ([64, 32, 16, 8, 4].foldl (halfCtLayer h) vs)

/-- The merged forward schedule (42_ntt_forward R143): stride 128 over the whole array, then the remaining six strides per half. -/
def mergedNtt (r : Poly) : Poly :=
  let vs := laneCtBlocks 32 [zeta 1] (toLanes r)
  ofLanes (halfNtt 0 (vs.take 32) ++ halfNtt 1 (vs.drop 32))

/-- A lane-parallel inverse layer of stride `len` on the 32 vectors of half h (R154). -/
def halfGsLayer (h : Nat) (vs : List Lanes) (len : Nat) : List Lanes :=
  laneGsBlocks (len / 4) (zetaInvRun (128 - 256 / len + h * (64 / len)) (64 / len)) vs

/-- Pass 1 of the inverse transform on half h. -/
def halfIntt (h : Nat) (vs : List Lanes) : List Lanes :=
  [4, 8, 16, 32, 64].foldl (halfGsLayer h) (eachTile tileGs (tileInvZetas h) vs)

/-- Pass 2 of the inverse transform: the last layer over the whole array. -/
def laneGsLast (vs : List Lanes) : List Lanes :=
  let x := vs.take 32
  let y := vs.drop 32
  List.zipWith (fun a b => (vbflyGsF a b).1) x y ++ List.zipWith (fun a b => (vbflyGsF a b).2) x y

/-- The merged inverse schedule (43_ntt_inverse R154). -/
def mergedIntt (r : Poly) : Poly :=
  let vs := toLanes r
  ofLanes (laneGsLast (halfIntt 0 (vs.take 32) ++ halfIntt 1 (vs.drop 32)))

end Sys2Proof.Machine
end

