-- ==== Sys2Proof/Safety.lean ====
section
/-! DEFINITION. The terms in which claims are stated: the invariant of the state, what a command leaves alone, magnitude bounds, the
index form of the transforms, and what the words of a slot mean as a polynomial (the contracts of files 42, 43 and 45). -/

namespace Sys2Proof.Machine

open Finset in
/-- The sum of f over 0 .. n-1. -/
def sumTo (n : Nat) (f : Nat → Int) : Int := ∑ i ∈ range n, f i

/-! ### The invariant -/

/-- Every word of the slot has been written since reset (70_reset R212). -/
def State.Written (s : State) (n : Nat) : Prop := ∀ i < 256, (s.cm.read (wordAddr n i)).isSome = true

/-- What every reachable state has: legal parameters, a canonical memory within the address space (20_memory R55), and a canonical
record of ghost attributes about slots that exist and of which every word has been written (10_state R36), and a canonical record of
the slots the host has written. -/
structure State.Inv (s : State) : Prop where
  cfg : s.cfg.wf
  cm : s.cm.wf
  addresses : ∀ c ∈ s.cm, c.1 < 256 * s.cfg.nslot
  ghost : Rising s.ghost
  slots : ∀ g ∈ s.ghost, g.1 < s.cfg.nslot ∧ g.2 ≠ Ghost.unknown
  known : ∀ g ∈ s.ghost, s.Written g.1
  hostWrote : Rising s.hostWrote
  hostSlots : ∀ h ∈ s.hostWrote, h.1 < s.cfg.nslot

/-- Every recorded magnitude bound is true: each word of the slot has been written and is at most the bound (10_state R30). -/
def State.BoundsTrue (s : State) : Prop :=
  ∀ n b, (s.ghostOf n).bound = some b → ∀ i < 256, ∃ v, s.cm.read (wordAddr n i) = some v ∧ v.toInt.natAbs ≤ b

/-! ### What a command leaves alone -/

/-- No word outside the slots `writes` is changed, nor what is known of those slots, nor the parameters, the
pending actions or the record of the slots the host has written. -/
structure State.SameBut (s t : State) (writes : List Nat) : Prop where
  words : ∀ a, a / 256 ∉ writes → t.cm.read a = s.cm.read a
  ghosts : ∀ n, n ∉ writes → t.ghostOf n = s.ghostOf n
  cfg : t.cfg = s.cfg
  port : t.port = s.port
  hostWrote : t.hostWrote = s.hostWrote

/-- The slot holds exactly these words, all written. -/
def State.Holds (t : State) (n : Nat) (p : Poly) : Prop := ∀ i < 256, t.cm.read (wordAddr n i) = some (p.getD i 0)

/-- `t` is `s` after a command that answered one response and delivered nothing else. -/
def State.Answered (s t : State) (rsp : Rsp) : Prop := t.out = s.out ++ [.response rsp]

/-! ### Words as integers -/

/-- Coefficient i of a polynomial. -/
def coeff (p : Poly) (i : Nat) : Int := (p.getD i 0).toInt

/-- Every word has magnitude at most B (10_state R30). -/
def Within (B : Int) (p : Poly) : Prop := ∀ i < 256, -B ≤ coeff p i ∧ coeff p i ≤ B

/-! ### The transforms in index form (42_ntt_forward R140, R142; 43_ntt_inverse R150, R152, R153)

The word j of a layer's result, from the words before the layer: `j / len` is even for the low output of a butterfly and odd for
the high one, and `j / (2·len)` is the number of the block. -/

/-- The forward layer of stride `len`. -/
def ctLayerAt (len : Nat) (r : Nat → Word) (j : Nat) : Word :=
  let z := toWord (zetaTable.getD (128 / len + j / (2 * len)) 0)
  if j / len % 2 = 0 then add16 (r j) (fqmul (r (j + len)) z) else sub16 (r (j - len)) (fqmul (r j) z)

/-- The inverse layer of stride `len`, low outputs reduced. -/
def gsLayerAt (len : Nat) (r : Nat → Word) (j : Nat) : Word :=
  let z := toWord (zetaInvTable.getD (128 - 256 / len + j / (2 * len)) 0)
  if j / len % 2 = 0 then barrett (add16 (r j) (r (j + len))) else fqmul (sub16 (r (j - len)) (r j)) z

/-- Layer 7 of the inverse transform. -/
def gsLastAt (r : Nat → Word) (j : Nat) : Word :=
  if j < 128 then fqmul (add16 (r j) (r (j + 128))) (toWord 1441) else fqmul (sub16 (r (j - 128)) (r j)) (toWord (-1397))

/-- The two sums of VACC for pair p, from the words at `a e i` and `b e i` (word i of element e of each vector), in the order of
rule R174. -/
def innerSumsAt (k : Nat) (a b : Nat → Nat → Word) (p : Nat) : Word × Word :=
  let z := if p % 2 = 0 then toWord (zetaTable.getD (64 + p / 2) 0) else toWord (-zetaTable.getD (64 + p / 2) 0)
  (List.range k).foldl
    (fun s e =>
      (add16 s.1 (add16 (fqmul (fqmul (a e (2 * p + 1)) (b e (2 * p + 1))) z) (fqmul (a e (2 * p)) (b e (2 * p)))),
       add16 s.2 (add16 (fqmul (a e (2 * p)) (b e (2 * p + 1))) (fqmul (a e (2 * p + 1)) (b e (2 * p))))))
    (0, 0)

/-- The first n layers of the forward transform. -/
def nttPrefix (n : Nat) (r : Poly) : Poly := (nttStrides.take n).foldl nttLayer r

/-- The first n layers of the inverse transform, n at most 6. -/
def inttPrefix (n : Nat) (r : Poly) : Poly := (inttStrides.take n).foldl inttLayer r

/-! ### What the words mean -/

/-- γ_p = ZROOT^(2·brv7(p)+1) mod Q, the root of pair p (42_ntt_forward R141). -/
def gamma (p : Nat) : Int := 17 ^ (2 * brv7 p + 1) % 3329

/-- Words o are the NTT-domain form of the polynomial with coefficients a: the pair p is a(x) modulo x^2 - γ_p (42 R141). -/
def NttForm (a o : Poly) : Prop :=
  ∀ p < 128, ∀ e < 2, coeff o (2 * p + e) ≡ sumTo 128 (fun i => coeff a (2 * i + e) * gamma p ^ i) [ZMOD 3329]

/-- Words o are R times the polynomial of which b is the NTT-domain form (43 R151). γ_p^(-m) is written γ_p^(256 - m), γ_p having
order 256. -/
def InttForm (b o : Poly) : Prop :=
  ∀ m < 128, ∀ e < 2,
    coeff o (2 * m + e) ≡ 65536 * 3303 * sumTo 128 (fun p => coeff b (2 * p + e) * gamma p ^ (256 - m)) [ZMOD 3329]

/-- The degree-0 coefficient of Σ_e A_e·B_e modulo x^2 - γ_p (45 R176). -/
def innerLow (ops : List (Poly × Poly)) (p : Nat) : Int :=
  (ops.map fun ab =>
    coeff ab.1 (2 * p) * coeff ab.2 (2 * p) + gamma p * (coeff ab.1 (2 * p + 1) * coeff ab.2 (2 * p + 1))).sum

/-- The degree-1 coefficient of Σ_e A_e·B_e modulo x^2 - γ_p (45 R176). -/
def innerHigh (ops : List (Poly × Poly)) (p : Nat) : Int :=
  (ops.map fun ab =>
    coeff ab.1 (2 * p) * coeff ab.2 (2 * p + 1) + coeff ab.1 (2 * p + 1) * coeff ab.2 (2 * p)).sum

/-- Coefficient k of the product a·b modulo x^256 + 1 (schoolbook). -/
def negacyclic (a b : Poly) (k : Nat) : Int :=
  sumTo 256 fun i => sumTo 256 fun j =>
    if i + j = k then coeff a i * coeff b j else if i + j = k + 256 then -(coeff a i * coeff b j) else 0

/-! ### Safe use -/

/-- An action of the host the spec admits: existing engines and addresses, disjoint footprints (20_memory R55, R56, R59). -/
def actionAdmitted (c : Config) : HostEvent → Prop
  | .issue engine _ => engine < c.neng
  | .access x => x.addr < 256 * c.nslot
  | .together jobs accesses =>
    (∀ j ∈ jobs, j.1 < c.neng) ∧ enginesDistinct jobs = true ∧ jobsDisjoint c.nslot jobs = true ∧
      (∀ x ∈ accesses, x.addr < 256 * c.nslot ∧ accessOutside c.nslot jobs x = true)
  | .mark n _ _ => n < c.nslot
  | .reset _ => True

end Sys2Proof.Machine
end

