-- ==== Sys2Proof/Certificates/Slice0/Obligations.lean ====
section
/-! DEFINITION. The statements for the provers, each from the rules of spec/ its docstring names. -/

open Sys2Proof Sys2Proof.Machine

/-! ### Reset and invariants -/

/-- R36, R210, R216: after reset no word of CM has a value (a read gives a free value), nothing is known of any slot, and no
response is pending. That the parameters and the counter stand in the state is the model's choice (logs 2, 3). -/
def Obligations.ResetLeavesMemoryUnspecified : Prop :=
  ∀ c : Config, (∀ a, (State.resetWith c).cm.read a = none) ∧ (∀ n, (State.resetWith c).ghostOf n = Ghost.unknown) ∧
    (∀ j a, (State.resetWith c).wordAt j a = Config.freeWord ((State.resetWith c).tick + j) a) ∧
    (State.resetWith c).out = [] ∧ (State.resetWith c).cfg = c ∧ (State.resetWith c).hostWrote = []

/-- The invariant and the truth of the recorded bounds hold at reset, for every legal parameters, and the machine's reset has the
defaults of R5. The defaults in State.reset are the model's choice (log 3). -/
def Obligations.ResetMeetsInvariant : Prop :=
  (∀ c : Config, c.wf → (State.resetWith c).Inv ∧ (State.resetWith c).BoundsTrue) ∧
    State.reset = State.resetWith ⟨16, 1, .little⟩ ∧ State.reset.cfg.wf

/-- R21, R36, R55: every step keeps the memory canonical and within 0 .. 256·NSLOT - 1, the records of ghost attributes and of the
slots the host has written canonical and about existing slots, every word of a slot of which something is known written, and the
parameters as they are. -/
def Obligations.StepKeepsStateInvariant : Prop :=
  ∀ s t : State, s.Inv → step s = .next t → t.Inv ∧ t.cfg = s.cfg

/-- R30: every recorded magnitude bound stays true of the words of its slot, after every step. Which bound a command records is
RecordedBoundsFollowTheTable. That a host marks a slot is the model's choice (log 7). -/
def Obligations.StepKeepsBoundsTrue : Prop :=
  ∀ s t : State, s.BoundsTrue → step s = .next t → t.BoundsTrue

/-! ### Encoding -/

/-- R71 to R74: decoding the word of a well-formed instruction gives the instruction back. -/
def Obligations.DecodeOfEncodedInstruction : Prop := ∀ i : Instr, i.wf = true → decode (encode i) = .instr i

/-- R76, R81: a word that decodes is the word of the well-formed instruction it decodes to, so no bit of it is ignored. -/
def Obligations.EncodeOfDecodedWord : Prop := ∀ (w : Command) (i : Instr), decode w = .instr i → i.wf = true ∧ encode i = w

/-- R79: a command word is `OP | K<<8 | TM<<11 | RD<<16 | RA<<24 | RB<<32` or `OP | A<<16 | B<<32`. -/
def Obligations.EncodedWordIsSumOfFields : Prop :=
  ∀ (k d a b : Nat) (tm : Bool) (x y : Word), k < 8 → d < 256 → a < 256 → b < 256 →
    (encode (.fqmul x y)).toNat = 0x01 + x.toNat * 2 ^ 16 + y.toNat * 2 ^ 32 ∧
    (encode (.barrett x)).toNat = 0x02 + x.toNat * 2 ^ 16 ∧
    (encode (.ntt d)).toNat = 0x10 + d * 2 ^ 16 ∧
    (encode (.intt d)).toNat = 0x11 + d * 2 ^ 16 ∧
    (encode (.red d)).toNat = 0x20 + d * 2 ^ 16 ∧
    (encode (.addr d a)).toNat = 0x21 + d * 2 ^ 16 + a * 2 ^ 24 ∧
    (encode (.addaddr d a b)).toNat = 0x22 + d * 2 ^ 16 + a * 2 ^ 24 + b * 2 ^ 32 ∧
    (encode (.subr d a)).toNat = 0x23 + d * 2 ^ 16 + a * 2 ^ 24 ∧
    (encode (.vntt k d)).toNat = 0x30 + k * 2 ^ 8 + d * 2 ^ 16 ∧
    (encode (.vintt k d)).toNat = 0x31 + k * 2 ^ 8 + d * 2 ^ 16 ∧
    (encode (.vaddr k d a)).toNat = 0x32 + k * 2 ^ 8 + d * 2 ^ 16 + a * 2 ^ 24 ∧
    (encode (.vacc k tm d a b)).toNat =
      0x33 + k * 2 ^ 8 + (if tm then 2 ^ 11 else 0) + d * 2 ^ 16 + a * 2 ^ 24 + b * 2 ^ 32

/-- R79: the worked encodings, word by word, with their text. -/
def Obligations.WorkedEncodingsDecode : Prop :=
  ∀ c ∈ [(0x00000011FBEC0001#64, Instr.fqmul (BitVec.ofInt 16 (-1044)) 17#16, "FQMUL -1044, 17"),
      (0x000000007FFF0002#64, .barrett 32767#16, "BARRETT 32767"),
      (0x0000000000050010#64, .ntt 5, "NTT s5"),
      (0x0000000302010022#64, .addaddr 1 2 3, "ADDADDR s1, s2, s3"),
      (0x0000000000000230#64, .vntt 2 0, "VNTT.k2 s0"),
      (0x0000000004000432#64, .vaddr 4 0 4, "VADDR.k4 s0, s4"),
      (0x0000000400080B33#64, .vacc 3 true 8 0 4, "VACC.k3.m s8, s0, s4")],
    decode c.1 = .instr c.2.1 ∧ c.2.1.text = c.2.2

/-- R78: the fields of a response word, and the one response every word gets: zero above bit 19, a status of at most 4, and a
result that is zero but for FQMUL and BARRETT. -/
def Obligations.ResponseWordHasItsFields : Prop :=
  (∀ (st : Status) (v : Word), (responseWord st v).extractLsb' 0 16 = v ∧ (responseWord st v).extractLsb' 20 12 = 0#12 ∧
    ((responseWord st v).extractLsb' 16 4).toNat =
      (match st with | .ok => 0 | .illegalOpcode => 1 | .illegalField => 2 | .slotRange => 3 | .overlap => 4)) ∧
  ∀ (w : Command) (s : State), ∃ t rsp, runCommand w s = .next t ∧ s.Answered t rsp ∧ rsp.extractLsb' 20 12 = 0#12 ∧
    (rsp.extractLsb' 16 4).toNat ≤ 4 ∧
    rsp.extractLsb' 0 16 =
      (match decode w with | .instr (.fqmul a b) => fqmul a b | .instr (.barrett a) => barrett a | _ => 0)

/-! ### Refusals -/

/-- R192: an opcode byte that is none of the twelve is refused with ILLEGAL_OPCODE whatever the other 56 bits hold. -/
def Obligations.OtherOpcodesAreRefused : Prop :=
  (∀ (w : Command) (s : State),
    (w.extractLsb' 0 8).toNat ∉ [0x01, 0x02, 0x10, 0x11, 0x20, 0x21, 0x22, 0x23, 0x30, 0x31, 0x32, 0x33] →
      runCommand w s = .next { s with out := s.out ++ [.response 0x00010000#32] }) ∧
  ∀ w ∈ [0x0000000000000000#64, 0xFFFFFFFFFFFFFFFF#64, 0x0000000000050012#64], ∀ s : State,
    runCommand w s = .next { s with out := s.out ++ [.response 0x00010000#32] }

/-- R193 (with the table of R74): with a legal opcode, a bit outside the used fields or a K other than 2, 3, 4 in a vector command
is refused with ILLEGAL_FIELD, and only that. -/
def Obligations.FieldsOutsideTheMaskAreRefused : Prop :=
  (∀ row ∈ [(0x01, 0xFFFF00000000FFFF#64, false), (0x02, 0xFFFFFFFF0000FFFF#64, false), (0x10, 0xFFFFFFFFFF00FFFF#64, false),
      (0x11, 0xFFFFFFFFFF00FFFF#64, false), (0x20, 0xFFFFFFFFFF00FFFF#64, false), (0x21, 0xFFFFFFFF0000FFFF#64, false),
      (0x22, 0xFFFFFF000000FFFF#64, false), (0x23, 0xFFFFFFFF0000FFFF#64, false), (0x30, 0xFFFFFFFFFF00F8FF#64, true),
      (0x31, 0xFFFFFFFFFF00F8FF#64, true), (0x32, 0xFFFFFFFF0000F8FF#64, true), (0x33, 0xFFFFFF000000F0FF#64, true)],
    ∀ (w : Command) (s : State), (w.extractLsb' 0 8).toNat = row.1 →
      if w &&& row.2.1 ≠ BitVec.ofNat 64 row.1 ∨ (row.2.2 = true ∧ (w.extractLsb' 8 3).toNat ∉ [2, 3, 4]) then
        runCommand w s = .next { s with out := s.out ++ [.response 0x00020000#32] }
      else ∃ i, decode w = .instr i) ∧
  ∀ w ∈ [0x0000000000050210#64, 0x0000000000000130#64, 0x0000000000000530#64, 0x0000000001000020#64], ∀ s : State,
    runCommand w s = .next { s with out := s.out ++ [.response 0x00020000#32] }

/-- R194: a slot operand that reaches beyond slot NSLOT - 1 is refused with SLOT_RANGE, for every command and every operand. -/
def Obligations.SlotsBeyondMemoryAreRefused : Prop :=
  (∀ (s : State) (k d a b : Nat) (tm : Bool), k = 2 ∨ k = 3 ∨ k = 4 →
    let r : Host.Outcome State Fault Refusal := .next { s with out := s.out ++ [.response 0x00030000#32] }
    (d + 1 > s.cfg.nslot → exec (.ntt d) s = r ∧ exec (.intt d) s = r ∧ exec (.red d) s = r) ∧
    (d + 1 > s.cfg.nslot ∨ a + 1 > s.cfg.nslot → exec (.addr d a) s = r ∧ exec (.subr d a) s = r) ∧
    (d + 1 > s.cfg.nslot ∨ a + 1 > s.cfg.nslot ∨ b + 1 > s.cfg.nslot → exec (.addaddr d a b) s = r) ∧
    (d + k > s.cfg.nslot → exec (.vntt k d) s = r ∧ exec (.vintt k d) s = r) ∧
    (d + k > s.cfg.nslot ∨ a + k > s.cfg.nslot → exec (.vaddr k d a) s = r) ∧
    (d + 1 > s.cfg.nslot ∨ a + k > s.cfg.nslot ∨ b + k > s.cfg.nslot → exec (.vacc k tm d a b) s = r)) ∧
  (∀ w ∈ [0x0000000000100010#64, 0x00000000000D0430#64, 0x00000000C8000021#64], ∀ s : State, s.cfg.nslot = 16 →
    runCommand w s = .next { s with out := s.out ++ [.response 0x00030000#32] }) ∧
  admission 16 (.vntt 3 13) = .ok

/-- R195: the forbidden overlaps are refused with OVERLAP when all operands are in range, and by no other command. -/
def Obligations.ForbiddenOverlapsAreRefused : Prop :=
  (∀ (s : State) (k d a b : Nat) (tm : Bool), k = 2 ∨ k = 3 ∨ k = 4 →
    let r : Host.Outcome State Fault Refusal := .next { s with out := s.out ++ [.response 0x00040000#32] }
    (d + k ≤ s.cfg.nslot → a + k ≤ s.cfg.nslot → (a < d ∧ d - a < k ∨ d < a ∧ a - d < k) → exec (.vaddr k d a) s = r) ∧
    (d < s.cfg.nslot → a + k ≤ s.cfg.nslot → b + k ≤ s.cfg.nslot → (a ≤ d ∧ d < a + k ∨ b ≤ d ∧ d < b + k) →
      exec (.vacc k tm d a b) s = r)) ∧
  (∀ (n : Nat) (i : Instr), admission n i = .overlap →
    (∃ k d a, i = .vaddr k d a) ∨ ∃ k tm d a b, i = .vacc k tm d a b) ∧
  (∀ w ∈ [0x0000000001000232#64, 0x0000000400010233#64], ∀ s : State, s.cfg.nslot = 16 →
    runCommand w s = .next { s with out := s.out ++ [.response 0x00040000#32] }) ∧
  admission 16 (.vacc 2 false 2 0 0) = .ok

/-- R196: the first cause in the order opcode, field, range, overlap is the one reported. -/
def Obligations.RefusalsHaveTheirPriority : Prop :=
  (∀ (w : Command) (s : State),
    (w.extractLsb' 0 8).toNat ∉ [0x01, 0x02, 0x10, 0x11, 0x20, 0x21, 0x22, 0x23, 0x30, 0x31, 0x32, 0x33] →
      runCommand w s = .next (s.refuse .illegalOpcode)) ∧
  (∀ (w : Command) (st : Status) (s : State), decode w = .refused st → runCommand w s = .next (s.refuse st)) ∧
  (∀ (s : State) (k d a : Nat), k = 2 ∨ k = 3 ∨ k = 4 → d ≠ a → d < a + k → a < d + k →
    exec (.vaddr k d a) s =
      .next (s.refuse (if d + k > s.cfg.nslot ∨ a + k > s.cfg.nslot then .slotRange else .overlap))) ∧
  (∀ (s : State) (k d a b : Nat) (tm : Bool), k = 2 ∨ k = 3 ∨ k = 4 → a ≤ d ∧ d < a + k ∨ b ≤ d ∧ d < b + k →
    exec (.vacc k tm d a b) s =
      .next (s.refuse
        (if d + 1 > s.cfg.nslot ∨ a + k > s.cfg.nslot ∨ b + k > s.cfg.nslot then .slotRange else .overlap))) ∧
  ∀ s : State, s.cfg.nslot = 16 →
    runCommand 0x00000000C9C80532#64 s = .next (s.refuse .illegalField) ∧
    runCommand 0x00000000100F0232#64 s = .next (s.refuse .slotRange) ∧
    runCommand 0xFFFFFFFFFFFFFF00#64 s = .next (s.refuse .illegalOpcode)

/-- R197: a refused command changes no word of CM and reads none, saves nothing, and answers `{0, STATUS, 0}`. -/
def Obligations.RefusedCommandChangesNothing : Prop :=
  ∀ (w : Command) (s : State), wordStatus s.cfg.nslot w ≠ .ok →
    runCommand w s = .next { s with out := s.out ++ [.response (0#12 ++ statusCode (wordStatus s.cfg.nslot w) ++ 0#16)] }

/-- R198: the next command is treated exactly as if the refused one had never been issued. -/
def Obligations.RefusalLeavesNoTrace : Prop :=
  ∀ (w w' : Command) (s : State), wordStatus s.cfg.nslot w ≠ .ok →
    ∃ t, runCommand w s = .next t ∧ runCommand w' { t with out := s.out } = runCommand w' s

/-- R81, R190, R218: every 64-bit word is answered with its status, OK for an admitted command whatever CM holds, written or not;
the response, the number of reads and the set of words written depend on the command word and NSLOT only, never on a word of CM.
Counting reads is the model's choice (log 2). -/
def Obligations.EveryWordIsAnsweredWhateverTheData : Prop :=
  ∃ (rsp : Nat → Command → Rsp) (reads : Nat → Command → Nat), ∀ (w : Command) (s : State), ∃ t,
    runCommand w s = .next t ∧ s.Answered t (rsp s.cfg.nslot w) ∧
    (rsp s.cfg.nslot w).extractLsb' 16 4 = statusCode (wordStatus s.cfg.nslot w) ∧ t.tick = s.tick + reads s.cfg.nslot w ∧
    ∀ a, (t.cm.read a).isSome =
      ((s.cm.read a).isSome || decide (a / 256 ∈ (wordFootprint s.cfg.nslot w).writes))

/-! ### Steps -/

/-- R10, R57, R81: the oldest issued word is decoded and its instruction run, or it is refused. The list of pending actions is the
model's choice (logs 4, 5). -/
def Obligations.StepRunsIssuedInstruction : Prop :=
  ∀ (s : State) (engine : Nat) (w : Command) (rest : List HostEvent), s.port = .issue engine w :: rest → engine < s.cfg.neng →
    (∀ i, decode w = .instr i → step s = exec i { s with port := rest, out := [] }) ∧
    (∀ st, decode w = .refused st → step s = .next ({ s with port := rest, out := [] }.refuse st))

/-- R55, R56, R59: an action of the host that the spec admits never stops the machine. What is admitted in simultaneous use is log
9. -/
def Obligations.AdmittedActionsNeverStop : Prop :=
  ∀ (s : State) (ev : HostEvent) (rest : List HostEvent), s.port = ev :: rest → actionAdmitted s.cfg ev → ∃ t, step s = .next t

/-- R55, R56, R202: what the spec leaves outside stops by name: an address that does not exist, an engine that does not exist, two
commands on one engine. Stopping by name is the model's choice (logs 8, 9). -/
def Obligations.ActionsOutsideTheSpecStop : Prop :=
  ∀ (s : State) (a engine : Nat) (v : Word) (w w' : Command),
    (a ≥ 256 * s.cfg.nslot → handle (.access (.read a)) s = .fault (.noSuchAddress a) ∧
      handle (.access (.write a v)) s = .fault (.noSuchAddress a)) ∧
    (engine ≥ s.cfg.neng → handle (.issue engine w) s = .refused (.noSuchEngine engine)) ∧
    (engine < s.cfg.neng → handle (.together [(engine, w), (engine, w')] []) s = .refused .engineBusy)

/-- R56: a host write stores the word and changes no other word; a host read then delivers it and changes no word. -/
def Obligations.HostReadGivesWhatHostWrote : Prop :=
  ∀ (s : State) (a : Nat) (v : Word), a < 256 * s.cfg.nslot →
    ∃ t u, handle (.access (.write a v)) s = .next t ∧ t.cm.read a = some v ∧ (∀ b, b ≠ a → t.cm.read b = s.cm.read b) ∧
      t.out = s.out ∧ handle (.access (.read a)) t = .next u ∧ u.out = t.out ++ [.data v] ∧ u.cm = t.cm

/-- R210, R211: a reset pulse, during commands or between them, delivers no response and leaves every word unspecified. That the
read counter and the pending actions stay is the model's choice (log 10). -/
def Obligations.ResetPulseForgetsEverything : Prop :=
  ∀ (s : State) (running : List (Nat × Command)), ∃ t, handle (.reset running) s = .next t ∧ t.out = s.out ∧
    (∀ j a, t.wordAt j a = Config.freeWord (t.tick + j) a) ∧ (∀ n, t.ghostOf n = Ghost.unknown) ∧
    t.hostWrote = [] ∧ t.cfg = s.cfg ∧ t.port = s.port

/-! ### The arithmetic units -/

/-- R108: the adder and the subtractor are exact where the exact result is an int16, wrap modulo 2^16 elsewhere, and wrapping
addition is associative. Wrapping is the spec's default of U1 (log 13); the sum of three is its own inference. -/
def Obligations.AddersWrapModulo65536 : Prop :=
  ∀ a b c : Word,
    (add16 a b).toInt = s16 (a.toInt + b.toInt) ∧ (sub16 a b).toInt = s16 (a.toInt - b.toInt) ∧
    (add16 a b).toInt ≡ a.toInt + b.toInt [ZMOD 65536] ∧ (sub16 a b).toInt ≡ a.toInt - b.toInt [ZMOD 65536] ∧
    (-32768 ≤ a.toInt + b.toInt → a.toInt + b.toInt ≤ 32767 → (add16 a b).toInt = a.toInt + b.toInt) ∧
    (-32768 ≤ a.toInt - b.toInt → a.toInt - b.toInt ≤ 32767 → (sub16 a b).toInt = a.toInt - b.toInt) ∧
    (add16 (add16 a b) c).toInt = s16 (a.toInt + b.toInt + c.toInt) ∧ add16 (add16 a b) c = add16 a (add16 b c)

/-- R101, R102 items 1 to 4: the Montgomery product of any two int16 values: its residue, that it is an int16 (nothing is lost by
storing it), its bounds, its symmetry. The spec marks these as derived from R101. -/
def Obligations.FqmulIsMontgomeryProduct : Prop :=
  ∀ a b : Word,
    (fqmul a b).toInt * 65536 ≡ a.toInt * b.toInt [ZMOD 3329] ∧ (fqmul a b).toInt ≡ a.toInt * b.toInt * 169 [ZMOD 3329] ∧
    (fqmul a b).toInt = fqmulInt a.toInt b.toInt ∧
    |(fqmul a b).toInt| ≤ |a.toInt * b.toInt| / 65536 + 1665 ∧ |(fqmul a b).toInt| ≤ 18049 ∧
    (|a.toInt * b.toInt| < 109084672 → -3329 < (fqmul a b).toInt ∧ (fqmul a b).toInt < 3329) ∧
    fqmul a b = fqmul b a ∧ fqmul 0 b = 0 ∧ (fqmul a (toWord (-1044))).toInt ≡ a.toInt [ZMOD 3329]

/-- R105: for every int16, `barrett` is the centred representative; it depends only on the residue and is idempotent. The spec
marks this as derived from R104. -/
def Obligations.BarrettGivesCentredResidue : Prop :=
  ∀ a b : Word,
    (barrett a).toInt ≡ a.toInt [ZMOD 3329] ∧ -1664 ≤ (barrett a).toInt ∧ (barrett a).toInt ≤ 1664 ∧
    (barrett a).toInt = cmod a.toInt ∧ (a.toInt ≡ b.toInt [ZMOD 3329] → barrett a = barrett b) ∧
    barrett (barrett a) = barrett a

/-- R120, R121: the bounds of the butterflies. -/
def Obligations.ButterfliesKeepTheirBounds : Prop :=
  (∀ (x y z : Word) (B : Int), |x.toInt| ≤ B → B ≤ 29439 → |y.toInt * z.toInt| < 109084672 →
    |(bflyCt x y z).1.toInt| < B + 3329 ∧ |(bflyCt x y z).2.toInt| < B + 3329) ∧
  ∀ x y z : Word, |x.toInt| ≤ 16383 → |y.toInt| ≤ 16383 → |z.toInt| ≤ 1664 →
    |(bflyGs x y z).2.toInt| < 3329 ∧ |(bflyGsR x y z).2.toInt| < 3329 ∧ |(bflyGsR x y z).1.toInt| ≤ 1664 ∧
    |(bflyGsF x y).1.toInt| < 3329 ∧ |(bflyGsF x y).2.toInt| < 3329

/-- R173: both components of the base multiplication carry one factor R^-1. -/
def Obligations.BasemulMultipliesModuloQuadratic : Prop :=
  ∀ (a0 a1 b0 b1 z : Word) (zeta : Int), z.toInt ≡ 65536 * zeta [ZMOD 3329] → |z.toInt| ≤ 1664 →
    (∀ w ∈ [a0, a1, b0, b1], |w.toInt| ≤ 20682) →
    (basemul a0 a1 b0 b1 z).1.toInt * 65536 ≡ a0.toInt * b0.toInt + zeta * (a1.toInt * b1.toInt) [ZMOD 3329] ∧
    (basemul a0 a1 b0 b1 z).2.toInt * 65536 ≡ a0.toInt * b1.toInt + a1.toInt * b0.toInt [ZMOD 3329]

/-! ### The constant tables -/

/-- R25, R26: 17 is the least positive integer of order 256, Z[k] = cmod(R · ZROOT^brv7(k)) for all 128 entries, ZI[i] =
cmod(-Z[127 - i]) for all 127, the entries the two directions use for one block multiply to R^2, and the trailing constants. -/
def Obligations.TablesHoldPowersOfTheRoot : Prop :=
  17 ^ 128 % 3329 = 3328 ∧ (∀ g : Nat, g < 17 → g ^ 128 % 3329 ≠ 3328) ∧
    zetaTable.length = 128 ∧ (∀ k < 128, zetaTable.getD k 0 = cmod (65536 * 17 ^ brv7 k)) ∧
    zetaInvTable.length = 127 ∧ (∀ i < 127, zetaInvTable.getD i 0 = cmod (-zetaTable.getD (127 - i) 0)) ∧
    (∀ len ∈ [2, 4, 8, 16, 32, 64, 128], ∀ block < 128 / len,
      zetaInvTable.getD (128 - 256 / len + block) 0 * zetaTable.getD (128 / len + block) 0 ≡ 65536 * 65536 [ZMOD 3329]) ∧
    constF.toInt = 1441 ∧ constZF.toInt = cmod (zetaInvTable.getD 126 0 * 1441 * 169) ∧ constZF.toInt = -1397 ∧
    constR2.toInt = cmod (65536 * 65536) ∧ constR2.toInt = 1353

/-- R175: the constant of pair 2g is Z[64 + g] and of pair 2g + 1 its negation; the constant of pair p is R·γ_p modulo Q, and γ of
the second pair of a group is the negation of the first's. The spec marks this as derived from R25. -/
def Obligations.PairConstantsAreTheRoots : Prop :=
  (∀ g < 64, (pairZeta (2 * g)).toInt = zetaTable.getD (64 + g) 0 ∧ (pairZeta (2 * g + 1)).toInt = -zetaTable.getD (64 + g) 0 ∧
    brv7 (64 + g) = 2 * brv7 (2 * g) + 1) ∧
  (∀ p < 128, (pairZeta p).toInt ≡ 65536 * gamma p [ZMOD 3329]) ∧ ∀ g < 64, gamma (2 * g + 1) ≡ -gamma (2 * g) [ZMOD 3329]

/-! ### The scalar commands -/

/-- R103, R106: FQMUL and BARRETT answer their result and touch nothing. -/
def Obligations.ScalarCommandsAnswerTheirResult : Prop :=
  ∀ (s : State) (a b : Word),
    (∃ t, exec (.fqmul a b) s = .next t ∧ s.SameBut t [] ∧ t.cm = s.cm ∧ t.tick = s.tick ∧
      s.Answered t (0#16 ++ toWord (fqmulInt a.toInt b.toInt))) ∧
    ∃ t, exec (.barrett a) s = .next t ∧ s.SameBut t [] ∧ t.cm = s.cm ∧ t.tick = s.tick ∧
      s.Answered t (0#16 ++ toWord (cmod a.toInt))

/-! ### The coefficient-wise commands

`s.wordAt j a` is the word at address a: the one last written, or a free value if none has been (log 2). -/

/-- R160: RED leaves cmod of every word of its slot, tag and scale unchanged, and is idempotent. -/
def Obligations.RedReducesEveryWord : Prop :=
  ∀ (s : State) (d : Nat), d < s.cfg.nslot →
    ∃ t, exec (.red d) s = .next t ∧ s.SameBut t [d] ∧ s.Answered t 0 ∧
      (∀ i < 256, ∃ v, t.cm.read (256 * d + i) = some v ∧ v.toInt = cmod (s.wordAt 0 (256 * d + i)).toInt) ∧
      (t.ghostOf d).tag = (s.ghostOf d).tag ∧ (t.ghostOf d).scale = (s.ghostOf d).scale ∧
      ∃ u, exec (.red d) t = .next u ∧ ∀ a, u.cm.read a = t.cm.read a

/-- R161: ADDR leaves cmod of the 16-bit sum of the words of its two slots, which may be the same slot. -/
def Obligations.AddrAddsAndReduces : Prop :=
  ∀ (s : State) (d a : Nat), d < s.cfg.nslot → a < s.cfg.nslot →
    ∃ t, exec (.addr d a) s = .next t ∧ s.SameBut t [d] ∧ s.Answered t 0 ∧
      ∀ i < 256, ∃ v, t.cm.read (256 * d + i) = some v ∧
        v.toInt = cmod (s16 ((s.wordAt 0 (256 * d + i)).toInt + (s.wordAt 1 (256 * a + i)).toInt))

/-- R162: ADDADDR leaves cmod of the 16-bit sum of three words; an intermediate overflow that the third term brings back is
harmless. -/
def Obligations.AddaddrAddsThreeAndReduces : Prop :=
  ∀ (s : State) (d a b : Nat), d < s.cfg.nslot → a < s.cfg.nslot → b < s.cfg.nslot →
    ∃ t, exec (.addaddr d a b) s = .next t ∧ s.SameBut t [d] ∧ s.Answered t 0 ∧
      ∀ i < 256, ∃ v, t.cm.read (256 * d + i) = some v ∧
        v.toInt = cmod (s16 ((s.wordAt 0 (256 * d + i)).toInt + (s.wordAt 1 (256 * a + i)).toInt
          + (s.wordAt 2 (256 * b + i)).toInt))

/-- R163: SUBR leaves cmod of the 16-bit difference; on one written slot it zeroes the slot. -/
def Obligations.SubrSubtractsAndReduces : Prop :=
  ∀ (s : State) (d a : Nat), d < s.cfg.nslot → a < s.cfg.nslot →
    ∃ t, exec (.subr d a) s = .next t ∧ s.SameBut t [d] ∧ s.Answered t 0 ∧
      (∀ i < 256, ∃ v, t.cm.read (256 * d + i) = some v ∧
        v.toInt = cmod (s16 ((s.wordAt 0 (256 * d + i)).toInt - (s.wordAt 1 (256 * a + i)).toInt))) ∧
      (d = a → s.Written d → ∀ i < 256, t.cm.read (256 * d + i) = some 0)

/-- R165: where the exact sum or difference is an int16 the result is cmod of it; the result is always in -1664..1664. -/
def Obligations.SumsWithinRangeAreExact : Prop :=
  ∀ c a b : Word,
    (-32768 ≤ c.toInt + a.toInt → c.toInt + a.toInt ≤ 32767 → (barrett (add16 c a)).toInt = cmod (c.toInt + a.toInt)) ∧
    (-32768 ≤ c.toInt - a.toInt → c.toInt - a.toInt ≤ 32767 → (barrett (sub16 c a)).toInt = cmod (c.toInt - a.toInt)) ∧
    (-32768 ≤ c.toInt + a.toInt + b.toInt → c.toInt + a.toInt + b.toInt ≤ 32767 →
      (barrett (add16 (add16 c a) b)).toInt = cmod (c.toInt + a.toInt + b.toInt)) ∧
    (c.toInt + a.toInt > 32767 → (barrett (add16 c a)).toInt = cmod (c.toInt + a.toInt - 65536)) ∧
    (c.toInt + a.toInt < -32768 → (barrett (add16 c a)).toInt = cmod (c.toInt + a.toInt + 65536))

/-! ### The transforms -/

/-- R140, R142: NTT leaves the seven layers of butterflies of the words of its slot, the word j of each layer by the index
formula. -/
def Obligations.NttTransformsItsSlot : Prop :=
  ∀ (s : State) (d : Nat), d < s.cfg.nslot →
    ∃ t, exec (.ntt d) s = .next t ∧ s.SameBut t [d] ∧ s.Answered t 0 ∧
      ∀ i < 256, t.cm.read (256 * d + i) =
        some ([128, 64, 32, 16, 8, 4, 2].foldl (fun r len => ctLayerAt len r) (fun j => s.wordAt 0 (256 * d + j)) i)

/-- R150, R152, R153: INTT leaves six inverse layers, low outputs reduced, and the last layer with F folded in. The placement of
the reductions is the spec's default of U3 (log 14). -/
def Obligations.InttTransformsItsSlot : Prop :=
  ∀ (s : State) (d : Nat), d < s.cfg.nslot →
    ∃ t, exec (.intt d) s = .next t ∧ s.SameBut t [d] ∧ s.Answered t 0 ∧
      ∀ i < 256, t.cm.read (256 * d + i) =
        some (gsLastAt ([2, 4, 8, 16, 32, 64].foldl (fun r len => gsLayerAt len r) (fun j => s.wordAt 0 (256 * d + j))) i)

/-- R144: after n forward layers the words have grown by at most n·(Q - 1), as long as no addition overflows, which B ≤ 9464
ensures for all seven; from words in (-Q, Q) every output is below 8·Q. The spec marks this as derived from R120. -/
def Obligations.NttWordsGrowByQPerLayer : Prop :=
  (∀ (p : Poly) (B : Int) (n : Nat), p.length = 256 → Within B p → n ≤ 7 → B + n * 3328 ≤ 32767 →
    Within (B + n * 3328) (nttPrefix n p)) ∧
  (∀ (p : Poly) (B : Int), p.length = 256 → Within B p → B ≤ 9464 → Within (B + 7 * 3328) (nttPoly p)) ∧
  ∀ p : Poly, p.length = 256 → Within 3328 p → Within 26624 (nttPoly p)

/-- R155: from words of magnitude at most 16383, after each of the six reduced layers the low outputs are in -1664..1664 and every
word is in (-Q, Q), and so is every output. The placement of the reductions is log 14. -/
def Obligations.InttWordsStayBelowQ : Prop :=
  ∀ p : Poly, p.length = 256 → Within 16383 p →
    (∀ n, 1 ≤ n → n ≤ 6 → Within 3328 (inttPrefix n p) ∧
      ∀ j < 256, j / 2 ^ n % 2 = 0 → -1664 ≤ coeff (inttPrefix n p) j ∧ coeff (inttPrefix n p) j ≤ 1664) ∧
    Within 3328 (inttPoly p)

/-- R141: the contract of NTT: the words are the residues modulo x^2 - γ_p. -/
def Obligations.NttGivesResiduesModuloQuadratics : Prop :=
  ∀ p : Poly, p.length = 256 → Within 9464 p → NttForm p (nttPoly p)

/-- R151: the contract of INTT: the explicit inverse sum times R, in (-Q, Q). -/
def Obligations.InttGivesInverseSumTimesR : Prop :=
  ∀ p : Poly, p.length = 256 → Within 16383 p → InttForm p (inttPoly p) ∧ Within 3328 (inttPoly p)

/-- R151, second form: INTT of an NTT-domain form is the polynomial times R. -/
def Obligations.InttInvertsNttForm : Prop :=
  ∀ a b : Poly, a.length = 256 → b.length = 256 → Within 16383 b → NttForm a b →
    ∀ i < 256, coeff (inttPoly b) i ≡ coeff a i * 65536 [ZMOD 3329]

/-- R145: NTT is linear in the residues, and takes zero to zero exactly. -/
def Obligations.NttIsLinear : Prop :=
  (∀ a b c : Poly, a.length = 256 → b.length = 256 → c.length = 256 → Within 9464 a → Within 9464 b → Within 9464 c →
    (∀ i < 256, coeff c i ≡ coeff a i + coeff b i [ZMOD 3329]) →
    ∀ i < 256, coeff (nttPoly c) i ≡ coeff (nttPoly a) i + coeff (nttPoly b) i [ZMOD 3329]) ∧
  nttPoly (List.replicate 256 0) = List.replicate 256 0

/-- R156: NTT, RED, INTT gives the polynomial times R, in (-Q, Q). -/
def Obligations.RoundTripMultipliesByR : Prop :=
  ∀ a : Poly, a.length = 256 → Within 9464 a →
    (∀ i < 256, coeff (inttPoly (redPoly (nttPoly a))) i ≡ coeff a i * 65536 [ZMOD 3329]) ∧
    Within 3328 (inttPoly (redPoly (nttPoly a)))

/-! ### The datapath is invisible -/

/-- R126, R128, R143: the merged forward schedule gives the words of the scalar rule, on every 256 words. The spec marks the
equality as checked by computation (log 17). -/
def Obligations.MergedForwardScheduleEqualsScalar : Prop := ∀ p : Poly, p.length = 256 → mergedNtt p = nttPoly p

/-- R126, R128, R154: the merged inverse schedule gives the words of the scalar rule, on every 256 words. The spec marks the
equality as checked by computation (logs 14, 17). -/
def Obligations.MergedInverseScheduleEqualsScalar : Prop := ∀ p : Poly, p.length = 256 → mergedIntt p = inttPoly p

/-- R124: the transpose of a tile moves the word at offset 4r + l to offset 4l + r and is its own inverse. -/
def Obligations.TransposeIsAnInvolution : Prop :=
  ∀ t : Tile, trn4 (trn4 t) = t ∧
    ∀ r < 4, ∀ l < 4,
      (ofLanes [(trn4 t).v0, (trn4 t).v1, (trn4 t).v2, (trn4 t).v3]).getD (4 * l + r) 0 =
        (ofLanes [t.v0, t.v1, t.v2, t.v3]).getD (4 * r + l) 0

/-! ### The vector commands -/

/-- R170: VNTT leaves in each element the reduced transform of its words. -/
def Obligations.VnttTransformsEachElement : Prop :=
  ∀ (s : State) (k d : Nat), k = 2 ∨ k = 3 ∨ k = 4 → d + k ≤ s.cfg.nslot →
    ∃ t, exec (.vntt k d) s = .next t ∧ s.SameBut t (slotRun d k) ∧ s.Answered t 0 ∧
      ∀ e < k, ∀ i < 256, t.cm.read (256 * (d + e) + i) =
        some (barrett ([128, 64, 32, 16, 8, 4, 2].foldl (fun r len => ctLayerAt len r)
          (fun j => s.wordAt (2 * e) (256 * (d + e) + j)) i))

/-- R171: VINTT leaves in each element the inverse transform of its words. -/
def Obligations.VinttTransformsEachElement : Prop :=
  ∀ (s : State) (k d : Nat), k = 2 ∨ k = 3 ∨ k = 4 → d + k ≤ s.cfg.nslot →
    ∃ t, exec (.vintt k d) s = .next t ∧ s.SameBut t (slotRun d k) ∧ s.Answered t 0 ∧
      ∀ e < k, ∀ i < 256, t.cm.read (256 * (d + e) + i) =
        some (gsLastAt ([2, 4, 8, 16, 32, 64].foldl (fun r len => gsLayerAt len r)
          (fun j => s.wordAt e (256 * (d + e) + j))) i)

/-- R172: VADDR leaves in each element cmod of the 16-bit sums, for identical ranges and for disjoint ones. -/
def Obligations.VaddrAddsEachElement : Prop :=
  ∀ (s : State) (k d a : Nat), k = 2 ∨ k = 3 ∨ k = 4 → d + k ≤ s.cfg.nslot → a + k ≤ s.cfg.nslot →
    (d = a ∨ d + k ≤ a ∨ a + k ≤ d) →
    ∃ t, exec (.vaddr k d a) s = .next t ∧ s.SameBut t (slotRun d k) ∧ s.Answered t 0 ∧
      ∀ e < k, ∀ i < 256, ∃ v, t.cm.read (256 * (d + e) + i) = some v ∧
        v.toInt = cmod (s16 ((s.wordAt (2 * e) (256 * (d + e) + i)).toInt + (s.wordAt (2 * e + 1) (256 * (a + e) + i)).toInt))

/-- R174, R175: VACC leaves in slot d, whose old words it does not read, the two finished sums of every pair. -/
def Obligations.VaccWritesTheInnerProduct : Prop :=
  ∀ (s : State) (k d a b : Nat) (tm : Bool), k = 2 ∨ k = 3 ∨ k = 4 → d < s.cfg.nslot → a + k ≤ s.cfg.nslot →
    b + k ≤ s.cfg.nslot → ¬(a ≤ d ∧ d < a + k) → ¬(b ≤ d ∧ d < b + k) →
    ∃ t, exec (.vacc k tm d a b) s = .next t ∧ s.SameBut t [d] ∧ s.Answered t 0 ∧
      ∀ p < 128,
        let sums := innerSumsAt k (fun e i => s.wordAt (2 * e) (256 * (a + e) + i))
          (fun e i => s.wordAt (2 * e + 1) (256 * (b + e) + i)) p
        let finish : Word → Word := fun v => if tm then fqmul (barrett v) (toWord 1353) else barrett v
        t.cm.read (256 * d + 2 * p) = some (finish sums.1) ∧ t.cm.read (256 * d + (2 * p + 1)) = some (finish sums.2)

/-- R176, R177: within the bounds of R177 the words of VACC are the inner product modulo x^2 - γ_p, times R^-1 without toMont, and
within its output bounds. -/
def Obligations.VaccGivesInnerProductModuloQuadratics : Prop :=
  ∀ (ops : List (Poly × Poly)) (tm : Bool) (B : Int), (ops.length, B) ∈ [(2, 20682), (3, 15774), (4, (12622 : Int))] →
    (∀ ab ∈ ops, ab.1.length = 256 ∧ ab.2.length = 256 ∧ Within B ab.1 ∧ Within B ab.2) →
    (∀ p < 128,
      coeff (vaccPoly ops tm) (2 * p) * (if tm then 1 else 65536) ≡ innerLow ops p [ZMOD 3329] ∧
      coeff (vaccPoly ops tm) (2 * p + 1) * (if tm then 1 else 65536) ≡ innerHigh ops p [ZMOD 3329]) ∧
    Within (if tm then 3328 else 1664) (vaccPoly ops tm)

/-- R176, last part: transforming and reducing both vectors, accumulating and transforming back gives the product of the vectors
modulo x^256 + 1 and Q without toMont and that product times R with it, for K = 2, 3, 4 and words in (-Q, Q). -/
def Obligations.PipelineGivesNegacyclicInnerProduct : Prop :=
  ∀ (ops : List (Poly × Poly)) (tm : Bool), ops.length ∈ [2, 3, 4] →
    (∀ ab ∈ ops, ab.1.length = 256 ∧ ab.2.length = 256 ∧ Within 3328 ab.1 ∧ Within 3328 ab.2) →
    ∀ i < 256,
      coeff (inttPoly (vaccPoly (ops.map fun ab => (redPoly (nttPoly ab.1), redPoly (nttPoly ab.2))) tm)) i ≡
        (ops.map fun ab => negacyclic ab.1 ab.2 i).sum * (if tm then 65536 else 1) [ZMOD 3329]

/-! ### Footprints, several engines, ghosts -/

/-- R63, R197: whatever a command is, it changes only the slots R63 says it writes, and a refused one changes none; it answers one
response. -/
def Obligations.CommandsWriteOnlyTheirFootprint : Prop :=
  ∀ (i : Instr) (s t : State), exec i s = .next t →
    s.SameBut t (if admission s.cfg.nslot i = .ok then (footprint i).writes else []) ∧ ∃ rsp, s.Answered t rsp

/-- R63, R218: what a command writes and answers depends on the slots R63 says it reads only. Two states that agree there, and in
the parameters and the read counter, give the same words and the same response. -/
def Obligations.CommandsReadOnlyTheirFootprint : Prop :=
  ∀ (i : Instr) (s s' : State), s.cfg = s'.cfg → s.tick = s'.tick → s.out = s'.out →
    (∀ n ∈ (footprint i).reads, ∀ x < 256, s.cm.read (256 * n + x) = s'.cm.read (256 * n + x)) →
    ∃ t t', exec i s = .next t ∧ exec i s' = .next t' ∧ t.out = t'.out ∧ t.tick = t'.tick ∧
      (admission s.cfg.nslot i = .ok →
        ∀ n ∈ (footprint i).writes, ∀ x < 256, t.cm.read (256 * n + x) = t'.cm.read (256 * n + x))

/-- R59: two commands with disjoint footprints, on slots the host has written, give the same memory in either order, and each the
same response. The spec marks this as derived from R54 (log 9). -/
def Obligations.DisjointCommandsCommute : Prop :=
  ∀ (w w' : Command) (s : State), s.Inv →
    collide (wordFootprint s.cfg.nslot w) (wordFootprint s.cfg.nslot w') = false →
    (∀ n ∈ (wordFootprint s.cfg.nslot w).reads ++ (wordFootprint s.cfg.nslot w').reads, s.Written n) →
    ∃ t u r r', andThen (runCommand w s) (runCommand w') = .next t ∧ andThen (runCommand w' s) (runCommand w) = .next u ∧
      t.cm = u.cm ∧ (∀ n, t.ghostOf n = u.ghostOf n) ∧ t.out = s.out ++ [.response r, .response r'] ∧
      u.out = s.out ++ [.response r', .response r]

/-- R59: simultaneous commands run as one after the other if their footprints are disjoint, and are not admitted otherwise; nor is
a host access to a slot a running command reads or writes. Refusing by name is the model's choice (log 9). -/
def Obligations.SimultaneousCommandsNeedDisjointFootprints : Prop :=
  ∀ (s : State) (e e' : Nat) (w w' : Command) (x : HostAccess), e < s.cfg.neng → e' < s.cfg.neng → e ≠ e' →
    (collide (wordFootprint s.cfg.nslot w) (wordFootprint s.cfg.nslot w') = false →
      handle (.together [(e, w), (e', w')] []) s = andThen (runCommand w s) (runCommand w')) ∧
    (collide (wordFootprint s.cfg.nslot w) (wordFootprint s.cfg.nslot w') = true →
      handle (.together [(e, w), (e', w')] []) s = .refused .footprintCollision) ∧
    (x.addr / 256 ∈ (wordFootprint s.cfg.nslot w).reads ++ (wordFootprint s.cfg.nslot w).writes →
      handle (.together [(e, w)] [x]) s = .refused .footprintCollision)

/-- R28 ("A model ... must not make any step depend on them"): the words, the responses and the reads of a command do not depend
on the ghost attributes. -/
def Obligations.GhostsDecideNothing : Prop :=
  ∀ (i : Instr) (s : State) (g : List (Nat × Ghost)), ∃ t u, exec i s = .next t ∧ exec i { s with ghost := g } = .next u ∧
    t.cm = u.cm ∧ t.out = u.out ∧ t.tick = u.tick ∧ t.port = u.port

/-- R28, R29: tags and scales after each of the ten slot commands, for operands of the tags and scales the tables require; those of
a vector command element by element. R36: a mark gives a tag and a scale to a slot the host has written and nothing to another. That
the attributes stand in the state, and the mark itself, are the model's choice (log 7). -/
def Obligations.TagsAndScalesFollowTheTables : Prop :=
  ∀ (s : State) (k d a b : Nat) (tm : Bool) (x : OrderTag) (ea eb : Int),
    (∀ t, d < s.cfg.nslot → exec (.ntt d) s = .next t → (s.ghostOf d).tag = some .std →
      (t.ghostOf d).tag = some .brev ∧ (t.ghostOf d).scale = (s.ghostOf d).scale) ∧
    (∀ t, d < s.cfg.nslot → exec (.intt d) s = .next t → (s.ghostOf d).tag = some .brev → (s.ghostOf d).scale = some ea →
      (t.ghostOf d).tag = some .std ∧ (t.ghostOf d).scale = some (ea + 1)) ∧
    (∀ t, d < s.cfg.nslot → exec (.red d) s = .next t →
      (t.ghostOf d).tag = (s.ghostOf d).tag ∧ (t.ghostOf d).scale = (s.ghostOf d).scale) ∧
    (∀ t i, i ∈ [Instr.addr d a, Instr.subr d a] → d < s.cfg.nslot → a < s.cfg.nslot → exec i s = .next t →
      (∀ n ∈ [d, a], (s.ghostOf n).tag = some x ∧ (s.ghostOf n).scale = some ea) →
      (t.ghostOf d).tag = some x ∧ (t.ghostOf d).scale = some ea) ∧
    (∀ t, d < s.cfg.nslot → a < s.cfg.nslot → b < s.cfg.nslot → exec (.addaddr d a b) s = .next t →
      (∀ n ∈ [d, a, b], (s.ghostOf n).tag = some x ∧ (s.ghostOf n).scale = some ea) →
      (t.ghostOf d).tag = some x ∧ (t.ghostOf d).scale = some ea) ∧
    (∀ t, admission s.cfg.nslot (.vntt k d) = .ok → exec (.vntt k d) s = .next t →
      ∀ e < k, (s.ghostOf (d + e)).tag = some .std →
        (t.ghostOf (d + e)).tag = some .brev ∧ (t.ghostOf (d + e)).scale = (s.ghostOf (d + e)).scale) ∧
    (∀ t, admission s.cfg.nslot (.vintt k d) = .ok → exec (.vintt k d) s = .next t →
      ∀ e < k, (s.ghostOf (d + e)).tag = some .brev → (s.ghostOf (d + e)).scale = some ea →
        (t.ghostOf (d + e)).tag = some .std ∧ (t.ghostOf (d + e)).scale = some (ea + 1)) ∧
    (∀ t, admission s.cfg.nslot (.vaddr k d a) = .ok → exec (.vaddr k d a) s = .next t →
      ∀ e < k, (∀ n ∈ [d + e, a + e], (s.ghostOf n).tag = some x ∧ (s.ghostOf n).scale = some ea) →
        (t.ghostOf (d + e)).tag = some x ∧ (t.ghostOf (d + e)).scale = some ea) ∧
    (∀ t, admission s.cfg.nslot (.vacc k tm d a b) = .ok → exec (.vacc k tm d a b) s = .next t →
      (∀ e < k, (s.ghostOf (a + e)).tag = some .brev ∧ (s.ghostOf (a + e)).scale = some ea ∧
        (s.ghostOf (b + e)).tag = some .brev ∧ (s.ghostOf (b + e)).scale = some eb) →
      (t.ghostOf d).tag = some .brev ∧ (t.ghostOf d).scale = some (if tm then ea + eb else ea + eb - 1)) ∧
    (d < s.cfg.nslot →
      (storeGet s.hostWrote d = none ∨ ¬s.Written d → handle (.mark d (some x) (some ea)) s = .next s) ∧
      (storeGet s.hostWrote d = some () → s.Written d →
        ∃ t, handle (.mark d (some x) (some ea)) s = .next t ∧ (t.ghostOf d).tag = some x ∧ (t.ghostOf d).scale = some ea ∧
          (t.ghostOf d).bound.isSome = true ∧ (∀ n, n ≠ d → t.ghostOf n = s.ghostOf n) ∧ t.cm = s.cm ∧ t.out = s.out))

/-- R213: the magnitude bound recorded after each of the ten slot commands, for operands whose recorded bounds are within what the
table needs; those of a vector command element by element. That bounds are recorded in the state is the model's choice (log 7). -/
def Obligations.RecordedBoundsFollowTheTable : Prop :=
  ∀ (s : State) (k d a b : Nat) (tm : Bool) (x y z need : Nat),
    (∀ t, d < s.cfg.nslot → exec (.ntt d) s = .next t → (s.ghostOf d).bound = some x → x ≤ 9464 →
      (t.ghostOf d).bound = some (x + 7 * 3328)) ∧
    (∀ t, d < s.cfg.nslot → exec (.intt d) s = .next t → (s.ghostOf d).bound = some x → x ≤ 16383 →
      (t.ghostOf d).bound = some 3328) ∧
    (∀ t, d < s.cfg.nslot → exec (.red d) s = .next t → (t.ghostOf d).bound = some 1664) ∧
    (∀ t i, i ∈ [Instr.addr d a, Instr.subr d a] → d < s.cfg.nslot → a < s.cfg.nslot → exec i s = .next t →
      (s.ghostOf d).bound = some x → (s.ghostOf a).bound = some y → x + y ≤ 32767 → (t.ghostOf d).bound = some 1664) ∧
    (∀ t, d < s.cfg.nslot → a < s.cfg.nslot → b < s.cfg.nslot → exec (.addaddr d a b) s = .next t →
      (s.ghostOf d).bound = some x → (s.ghostOf a).bound = some y → (s.ghostOf b).bound = some z → x + y + z ≤ 32767 →
      (t.ghostOf d).bound = some 1664) ∧
    (∀ t, admission s.cfg.nslot (.vntt k d) = .ok → exec (.vntt k d) s = .next t →
      ∀ e < k, (t.ghostOf (d + e)).bound = some 1664) ∧
    (∀ t, admission s.cfg.nslot (.vintt k d) = .ok → exec (.vintt k d) s = .next t →
      ∀ e < k, (s.ghostOf (d + e)).bound = some x → x ≤ 16383 → (t.ghostOf (d + e)).bound = some 3328) ∧
    (∀ t, admission s.cfg.nslot (.vaddr k d a) = .ok → exec (.vaddr k d a) s = .next t →
      ∀ e < k, (s.ghostOf (d + e)).bound = some x → (s.ghostOf (a + e)).bound = some y → x + y ≤ 32767 →
        (t.ghostOf (d + e)).bound = some 1664) ∧
    (∀ t, (k, need) ∈ [(2, 20682), (3, 15774), (4, 12622)] → admission s.cfg.nslot (.vacc k tm d a b) = .ok →
      exec (.vacc k tm d a b) s = .next t →
      (∀ e < k, ∀ n ∈ [a + e, b + e], ∃ m, (s.ghostOf n).bound = some m ∧ m ≤ need) →
      (t.ghostOf d).bound = some (if tm then 3328 else 1664))
end

