-- ==== Sys2Proof/Laws/Arith.lean ====
section
/-! SUPPORT. Laws of the integer units: narrowing, the signs and sizes of the parts of a Montgomery product. -/

namespace Sys2Proof.Machine

/-- Narrowing is s16 (00_scope R6, R7). -/
@[simp] theorem toInt_toWord (x : Int) : (toWord x).toInt = s16 x := by simp [toWord, s16, BitVec.toInt_ofInt]

/-- s16 and cmod by remainders alone. -/
theorem s16_eq (x : Int) : s16 x = (x + 32768) % 65536 - 32768 := by
  unfold s16 Int.bmod; norm_num; split_ifs <;> omega

theorem cmod_eq (x : Int) : cmod x = (x + 1664) % 3329 - 1664 := by
  unfold cmod Int.bmod; norm_num; split_ifs <;> omega

/-- s16 changes no int16. -/
theorem s16_of_range {x : Int} (h : -32768 ≤ x) (h' : x ≤ 32767) : s16 x = x := by rw [s16_eq]; omega

/-- s16 gives an int16. -/
theorem s16_range (x : Int) : -32768 ≤ s16 x ∧ s16 x ≤ 32767 := by rw [s16_eq]; omega

/-- s16 keeps the residue modulo 2^16. -/
theorem s16_congr (x : Int) : s16 x ≡ x [ZMOD 65536] := by rw [s16_eq]; unfold Int.ModEq; omega

/-- A word's value is an int16. -/
theorem word_range (w : Word) : -32768 ≤ w.toInt ∧ w.toInt ≤ 32767 := by
  have h1 := @BitVec.le_toInt 16 w
  have h2 := @BitVec.toInt_lt 16 w
  norm_num at h1 h2
  omega

@[simp] theorem toInt_zero : (0 : Word).toInt = 0 := by decide

/-- cmod gives the centred range and keeps the residue modulo Q. -/
theorem cmod_range (x : Int) : -1664 ≤ cmod x ∧ cmod x ≤ 1664 := by rw [cmod_eq]; omega

theorem cmod_congr (x : Int) : cmod x ≡ x [ZMOD 3329] := by rw [cmod_eq]; unfold Int.ModEq; omega

/-- The only centred representative of a residue is cmod. -/
theorem eq_cmod {x y : Int} (h : y ≡ x [ZMOD 3329]) (hl : -1664 ≤ y) (hu : y ≤ 1664) : y = cmod x := by
  rw [cmod_eq]; unfold Int.ModEq at h; omega

theorem add16_toInt (a b : Word) : (add16 a b).toInt = s16 (a.toInt + b.toInt) := by simp [add16]

theorem sub16_toInt (a b : Word) : (sub16 a b).toInt = s16 (a.toInt - b.toInt) := by simp [sub16]

/-- An exact sum that is an int16 is the sum of the adder. -/
theorem add16_exact {a b : Word} (h : -32768 ≤ a.toInt + b.toInt) (h' : a.toInt + b.toInt ≤ 32767) :
    (add16 a b).toInt = a.toInt + b.toInt := by rw [add16_toInt, s16_of_range h h']

theorem sub16_exact {a b : Word} (h : -32768 ≤ a.toInt - b.toInt) (h' : a.toInt - b.toInt ≤ 32767) :
    (sub16 a b).toInt = a.toInt - b.toInt := by rw [sub16_toInt, s16_of_range h h']

/-- The Montgomery step: what `fqmul` computes, times 2^16, is the product less the multiple of Q that clears its low half
(40_modarith R101). -/
theorem fqmulInt_mul (a b : Int) :
    fqmulInt a b * 65536 = a * b - s16 (lo16 (a * b) * 62209) * 3329 := by
  unfold fqmulInt hi16 asr lo16 Config.QINV Config.Q
  generalize a * b = p
  simp only [s16_eq]
  norm_num
  omega

/-- The high half of the cleared multiple is less than half of Q in magnitude, so `fqmul` is a 16-bit value near a·b/2^16. -/
theorem fqmulInt_bounds (a b : Int) :
    a * b - 109084672 ≤ fqmulInt a b * 65536 ∧ fqmulInt a b * 65536 ≤ a * b + 109084672 := by
  have h := fqmulInt_mul a b
  have h2 := s16_range (lo16 (a * b) * 62209)
  generalize s16 (lo16 (a * b) * 62209) = t at h h2
  generalize a * b = p at h ⊢
  omega

/-- The quotient estimate of `barrett` is off by less than one half (40_modarith R104). -/
theorem barrettInt_eq (a : Int) : barrettInt a = a - (20159 * a + 33554432) / 67108864 * 3329 := by
  unfold barrettInt asr Config.BV Config.BSHIFT Config.Q; norm_num

end Sys2Proof.Machine
end

