-- ==== Sys2Proof/Laws/Encode.lean ====
section
/-! SUPPORT. Laws of the two command formats: the field a decoder reads from an encoded word is the field that was put there. -/

namespace Sys2Proof

theorem ofByte_byte (o : Opcode) : Opcode.ofByte o.byte = some o := by cases o <;> decide

/-- A row is found only by its own byte. -/
theorem byte_of_ofByte {n : Nat} {o : Opcode} (h : Opcode.ofByte n = some o) : o.byte = n := by
  have := List.find?_some h
  simpa using this

variable (op : Opcode) (k rd ra rb : Nat) (tm : Bool) (a b : Word)

@[simp] theorem fieldOP_formatP : fieldOP (formatP op k tm rd ra rb) = op.byte := by
  unfold fieldOP formatP
  rw [BitVec.extractLsb'_append_eq_right]
  cases op <;> simp [Opcode.byte]

@[simp] theorem fieldK_formatP : fieldK (formatP op k tm rd ra rb) = k % 8 := by
  unfold fieldK formatP
  rw [BitVec.extractLsb'_append_eq_of_le (by decide), BitVec.extractLsb'_append_eq_right]
  simp

@[simp] theorem fieldTM_formatP : fieldTM (formatP op k tm rd ra rb) = tm := by
  unfold fieldTM formatP
  iterate 2 rw [BitVec.extractLsb'_append_eq_of_le (by decide)]
  rw [BitVec.extractLsb'_append_eq_right]
  cases tm <;> decide

@[simp] theorem fieldRD_formatP : fieldRD (formatP op k tm rd ra rb) = rd % 256 := by
  unfold fieldRD formatP
  iterate 4 rw [BitVec.extractLsb'_append_eq_of_le (by decide)]
  rw [BitVec.extractLsb'_append_eq_right]
  simp

@[simp] theorem fieldRA_formatP : fieldRA (formatP op k tm rd ra rb) = ra % 256 := by
  unfold fieldRA formatP
  iterate 5 rw [BitVec.extractLsb'_append_eq_of_le (by decide)]
  rw [BitVec.extractLsb'_append_eq_right]
  simp

@[simp] theorem fieldRB_formatP : fieldRB (formatP op k tm rd ra rb) = rb % 256 := by
  unfold fieldRB formatP
  iterate 6 rw [BitVec.extractLsb'_append_eq_of_le (by decide)]
  rw [BitVec.extractLsb'_append_eq_right]
  simp

@[simp] theorem fieldOP_formatS : fieldOP (formatS op a b) = op.byte := by
  unfold fieldOP formatS
  rw [BitVec.extractLsb'_append_eq_right]
  cases op <;> simp [Opcode.byte]

@[simp] theorem fieldA_formatS : fieldA (formatS op a b) = a := by
  unfold fieldA formatS
  iterate 2 rw [BitVec.extractLsb'_append_eq_of_le (by decide)]
  rw [BitVec.extractLsb'_append_eq_right]

@[simp] theorem fieldB_formatS : fieldB (formatS op a b) = b := by
  unfold fieldB formatS
  iterate 3 rw [BitVec.extractLsb'_append_eq_of_le (by decide)]
  rw [BitVec.extractLsb'_append_eq_right]

end Sys2Proof
end

