-- ==== Sys2Proof/Laws/State.lean ====
section
/-! SUPPORT. The small lemmas of the state: each field after each update, true by `rfl`. -/

namespace Sys2Proof.Machine

variable (s : State)

@[simp] theorem setSlot_cfg (n : Nat) (p : Poly) : (s.setSlot n p).cfg = s.cfg := rfl
@[simp] theorem setSlot_cm (n : Nat) (p : Poly) : (s.setSlot n p).cm = s.cm.writeRun (wordAddr n 0) p := rfl
@[simp] theorem setSlot_tick (n : Nat) (p : Poly) : (s.setSlot n p).tick = s.tick := rfl
@[simp] theorem setSlot_ghost (n : Nat) (p : Poly) : (s.setSlot n p).ghost = s.ghost := rfl
@[simp] theorem setSlot_hostWrote (n : Nat) (p : Poly) : (s.setSlot n p).hostWrote = s.hostWrote := rfl
@[simp] theorem setSlot_port (n : Nat) (p : Poly) : (s.setSlot n p).port = s.port := rfl
@[simp] theorem setSlot_out (n : Nat) (p : Poly) : (s.setSlot n p).out = s.out := rfl

@[simp] theorem setGhost_cfg (n : Nat) (g : Ghost) : (s.setGhost n g).cfg = s.cfg := rfl
@[simp] theorem setGhost_cm (n : Nat) (g : Ghost) : (s.setGhost n g).cm = s.cm := rfl
@[simp] theorem setGhost_tick (n : Nat) (g : Ghost) : (s.setGhost n g).tick = s.tick := rfl
@[simp] theorem setGhost_hostWrote (n : Nat) (g : Ghost) : (s.setGhost n g).hostWrote = s.hostWrote := rfl
@[simp] theorem setGhost_port (n : Nat) (g : Ghost) : (s.setGhost n g).port = s.port := rfl
@[simp] theorem setGhost_out (n : Nat) (g : Ghost) : (s.setGhost n g).out = s.out := rfl

@[simp] theorem advance_cfg (n : Nat) : (s.advance n).cfg = s.cfg := rfl
@[simp] theorem advance_cm (n : Nat) : (s.advance n).cm = s.cm := rfl
@[simp] theorem advance_tick (n : Nat) : (s.advance n).tick = s.tick + n := rfl
@[simp] theorem advance_ghost (n : Nat) : (s.advance n).ghost = s.ghost := rfl
@[simp] theorem advance_hostWrote (n : Nat) : (s.advance n).hostWrote = s.hostWrote := rfl
@[simp] theorem advance_port (n : Nat) : (s.advance n).port = s.port := rfl
@[simp] theorem advance_out (n : Nat) : (s.advance n).out = s.out := rfl

@[simp] theorem respond_cfg (st : Status) (v : Word) : (s.respond st v).cfg = s.cfg := rfl
@[simp] theorem respond_cm (st : Status) (v : Word) : (s.respond st v).cm = s.cm := rfl
@[simp] theorem respond_tick (st : Status) (v : Word) : (s.respond st v).tick = s.tick := rfl
@[simp] theorem respond_ghost (st : Status) (v : Word) : (s.respond st v).ghost = s.ghost := rfl
@[simp] theorem respond_hostWrote (st : Status) (v : Word) : (s.respond st v).hostWrote = s.hostWrote := rfl
@[simp] theorem respond_port (st : Status) (v : Word) : (s.respond st v).port = s.port := rfl
@[simp] theorem respond_out (st : Status) (v : Word) :
    (s.respond st v).out = s.out ++ [.response (responseWord st v)] := rfl

@[simp] theorem refuse_cfg (st : Status) : (s.refuse st).cfg = s.cfg := rfl
@[simp] theorem refuse_cm (st : Status) : (s.refuse st).cm = s.cm := rfl
@[simp] theorem refuse_tick (st : Status) : (s.refuse st).tick = s.tick := rfl
@[simp] theorem refuse_ghost (st : Status) : (s.refuse st).ghost = s.ghost := rfl
@[simp] theorem refuse_hostWrote (st : Status) : (s.refuse st).hostWrote = s.hostWrote := rfl
@[simp] theorem refuse_port (st : Status) : (s.refuse st).port = s.port := rfl
@[simp] theorem refuse_out (st : Status) : (s.refuse st).out = s.out ++ [.response (responseWord st 0)] := rfl

@[simp] theorem hostRead_cfg (a : Nat) : (hostRead a s).cfg = s.cfg := rfl
@[simp] theorem hostRead_cm (a : Nat) : (hostRead a s).cm = s.cm := rfl
@[simp] theorem hostRead_tick (a : Nat) : (hostRead a s).tick = s.tick + 1 := rfl
@[simp] theorem hostRead_ghost (a : Nat) : (hostRead a s).ghost = s.ghost := rfl
@[simp] theorem hostRead_hostWrote (a : Nat) : (hostRead a s).hostWrote = s.hostWrote := rfl
@[simp] theorem hostRead_port (a : Nat) : (hostRead a s).port = s.port := rfl
@[simp] theorem hostRead_out (a : Nat) : (hostRead a s).out = s.out ++ [.data (s.wordAt 0 a)] := rfl

@[simp] theorem hostWrite_cfg (a : Nat) (v : Word) : (hostWrite a v s).cfg = s.cfg := rfl
@[simp] theorem hostWrite_cm (a : Nat) (v : Word) : (hostWrite a v s).cm = s.cm.write a v := rfl
@[simp] theorem hostWrite_tick (a : Nat) (v : Word) : (hostWrite a v s).tick = s.tick := rfl
@[simp] theorem hostWrite_ghost (a : Nat) (v : Word) : (hostWrite a v s).ghost = storeDel s.ghost (a / 256) := rfl
@[simp] theorem hostWrite_hostWrote (a : Nat) (v : Word) : (hostWrite a v s).hostWrote = storePut s.hostWrote (a / 256) () := rfl
@[simp] theorem hostWrite_port (a : Nat) (v : Word) : (hostWrite a v s).port = s.port := rfl
@[simp] theorem hostWrite_out (a : Nat) (v : Word) : (hostWrite a v s).out = s.out := rfl

@[simp] theorem resetPulse_cfg : (resetPulse s).cfg = s.cfg := rfl
@[simp] theorem resetPulse_cm : (resetPulse s).cm = [] := rfl
@[simp] theorem resetPulse_tick : (resetPulse s).tick = s.tick := rfl
@[simp] theorem resetPulse_ghost : (resetPulse s).ghost = [] := rfl
@[simp] theorem resetPulse_hostWrote : (resetPulse s).hostWrote = [] := rfl
@[simp] theorem resetPulse_port : (resetPulse s).port = s.port := rfl
@[simp] theorem resetPulse_out : (resetPulse s).out = s.out := rfl

end Sys2Proof.Machine
end

