-- ==== Sys2Proof/Laws/Memory.lean ====
section
/-! SUPPORT. Laws of sorted storage and of the coefficient memory: read after write, everything else unchanged, and that every
operation keeps the canonical form. -/

namespace Sys2Proof.Machine

section Storage

variable {α : Type}

@[simp] theorem storeGet_nil (a : Nat) : storeGet ([] : List (Nat × α)) a = none := rfl

theorem storeGet_storePut (m : List (Nat × α)) (a b : Nat) (v : α) :
    storeGet (storePut m a v) b = if b = a then some v else storeGet m b := by
  induction m with
  | nil => simp [storePut, storeGet, eq_comm]
  | cons c m ih =>
    obtain ⟨k, w⟩ := c
    rcases Nat.lt_trichotomy k a with h | h | h
    · simp only [storePut, h, if_true, storeGet, ih]
      split_ifs <;> first | rfl | omega
    · subst h
      simp only [storePut, Nat.lt_irrefl, if_true, if_false, storeGet]
      split_ifs <;> first | rfl | omega
    · have h1 : ¬ k < a := by omega
      have h2 : k ≠ a := by omega
      simp only [storePut, h1, h2, if_false, storeGet]
      split_ifs <;> first | rfl | omega

@[simp] theorem storeGet_storePut_same (m : List (Nat × α)) (a : Nat) (v : α) : storeGet (storePut m a v) a = some v := by
  simp [storeGet_storePut]

theorem storeGet_storePut_other (m : List (Nat × α)) {a b : Nat} (v : α) (h : b ≠ a) :
    storeGet (storePut m a v) b = storeGet m b := by simp [storeGet_storePut, h]

theorem storeGet_storeDel (m : List (Nat × α)) (a b : Nat) :
    storeGet (storeDel m a) b = if b = a then none else storeGet m b := by
  induction m with
  | nil => simp [storeDel]
  | cons c m ih =>
    obtain ⟨k, w⟩ := c
    unfold storeDel at ih ⊢
    by_cases hk : k = a
    · subst hk
      simp only [List.filter_cons, bne_self_eq_false, Bool.false_eq_true, if_false, ih, storeGet]
      split_ifs <;> first | rfl | omega
    · simp only [List.filter_cons, bne_iff_ne, ne_eq, hk, not_false_eq_true, if_true, storeGet, ih]
      split_ifs <;> first | rfl | omega

/-- What is stored is what was there, or the new pair. -/
theorem mem_storePut {m : List (Nat × α)} {a : Nat} {v : α} {c : Nat × α} (h : c ∈ storePut m a v) : c ∈ m ∨ c = (a, v) := by
  induction m with
  | nil => right; simpa [storePut] using h
  | cons d m ih =>
    obtain ⟨k, w⟩ := d
    simp only [storePut] at h
    split_ifs at h
    · rcases List.mem_cons.1 h with h | h
      · simp [h]
      · rcases ih h with h | h <;> simp [h]
    · rcases List.mem_cons.1 h with h | h <;> simp [h]
    · rcases List.mem_cons.1 h with h | h
      · simp [h]
      · left; exact h

/-- Storing keeps the keys rising. -/
theorem storePut_rising {m : List (Nat × α)} (h : Rising m) (a : Nat) (v : α) : Rising (storePut m a v) := by
  induction m with
  | nil => simp [storePut]
  | cons d m ih =>
    obtain ⟨k, w⟩ := d
    obtain ⟨hk, hm⟩ := List.pairwise_cons.1 h
    simp only [storePut]
    split_ifs with h1 h2
    · refine List.pairwise_cons.2 ⟨fun c hc => ?_, ih hm⟩
      rcases mem_storePut hc with hc | rfl
      · exact hk c hc
      · exact h1
    · subst h2
      exact List.pairwise_cons.2 ⟨fun c hc => hk c hc, hm⟩
    · refine List.pairwise_cons.2 ⟨fun c hc => ?_, h⟩
      rcases List.mem_cons.1 hc with rfl | hc
      · show a < k; omega
      · have := hk c hc; show a < c.1; simp only at this; omega

theorem mem_storeDel {m : List (Nat × α)} {a : Nat} {c : Nat × α} (h : c ∈ storeDel m a) : c ∈ m := (List.mem_filter.1 h).1

/-- Deleting keeps the keys rising. -/
theorem storeDel_rising {m : List (Nat × α)} (h : Rising m) (a : Nat) : Rising (storeDel m a) := h.filter _

/-- In canonical form, equal readings are equal data. -/
theorem eq_of_storeGet_eq {m m' : List (Nat × α)} (h : Rising m) (h' : Rising m') (he : ∀ a, storeGet m a = storeGet m' a) :
    m = m' := by
  have key : ∀ {m : List (Nat × α)} {k : Nat}, (∀ c ∈ m, k < c.1) → storeGet m k = none := by
    intro m k hm
    induction m with
    | nil => rfl
    | cons c m ih =>
      have h1 : c.1 ≠ k := Nat.ne_of_gt (hm c (by simp))
      rw [show storeGet (c :: m) k = storeGet m k by simp [storeGet, h1]]
      exact ih fun d hd => hm d (by simp [hd])
  induction m generalizing m' with
  | nil =>
    cases m' with
    | nil => rfl
    | cons c m' => have := he c.1; simp [storeGet] at this
  | cons c m ih =>
    obtain ⟨hc, hm⟩ := List.pairwise_cons.1 h
    cases m' with
    | nil => have := he c.1; simp [storeGet] at this
    | cons c' m' =>
      obtain ⟨hc', hm'⟩ := List.pairwise_cons.1 h'
      have e1 := he c.1
      have e2 := he c'.1
      have hk : c.1 = c'.1 := by
        rcases Nat.lt_trichotomy c.1 c'.1 with hlt | heq | hgt
        · have h3 : storeGet (c' :: m') c.1 = none :=
            key fun d hd => by
              rcases List.mem_cons.1 hd with rfl | hd
              · exact hlt
              · exact Nat.lt_trans hlt (hc' d hd)
          rw [h3] at e1; simp [storeGet] at e1
        · exact heq
        · have h3 : storeGet (c :: m) c'.1 = none :=
            key fun d hd => by
              rcases List.mem_cons.1 hd with rfl | hd
              · exact hgt
              · exact Nat.lt_trans hgt (hc d hd)
          rw [h3] at e2; simp [storeGet] at e2
      have hv : c = c' := by
        have : c.2 = c'.2 := by simpa [storeGet, hk] using e1
        exact Prod.ext hk this
      subst hv
      congr 1
      refine ih hm hm' fun a => ?_
      by_cases ha : c.1 = a
      · rw [← ha, key hc, key hc']
      · have := he a; simpa [storeGet, ha] using this

end Storage

/-! ### Memory -/

@[simp] theorem read_nil (a : Nat) : Memory.read [] a = none := rfl

theorem read_write (m : Memory) (a b : Nat) (v : Word) : (m.write a v).read b = if b = a then some v else m.read b :=
  storeGet_storePut m a b v

@[simp] theorem read_write_same (m : Memory) (a : Nat) (v : Word) : (m.write a v).read a = some v := storeGet_storePut_same m a v

theorem read_write_other (m : Memory) {a b : Nat} (v : Word) (h : b ≠ a) : (m.write a v).read b = m.read b :=
  storeGet_storePut_other m v h

theorem write_wf {m : Memory} (h : m.wf) (a : Nat) (v : Word) : (m.write a v).wf := storePut_rising h a v

/-- Reading after a run of stores: the run's word inside it, the old memory outside. -/
theorem read_writeRun (ws : List Word) (m : Memory) (a b : Nat) :
    (m.writeRun a ws).read b = if a ≤ b ∧ b < a + ws.length then some (ws.getD (b - a) 0) else m.read b := by
  induction ws generalizing m a with
  | nil => simp [Memory.writeRun]
  | cons w ws ih =>
    rw [Memory.writeRun, ih, read_write]
    by_cases h1 : b = a
    · subst h1
      simp
    · rcases Nat.lt_or_ge b a with h2 | h2
      · have : ¬ (a + 1 ≤ b ∧ b < a + 1 + ws.length) := by omega
        have h3 : ¬ (a ≤ b ∧ b < a + (w :: ws).length) := by omega
        rw [if_neg this, if_neg h3, if_neg h1]
      · have e : b - a = (b - (a + 1)) + 1 := by omega
        simp only [List.length_cons, h1, if_false, e, List.getD_cons_succ]
        split_ifs <;> first | rfl | omega

theorem writeRun_wf {m : Memory} (h : m.wf) (a : Nat) (ws : List Word) : (m.writeRun a ws).wf := by
  induction ws generalizing m a with
  | nil => exact h
  | cons w ws ih => exact ih (write_wf h a w) (a + 1)

/-- A run of stores lists only addresses of the run beside the old ones. -/
theorem mem_writeRun {ws : List Word} {m : Memory} {a : Nat} {c : Nat × Word} (h : c ∈ m.writeRun a ws) :
    c ∈ m ∨ (a ≤ c.1 ∧ c.1 < a + ws.length) := by
  induction ws generalizing m a with
  | nil => left; exact h
  | cons w ws ih =>
    rcases ih h with h | h
    · rcases mem_storePut h with h | rfl
      · left; exact h
      · right; simp
    · right; simp only [List.length_cons]; omega

/-! ### Slots -/

theorem wordAddr_div {n i : Nat} (h : i < 256) : wordAddr n i / 256 = n := by unfold wordAddr; omega

@[simp] theorem slotAt_length (s : State) (j n : Nat) : (s.slotAt j n).length = 256 := by simp [State.slotAt]

theorem slotAt_getD (s : State) (j n : Nat) {i : Nat} (h : i < 256) (x : Word) :
    (s.slotAt j n).getD i x = s.wordAt j (wordAddr n i) := by simp [State.slotAt, List.getD, h]

/-- A word that has been written reads as the word last written, whatever the read counter. -/
theorem wordAt_of_read {s : State} {a : Nat} {v : Word} (h : s.cm.read a = some v) (j : Nat) : s.wordAt j a = v := by
  simp [State.wordAt, h]

/-- `P[n] <- p` writes the slot. -/
theorem read_setSlot_same (s : State) (n : Nat) {p : Poly} (hp : p.length = 256) {i : Nat} (h : i < 256) :
    (s.setSlot n p).cm.read (wordAddr n i) = some (p.getD i 0) := by
  rw [setSlot_cm, read_writeRun]
  have : wordAddr n 0 ≤ wordAddr n i ∧ wordAddr n i < wordAddr n 0 + p.length := by unfold wordAddr; omega
  rw [if_pos this]; congr 2; unfold wordAddr; omega

/-- `P[n] <- p` writes nothing else. -/
theorem read_setSlot_other (s : State) {n a : Nat} {p : Poly} (hp : p.length = 256) (h : a / 256 ≠ n) :
    (s.setSlot n p).cm.read a = s.cm.read a := by
  rw [setSlot_cm, read_writeRun, if_neg]
  unfold wordAddr; omega

/-! ### Ghost attributes -/

theorem ghostOf_setGhost (s : State) (n m : Nat) (g : Ghost) : (s.setGhost n g).ghostOf m = if m = n then g else s.ghostOf m := by
  unfold State.setGhost State.ghostOf
  by_cases hg : g = Ghost.unknown
  · simp only [hg, if_true, storeGet_storeDel]; split_ifs <;> rfl
  · simp only [hg, if_false, storeGet_storePut]; split_ifs <;> rfl

theorem setGhost_rising {s : State} (h : Rising s.ghost) (n : Nat) (g : Ghost) : Rising (s.setGhost n g).ghost := by
  unfold State.setGhost
  by_cases hg : g = Ghost.unknown
  · simp only [hg, if_true]; exact storeDel_rising h n
  · simp only [hg, if_false]; exact storePut_rising h n g

/-- What a ghost record lists is an old entry or the new attributes, which say something. -/
theorem mem_setGhost {s : State} {n : Nat} {g : Ghost} {c : Nat × Ghost} (h : c ∈ (s.setGhost n g).ghost) :
    c ∈ s.ghost ∨ (c = (n, g) ∧ g ≠ Ghost.unknown) := by
  unfold State.setGhost at h
  by_cases hg : g = Ghost.unknown
  · simp only [hg, if_true] at h; left; exact mem_storeDel h
  · simp only [hg, if_false] at h
    rcases mem_storePut h with h | h
    · left; exact h
    · right; exact ⟨h, hg⟩

/-- A slot's bound is known just if each of its words is written, and is a bound of them. -/
theorem slotBound_eq_some {s : State} {n b : Nat} (h : s.slotBound n = some b) :
    ∀ i < 256, ∃ v, s.cm.read (wordAddr n i) = some v ∧ v.toInt.natAbs ≤ b := by
  have key : ∀ (m b : Nat), (List.range m).foldl
      (fun acc i => match acc, s.cm.read (wordAddr n i) with
        | some b, some v => some (max b v.toInt.natAbs)
        | _, _ => none) (some 0) = some b →
      ∀ i < m, ∃ v, s.cm.read (wordAddr n i) = some v ∧ v.toInt.natAbs ≤ b := by
    intro m
    induction m with
    | zero => intro b _ i hi; omega
    | succ m ih =>
      intro b hb i hi
      rw [List.range_succ, List.foldl_append, List.foldl_cons, List.foldl_nil] at hb
      split at hb
      · rename_i c v hc hv
        injection hb with hb
        rcases Nat.lt_succ_iff_lt_or_eq.1 hi with hi | rfl
        · obtain ⟨w, hw, hle⟩ := ih c hc i hi
          exact ⟨w, hw, by omega⟩
        · exact ⟨v, hv, by omega⟩
      · cases hb
  exact key 256 b h

theorem slotBound_isSome {s : State} {n : Nat} (h : ∀ i < 256, (s.cm.read (wordAddr n i)).isSome = true) :
    (s.slotBound n).isSome = true := by
  have key : ∀ m ≤ 256, ((List.range m).foldl
      (fun acc i => match acc, s.cm.read (wordAddr n i) with
        | some b, some v => some (max b v.toInt.natAbs)
        | _, _ => none) (some 0)).isSome = true := by
    intro m
    induction m with
    | zero => intro _; rfl
    | succ m ih =>
      intro hm
      obtain ⟨b, hb⟩ := Option.isSome_iff_exists.1 (ih (by omega))
      obtain ⟨v, hv⟩ := Option.isSome_iff_exists.1 (h m (by omega))
      rw [List.range_succ, List.foldl_append, List.foldl_cons, List.foldl_nil, hb, hv]
      rfl
  exact key 256 (Nat.le_refl _)

/-- A slot the host can mark: it has written a word of it, and every word of it is written. -/
theorem markable_iff (s : State) (n : Nat) :
    s.markable n = true ↔ storeGet s.hostWrote n = some () ∧ ∀ i < 256, (s.cm.read (wordAddr n i)).isSome = true := by
  simp only [State.markable, Bool.and_eq_true]
  refine and_congr (by cases storeGet s.hostWrote n <;> simp) ⟨fun h i hi => ?_, slotBound_isSome⟩
  obtain ⟨b, hb⟩ := Option.isSome_iff_exists.1 h
  obtain ⟨v, hv, _⟩ := slotBound_eq_some hb i hi
  rw [hv]
  rfl

/-- Everything a mark can do. -/
theorem markSlot_eq (n : Nat) (tag : Option OrderTag) (scale : Option Int) (s : State) :
    markSlot n tag scale s =
      if n < s.cfg.nslot then .next (if s.markable n then s.setGhost n ⟨tag, scale, s.slotBound n⟩ else s)
      else .fault (.noSuchAddress (wordAddr n 0)) := rfl

end Sys2Proof.Machine
end

