-- ==== Sys2Proof/Laws/Poly.lean ====
section
/-! SUPPORT. Laws of the functions on the 256 words of a slot: lengths, and the coefficient-wise functions word by word. -/

namespace Sys2Proof.Machine

/-! ### Lengths -/

theorem ctBlocks_length (len : Nat) (zs : List Word) (r : Poly) (h : 2 * len * zs.length ≤ r.length) :
    (ctBlocks len zs r).length = r.length := by
  induction zs generalizing r with
  | nil => rfl
  | cons z zs ih =>
    have h' : 2 * len + 2 * len * zs.length ≤ r.length := by
      simp only [List.length_cons, Nat.mul_add, Nat.mul_one] at h; omega
    generalize hq : 2 * len * zs.length = q at h'
    have := ih (r.drop (2 * len)) (by rw [hq, List.length_drop]; omega)
    simp only [ctBlocks, List.length_append, List.length_zipWith, List.length_take, List.length_drop, this]
    omega

theorem gsBlocks_length (len : Nat) (zs : List Word) (r : Poly) (h : 2 * len * zs.length ≤ r.length) :
    (gsBlocks len zs r).length = r.length := by
  induction zs generalizing r with
  | nil => rfl
  | cons z zs ih =>
    have h' : 2 * len + 2 * len * zs.length ≤ r.length := by
      simp only [List.length_cons, Nat.mul_add, Nat.mul_one] at h; omega
    generalize hq : 2 * len * zs.length = q at h'
    have := ih (r.drop (2 * len)) (by rw [hq, List.length_drop]; omega)
    simp only [gsBlocks, List.length_append, List.length_zipWith, List.length_take, List.length_drop, this]
    omega

@[simp] theorem zetaRun_length (k n : Nat) : (zetaRun k n).length = n := by simp [zetaRun]

@[simp] theorem zetaInvRun_length (k n : Nat) : (zetaInvRun k n).length = n := by simp [zetaInvRun]

theorem nttLayer_length {r : Poly} (h : r.length = 256) (len : Nat) : (nttLayer r len).length = 256 := by
  unfold nttLayer
  rw [ctBlocks_length, h]
  rw [zetaRun_length, h, Nat.mul_assoc]
  have := Nat.mul_div_le 128 len
  omega

theorem inttLayer_length {r : Poly} (h : r.length = 256) (len : Nat) : (inttLayer r len).length = 256 := by
  unfold inttLayer
  rw [gsBlocks_length, h]
  rw [zetaInvRun_length, h, Nat.mul_assoc]
  have := Nat.mul_div_le 128 len
  omega

theorem nttLayers_length (ls : List Nat) {r : Poly} (h : r.length = 256) : (ls.foldl nttLayer r).length = 256 := by
  induction ls generalizing r with
  | nil => exact h
  | cons l ls ih => exact ih (nttLayer_length h l)

theorem inttLayers_length (ls : List Nat) {r : Poly} (h : r.length = 256) : (ls.foldl inttLayer r).length = 256 := by
  induction ls generalizing r with
  | nil => exact h
  | cons l ls ih => exact ih (inttLayer_length h l)

theorem inttLast_length {r : Poly} (h : r.length = 256) : (inttLast r).length = 256 := by simp [inttLast, h]

theorem nttPoly_length {r : Poly} (h : r.length = 256) : (nttPoly r).length = 256 := nttLayers_length _ h

theorem inttPoly_length {r : Poly} (h : r.length = 256) : (inttPoly r).length = 256 :=
  inttLast_length (inttLayers_length _ h)

theorem redPoly_length {c : Poly} (h : c.length = 256) : (redPoly c).length = 256 := by simp [redPoly, h]

theorem addrPoly_length {c a : Poly} (hc : c.length = 256) (ha : a.length = 256) : (addrPoly c a).length = 256 := by
  simp [addrPoly, hc, ha]

theorem addaddrPoly_length {c a b : Poly} (hc : c.length = 256) (ha : a.length = 256) (hb : b.length = 256) :
    (addaddrPoly c a b).length = 256 := by simp [addaddrPoly, hc, ha, hb]

theorem subrPoly_length {c a : Poly} (hc : c.length = 256) (ha : a.length = 256) : (subrPoly c a).length = 256 := by
  simp [subrPoly, hc, ha]

theorem vaccPoly_length (ops : List (Poly × Poly)) (tm : Bool) : (vaccPoly ops tm).length = 256 := by
  simp [vaccPoly, List.length_flatMap]

/-! ### Word by word -/

theorem redPoly_getD {c : Poly} (hc : c.length = 256) {i : Nat} (h : i < 256) :
    (redPoly c).getD i 0 = barrett (c.getD i 0) := by simp [redPoly, List.getD, hc, h]

theorem addrPoly_getD {c a : Poly} (hc : c.length = 256) (ha : a.length = 256) {i : Nat} (h : i < 256) :
    (addrPoly c a).getD i 0 = barrett (add16 (c.getD i 0) (a.getD i 0)) := by
  simp [addrPoly, List.getD, hc, ha, h]

theorem addaddrPoly_getD {c a b : Poly} (hc : c.length = 256) (ha : a.length = 256) (hb : b.length = 256) {i : Nat}
    (h : i < 256) :
    (addaddrPoly c a b).getD i 0 = barrett (add16 (add16 (c.getD i 0) (a.getD i 0)) (b.getD i 0)) := by
  simp [addaddrPoly, List.getD, hc, ha, hb, h]

theorem subrPoly_getD {c a : Poly} (hc : c.length = 256) (ha : a.length = 256) {i : Nat} (h : i < 256) :
    (subrPoly c a).getD i 0 = barrett (sub16 (c.getD i 0) (a.getD i 0)) := by
  simp [subrPoly, List.getD, hc, ha, h]

theorem flatMap_pair_getD {α : Type} (f g : Nat → α) (x : α) (n p e : Nat) (hp : p < n) (he : e < 2) :
    ((List.range n).flatMap fun q => [f q, g q]).getD (2 * p + e) x = if e = 0 then f p else g p := by
  induction n with
  | zero => omega
  | succ n ih =>
    have hl : ((List.range n).flatMap fun q => [f q, g q]).length = 2 * n := by simp [List.length_flatMap, Nat.mul_comm]
    rw [List.range_succ, List.flatMap_append]
    by_cases h : p < n
    · rw [List.getD_append _ _ _ _ (by rw [hl]; omega)]; exact ih h
    · have : p = n := by omega
      subst this
      rw [List.getD_append_right _ _ _ _ (by rw [hl]; omega), hl]
      rcases (by omega : e = 0 ∨ e = 1) with rfl | rfl <;> simp

/-- The two words of pair p of VACC's output (45_polyvecops R174). -/
theorem vaccPoly_getD (ops : List (Poly × Poly)) (tm : Bool) {p e : Nat} (hp : p < 128) (he : e < 2) :
    (vaccPoly ops tm).getD (2 * p + e) 0 =
      vaccFinish tm (if e = 0 then (vaccSums ops p).1 else (vaccSums ops p).2) := by
  unfold vaccPoly
  rw [flatMap_pair_getD (fun q => vaccFinish tm (vaccSums ops q).1) (fun q => vaccFinish tm (vaccSums ops q).2) 0 128 p e hp he]
  split_ifs <;> rfl

end Sys2Proof.Machine
end

