-- ==== Sys2Proof/Laws/Exec.lean ====
section
/-! SUPPORT. Laws of the shared operations of the commands: what `perform` can answer, what storing a slot does, and what each
command's rule does to memory, so that no later proof unfolds them. -/

namespace Sys2Proof.Machine

/-! ### The shape of a command -/

theorem perform_ok {i : Instr} {body : State → State} {s : State} (h : admission s.cfg.nslot i = .ok) :
    perform i body s = .next ((body s).respond .ok 0) := by simp [perform, h]

theorem perform_refused {i : Instr} {body : State → State} {s : State} (h : admission s.cfg.nslot i ≠ .ok) :
    perform i body s = .next (s.refuse (admission s.cfg.nslot i)) := by simp [perform, h]

/-- Everything `perform` can answer. -/
theorem perform_cases {i : Instr} {body : State → State} {s : State} {o : Host.Outcome State Fault Refusal}
    (h : perform i body s = o) :
    (admission s.cfg.nslot i = .ok ∧ o = .next ((body s).respond .ok 0)) ∨
      (admission s.cfg.nslot i ≠ .ok ∧ o = .next (s.refuse (admission s.cfg.nslot i))) := by
  by_cases ha : admission s.cfg.nslot i = .ok
  · left; exact ⟨ha, by rw [← h, perform_ok ha]⟩
  · right; exact ⟨ha, by rw [← h, perform_refused ha]⟩

/-- What admission says of a command it lets through. -/
theorem admission_ok {n : Nat} {i : Instr} :
    admission n i = .ok ↔ lengthLegal i = true ∧ slotsInRange n i = true ∧ overlaps i = false := by
  unfold admission; split_ifs <;> simp_all

/-! ### Storing a slot -/

/-- The common end of a slot command's rule: the words of slot d, its ghost attributes, the reads counted. -/
theorem storeSlot_spec (s : State) (d n : Nat) (g : Ghost) {p : Poly} (hp : p.length = 256) :
    s.SameBut (((s.setSlot d p).setGhost d g).advance n) [d] ∧
      (((s.setSlot d p).setGhost d g).advance n).Holds d p ∧
      (((s.setSlot d p).setGhost d g).advance n).ghostOf d = g ∧
      (((s.setSlot d p).setGhost d g).advance n).tick = s.tick + n ∧
      (((s.setSlot d p).setGhost d g).advance n).out = s.out := by
  refine ⟨⟨fun a ha => ?_, fun m hm => ?_, rfl, rfl, rfl⟩, fun i hi => ?_, ?_, rfl, rfl⟩
  · exact read_setSlot_other s hp (by simpa using ha)
  · show ((s.setSlot d p).setGhost d g).ghostOf m = _
    rw [ghostOf_setGhost, if_neg (by simpa using hm)]; rfl
  · exact read_setSlot_same s d hp hi
  · show ((s.setSlot d p).setGhost d g).ghostOf d = _
    rw [ghostOf_setGhost, if_pos rfl]

theorem doNtt_spec (s : State) (d : Nat) :
    s.SameBut (doNtt d s) [d] ∧ (doNtt d s).Holds d (nttPoly (s.slotAt 0 d)) ∧
      (doNtt d s).ghostOf d = (s.ghostOf d).afterNtt ∧ (doNtt d s).tick = s.tick + 1 ∧ (doNtt d s).out = s.out :=
  storeSlot_spec s d 1 _ (nttPoly_length (slotAt_length s 0 d))

theorem doIntt_spec (s : State) (d : Nat) :
    s.SameBut (doIntt d s) [d] ∧ (doIntt d s).Holds d (inttPoly (s.slotAt 0 d)) ∧
      (doIntt d s).ghostOf d = (s.ghostOf d).afterIntt ∧ (doIntt d s).tick = s.tick + 1 ∧ (doIntt d s).out = s.out :=
  storeSlot_spec s d 1 _ (inttPoly_length (slotAt_length s 0 d))

theorem doRed_spec (s : State) (d : Nat) :
    s.SameBut (doRed d s) [d] ∧ (doRed d s).Holds d (redPoly (s.slotAt 0 d)) ∧
      (doRed d s).ghostOf d = (s.ghostOf d).afterRed ∧ (doRed d s).tick = s.tick + 1 ∧ (doRed d s).out = s.out :=
  storeSlot_spec s d 1 _ (redPoly_length (slotAt_length s 0 d))

theorem doAddr_spec (s : State) (d a : Nat) :
    s.SameBut (doAddr d a s) [d] ∧ (doAddr d a s).Holds d (addrPoly (s.slotAt 0 d) (s.slotAt 1 a)) ∧
      (doAddr d a s).ghostOf d = Ghost.afterSum [s.ghostOf d, s.ghostOf a] ∧ (doAddr d a s).tick = s.tick + 2 ∧
      (doAddr d a s).out = s.out :=
  storeSlot_spec s d 2 _ (addrPoly_length (slotAt_length s 0 d) (slotAt_length s 1 a))

theorem doAddaddr_spec (s : State) (d a b : Nat) :
    s.SameBut (doAddaddr d a b s) [d] ∧
      (doAddaddr d a b s).Holds d (addaddrPoly (s.slotAt 0 d) (s.slotAt 1 a) (s.slotAt 2 b)) ∧
      (doAddaddr d a b s).ghostOf d = Ghost.afterSum [s.ghostOf d, s.ghostOf a, s.ghostOf b] ∧
      (doAddaddr d a b s).tick = s.tick + 3 ∧ (doAddaddr d a b s).out = s.out :=
  storeSlot_spec s d 3 _ (addaddrPoly_length (slotAt_length s 0 d) (slotAt_length s 1 a) (slotAt_length s 2 b))

theorem doSubr_spec (s : State) (d a : Nat) :
    s.SameBut (doSubr d a s) [d] ∧ (doSubr d a s).Holds d (subrPoly (s.slotAt 0 d) (s.slotAt 1 a)) ∧
      (doSubr d a s).ghostOf d = Ghost.afterSum [s.ghostOf d, s.ghostOf a] ∧ (doSubr d a s).tick = s.tick + 2 ∧
      (doSubr d a s).out = s.out :=
  storeSlot_spec s d 2 _ (subrPoly_length (slotAt_length s 0 d) (slotAt_length s 1 a))

theorem doVacc_spec (s : State) (k : Nat) (tm : Bool) (d a b : Nat) :
    s.SameBut (doVacc k tm d a b s) [d] ∧ (doVacc k tm d a b s).Holds d (vaccPoly (s.vaccOperands k a b) tm) ∧
      (doVacc k tm d a b s).ghostOf d =
        Ghost.afterVacc k tm ((slotRun a k).map s.ghostOf) ((slotRun b k).map s.ghostOf) ∧
      (doVacc k tm d a b s).tick = s.tick + 2 * k ∧ (doVacc k tm d a b s).out = s.out :=
  storeSlot_spec s d (2 * k) _ (vaccPoly_length _ tm)

/-! ### The invariant -/

/-- Writing words lists none less: a slot all of whose words are written stays so. -/
theorem written_setSlot {s : State} {n : Nat} (h : s.Written n) (d : Nat) {p : Poly} (hp : p.length = 256) :
    (s.setSlot d p).Written n := fun i hi => by
  by_cases hn : n = d
  · subst hn
    rw [read_setSlot_same s n hp hi]
    rfl
  · rw [read_setSlot_other s hp (by rwa [wordAddr_div hi])]
    exact h i hi

/-- The common end of a slot command's rule keeps the invariant. -/
theorem storeSlot_inv {s : State} (h : s.Inv) {d : Nat} (hd : d < s.cfg.nslot) (n : Nat) (g : Ghost) {p : Poly}
    (hp : p.length = 256) : (((s.setSlot d p).setGhost d g).advance n).Inv where
  cfg := h.cfg
  cm := writeRun_wf h.cm _ _
  addresses c hc := by
    rcases mem_writeRun (show c ∈ s.cm.writeRun (wordAddr d 0) p from hc) with hc | hc
    · exact h.addresses c hc
    · rw [hp] at hc
      unfold wordAddr at hc
      show c.1 < 256 * s.cfg.nslot
      omega
  ghost := setGhost_rising (s := s.setSlot d p) h.ghost d g
  slots c hc := by
    rcases mem_setGhost (s := s.setSlot d p) hc with hc | ⟨rfl, hg⟩
    · exact h.slots c hc
    · exact ⟨hd, hg⟩
  known c hc := by
    show (s.setSlot d p).Written c.1
    rcases mem_setGhost (s := s.setSlot d p) hc with hc | ⟨rfl, _⟩
    · exact written_setSlot (h.known c hc) d hp
    · exact fun i hi => by rw [read_setSlot_same s d hp hi]; rfl
  hostWrote := h.hostWrote
  hostSlots := h.hostSlots

/-! ### Composing -/

theorem sameBut_refl (s : State) (ws : List Nat) : s.SameBut s ws := ⟨fun _ _ => rfl, fun _ _ => rfl, rfl, rfl, rfl⟩

theorem sameBut_trans {s t u : State} {ws vs : List Nat} (h : s.SameBut t ws) (h' : t.SameBut u vs) : s.SameBut u (ws ++ vs) :=
  ⟨fun a ha => by
      have ha' := List.mem_append.not.1 ha
      rw [h'.words a fun hm => ha' (.inr hm), h.words a fun hm => ha' (.inl hm)],
    fun n hn => by
      have hn' := List.mem_append.not.1 hn
      rw [h'.ghosts n fun hm => hn' (.inr hm), h.ghosts n fun hm => hn' (.inl hm)],
    by rw [h'.cfg, h.cfg], by rw [h'.port, h.port], by rw [h'.hostWrote, h.hostWrote]⟩

theorem sameBut_mono {s t : State} {ws vs : List Nat} (h : s.SameBut t ws) (hs : ∀ n ∈ ws, n ∈ vs) : s.SameBut t vs :=
  ⟨fun a ha => h.words a fun hm => ha (hs _ hm), fun n hn => h.ghosts n fun hm => hn (hs _ hm), h.cfg, h.port, h.hostWrote⟩

/-- A slot that a command leaves alone and whose words are written reads the same afterwards, whatever the read counter. -/
theorem slotAt_of_sameBut {s t : State} {ws : List Nat} (h : s.SameBut t ws) {n : Nat} (hn : n ∉ ws) (hw : s.Written n)
    (j j' : Nat) : t.slotAt j n = s.slotAt j' n := by
  unfold State.slotAt
  refine List.map_congr_left fun i hi => ?_
  have hi' : i < 256 := List.mem_range.1 hi
  obtain ⟨v, hv⟩ := Option.isSome_iff_exists.1 (hw i hi')
  rw [wordAt_of_read hv, wordAt_of_read (by rw [h.words _ (by rwa [wordAddr_div hi']), hv])]

@[simp] theorem forElements_zero (f : Nat → State → State) (s : State) : forElements 0 f s = s := rfl

theorem forElements_succ (k : Nat) (f : Nat → State → State) (s : State) :
    forElements (k + 1) f s = f k (forElements k f s) := by simp [forElements, List.range_succ]

/-! ### Outcomes -/

@[simp] theorem andThen_next (s : State) (f : State → Host.Outcome State Fault Refusal) : andThen (.next s) f = f s := rfl

@[simp] theorem andThen_fault (r : Fault) (f : State → Host.Outcome State Fault Refusal) : andThen (.fault r) f = .fault r := rfl

@[simp] theorem andThen_refused (r : Refusal) (f : State → Host.Outcome State Fault Refusal) :
    andThen (.refused r) f = .refused r := rfl

theorem andThen_eq_next {o : Host.Outcome State Fault Refusal} {f : State → Host.Outcome State Fault Refusal} {t : State}
    (h : andThen o f = .next t) : ∃ u, o = .next u ∧ f u = .next t := by
  cases o with
  | next u => exact ⟨u, rfl, h⟩
  | fault r => simp at h
  | refused r => simp at h

end Sys2Proof.Machine
end

