-- ==== Sys2Proof/Laws/PerInstr.lean ====
section
/-! SUPPORT. Statements made for every instruction, one lemma per constructor: the opcode byte of an instruction's word. -/

namespace Sys2Proof.Laws.EncodedOpcode

/-- The opcode field of the word of an instruction is the byte its row has in rule R74, and that byte selects the row. -/
def Statement (i : Instr) : Prop := fieldOP (encode i) = i.opcode.byte ∧ Opcode.ofByte (fieldOP (encode i)) = some i.opcode

theorem of_byte {i : Instr} (h : fieldOP (encode i) = i.opcode.byte) : Statement i := ⟨h, by rw [h, ofByte_byte]⟩

theorem fqmul (a b : Word) : Statement (.fqmul a b) := of_byte (fieldOP_formatS _ _ _)

theorem barrett (a : Word) : Statement (.barrett a) := of_byte (fieldOP_formatS _ _ _)

theorem ntt (d : Nat) : Statement (.ntt d) := of_byte (fieldOP_formatP _ _ _ _ _ _)

theorem intt (d : Nat) : Statement (.intt d) := of_byte (fieldOP_formatP _ _ _ _ _ _)

theorem red (d : Nat) : Statement (.red d) := of_byte (fieldOP_formatP _ _ _ _ _ _)

theorem addr (d a : Nat) : Statement (.addr d a) := of_byte (fieldOP_formatP _ _ _ _ _ _)

theorem addaddr (d a b : Nat) : Statement (.addaddr d a b) := of_byte (fieldOP_formatP _ _ _ _ _ _)

theorem subr (d a : Nat) : Statement (.subr d a) := of_byte (fieldOP_formatP _ _ _ _ _ _)

theorem vntt (k d : Nat) : Statement (.vntt k d) := of_byte (fieldOP_formatP _ _ _ _ _ _)

theorem vintt (k d : Nat) : Statement (.vintt k d) := of_byte (fieldOP_formatP _ _ _ _ _ _)

theorem vaddr (k d a : Nat) : Statement (.vaddr k d a) := of_byte (fieldOP_formatP _ _ _ _ _ _)

theorem vacc (k : Nat) (toMont : Bool) (d a b : Nat) : Statement (.vacc k toMont d a b) := of_byte (fieldOP_formatP _ _ _ _ _ _)

end Sys2Proof.Laws.EncodedOpcode
end

