-- ==== Sys2Proof/Laws/Vector.lean ====
section
/-! SUPPORT. Laws of the element loops of the vector commands, and of what a slot reads as after other slots were stored. -/

namespace Sys2Proof.Machine

theorem wordAddr_eq (n i : Nat) : wordAddr n i = 256 * n + i := rfl

/-- A read depends on the word and on the number of the read only. -/
theorem wordAt_congr {s t : State} {a j j' : Nat} (h : t.cm.read a = s.cm.read a) (hj : t.tick + j = s.tick + j') :
    t.wordAt j a = s.wordAt j' a := by simp [State.wordAt, h, hj]

theorem slotAt_congr {s t : State} {n j j' : Nat} (h : ∀ i < 256, t.cm.read (wordAddr n i) = s.cm.read (wordAddr n i))
    (hj : t.tick + j = s.tick + j') : t.slotAt j n = s.slotAt j' n :=
  List.map_congr_left fun i hi => wordAt_congr (h i (List.mem_range.1 hi)) hj

/-- A slot that holds words reads as them, whatever the read counter. -/
theorem slotAt_of_holds {t : State} {n : Nat} {p : Poly} (h : t.Holds n p) (hp : p.length = 256) (j : Nat) : t.slotAt j n = p := by
  refine List.ext_getElem (by simp [hp]) fun i h1 h2 => ?_
  have hi : i < 256 := by simpa using h1
  have := slotAt_getD t j n hi 0
  rw [wordAt_of_read (h i hi)] at this
  simpa [List.getD, hi, hp, h2] using this

/-- Words held in a slot that a command leaves alone are held afterwards. -/
theorem holds_of_sameBut {s t : State} {ws : List Nat} (h : s.SameBut t ws) {n : Nat} {p : Poly} (hn : n ∉ ws) (hp : s.Holds n p) :
    t.Holds n p := fun i hi => by rw [h.words _ (by rwa [wordAddr_div hi]), hp i hi]

/-- The words of a slot outside the written ones are those of before. -/
theorem sameBut_slot {s t : State} {ws : List Nat} (h : s.SameBut t ws) {n : Nat} (hn : n ∉ ws) :
    ∀ i < 256, t.cm.read (wordAddr n i) = s.cm.read (wordAddr n i) := fun i hi => h.words _ (by rwa [wordAddr_div hi])

theorem mem_slotRun {b k n : Nat} : n ∈ slotRun b k ↔ b ≤ n ∧ n < b + k := by
  simp only [slotRun, List.mem_map, List.mem_range]
  constructor
  · rintro ⟨e, he, rfl⟩; omega
  · intro h; exact ⟨n - b, by omega, by omega⟩

/-- One element of a loop that stores slot d + e from words read at a known count. -/
structure ElementSpec (f : Nat → State → State) (d r : Nat) (val : State → Nat → Poly) : Prop where
  same : ∀ (e : Nat) (u : State), u.SameBut (f e u) [d + e]
  holds : ∀ (e : Nat) (u : State), (f e u).Holds (d + e) (val u e)
  tick : ∀ (e : Nat) (u : State), (f e u).tick = u.tick + r
  out : ∀ (e : Nat) (u : State), (f e u).out = u.out

/-- The loop over the elements: slots d .. d+k-1 and nothing else are stored, and element e gets the value `val` gives it in the state
before it. -/
theorem forElements_spec {f : Nat → State → State} {d r : Nat} {val : State → Nat → Poly} (hf : ElementSpec f d r val) (k : Nat)
    (s : State) :
    s.SameBut (forElements k f s) (slotRun d k) ∧ (forElements k f s).tick = s.tick + r * k ∧ (forElements k f s).out = s.out ∧
      ∀ e < k, (forElements k f s).Holds (d + e) (val (forElements e f s) e) := by
  induction k with
  | zero => exact ⟨sameBut_refl s _, rfl, rfl, fun e he => absurd he (Nat.not_lt_zero e)⟩
  | succ k ih =>
    obtain ⟨h1, h2, h3, h4⟩ := ih
    have hs := hf.same k (forElements k f s)
    rw [forElements_succ]
    refine ⟨sameBut_mono (sameBut_trans h1 hs) fun n hn => ?_, ?_, ?_, fun e he => ?_⟩
    · rcases List.mem_append.1 hn with hn | hn
      · rw [mem_slotRun] at hn ⊢; omega
      · rw [List.mem_singleton] at hn; rw [mem_slotRun]; omega
    · rw [hf.tick, h2, Nat.mul_succ]; omega
    · rw [hf.out, h3]
    · rcases Nat.lt_succ_iff_lt_or_eq.1 he with he | rfl
      · exact holds_of_sameBut hs (by simp only [List.mem_singleton]; omega) (h4 e he)
      · exact hf.holds e _

/-- NTT then RED on one slot (45_polyvecops R170). -/
theorem nttRed_spec (d : Nat) :
    ElementSpec (fun e t => doRed (d + e) (doNtt (d + e) t)) d 2 fun u e => redPoly (nttPoly (u.slotAt 0 (d + e))) where
  same e u := sameBut_mono (sameBut_trans (doNtt_spec u (d + e)).1 (doRed_spec (doNtt (d + e) u) (d + e)).1) (by simp)
  holds e u := by
    have h := (doRed_spec (doNtt (d + e) u) (d + e)).2.1
    rwa [slotAt_of_holds (doNtt_spec u (d + e)).2.1 (nttPoly_length (slotAt_length u 0 (d + e)))] at h
  tick e u := by rw [(doRed_spec _ _).2.2.2.1, (doNtt_spec u (d + e)).2.2.2.1]
  out e u := by rw [(doRed_spec _ _).2.2.2.2, (doNtt_spec u (d + e)).2.2.2.2]

/-- What VNTT does to the state (45_polyvecops R170). -/
theorem doVntt_spec (s : State) (k d : Nat) :
    s.SameBut (doVntt k d s) (slotRun d k) ∧ (doVntt k d s).tick = s.tick + 2 * k ∧ (doVntt k d s).out = s.out ∧
      ∀ e < k, (doVntt k d s).Holds (d + e) (redPoly (nttPoly (s.slotAt (2 * e) (d + e)))) := by
  obtain ⟨h1, h2, h3, h4⟩ := forElements_spec (nttRed_spec d) k s
  refine ⟨h1, h2, h3, fun e he => ?_⟩
  obtain ⟨g1, g2, _, _⟩ := forElements_spec (nttRed_spec d) e s
  have : (forElements e (fun e t => doRed (d + e) (doNtt (d + e) t)) s).slotAt 0 (d + e) = s.slotAt (2 * e) (d + e) :=
    slotAt_congr (sameBut_slot g1 (by rw [mem_slotRun]; omega)) (by rw [g2]; omega)
  rw [← this]; exact h4 e he

theorem intt_element_spec (d : Nat) :
    ElementSpec (fun e t => doIntt (d + e) t) d 1 fun u e => inttPoly (u.slotAt 0 (d + e)) where
  same e u := (doIntt_spec u (d + e)).1
  holds e u := (doIntt_spec u (d + e)).2.1
  tick e u := (doIntt_spec u (d + e)).2.2.2.1
  out e u := (doIntt_spec u (d + e)).2.2.2.2

/-- What VINTT does to the state (45_polyvecops R171). -/
theorem doVintt_spec (s : State) (k d : Nat) :
    s.SameBut (doVintt k d s) (slotRun d k) ∧ (doVintt k d s).tick = s.tick + 1 * k ∧ (doVintt k d s).out = s.out ∧
      ∀ e < k, (doVintt k d s).Holds (d + e) (inttPoly (s.slotAt e (d + e))) := by
  obtain ⟨h1, h2, h3, h4⟩ := forElements_spec (intt_element_spec d) k s
  refine ⟨h1, h2, h3, fun e he => ?_⟩
  obtain ⟨g1, g2, _, _⟩ := forElements_spec (intt_element_spec d) e s
  have : (forElements e (fun e t => doIntt (d + e) t) s).slotAt 0 (d + e) = s.slotAt e (d + e) :=
    slotAt_congr (sameBut_slot g1 (by rw [mem_slotRun]; omega)) (by rw [g2]; omega)
  rw [← this]; exact h4 e he

theorem addr_element_spec (d a : Nat) :
    ElementSpec (fun e t => doAddr (d + e) (a + e) t) d 2 fun u e => addrPoly (u.slotAt 0 (d + e)) (u.slotAt 1 (a + e)) where
  same e u := (doAddr_spec u (d + e) (a + e)).1
  holds e u := (doAddr_spec u (d + e) (a + e)).2.1
  tick e u := (doAddr_spec u (d + e) (a + e)).2.2.2.1
  out e u := (doAddr_spec u (d + e) (a + e)).2.2.2.2

/-- What VADDR does to the state, for identical and for disjoint ranges (45_polyvecops R172, 20_memory R62). -/
theorem doVaddr_spec (s : State) (k d a : Nat) :
    s.SameBut (doVaddr k d a s) (slotRun d k) ∧ (doVaddr k d a s).tick = s.tick + 2 * k ∧ (doVaddr k d a s).out = s.out ∧
      (d = a ∨ d + k ≤ a ∨ a + k ≤ d →
        ∀ e < k, (doVaddr k d a s).Holds (d + e) (addrPoly (s.slotAt (2 * e) (d + e)) (s.slotAt (2 * e + 1) (a + e)))) := by
  obtain ⟨h1, h2, h3, h4⟩ := forElements_spec (addr_element_spec d a) k s
  refine ⟨h1, h2, h3, fun hd e he => ?_⟩
  obtain ⟨g1, g2, _, _⟩ := forElements_spec (addr_element_spec d a) e s
  have hx : (forElements e (fun e t => doAddr (d + e) (a + e) t) s).slotAt 0 (d + e) = s.slotAt (2 * e) (d + e) :=
    slotAt_congr (sameBut_slot g1 (by rw [mem_slotRun]; omega)) (by rw [g2]; omega)
  have hy : (forElements e (fun e t => doAddr (d + e) (a + e) t) s).slotAt 1 (a + e) = s.slotAt (2 * e + 1) (a + e) :=
    slotAt_congr (sameBut_slot g1 (by rw [mem_slotRun]; omega)) (by rw [g2]; omega)
  rw [← hx, ← hy]; exact h4 e he

/-! ### Ghost attributes of the elements -/

/-- The ghost attributes a loop leaves of element e are those its element gives in the state before it. -/
theorem forElements_ghost {f : Nat → State → State} {d r : Nat} {val : State → Nat → Poly} (hf : ElementSpec f d r val)
    {g : State → Nat → Ghost} (hg : ∀ e u, (f e u).ghostOf (d + e) = g u e) (k : Nat) (s : State) :
    ∀ e < k, (forElements k f s).ghostOf (d + e) = g (forElements e f s) e := by
  induction k with
  | zero => intro e he; omega
  | succ k ih =>
    intro e he
    rw [forElements_succ]
    rcases Nat.lt_succ_iff_lt_or_eq.1 he with he | rfl
    · rw [(hf.same k _).ghosts _ (by rw [List.mem_singleton]; omega), ih e he]
    · exact hg e _

theorem doVntt_ghost (s : State) {k d e : Nat} (he : e < k) :
    (doVntt k d s).ghostOf (d + e) = (s.ghostOf (d + e)).afterNtt.afterRed := by
  have h := forElements_ghost (nttRed_spec d) (g := fun u e => (u.ghostOf (d + e)).afterNtt.afterRed)
    (fun e u => by rw [(doRed_spec _ _).2.2.1, (doNtt_spec u (d + e)).2.2.1]) k s e he
  rwa [(forElements_spec (nttRed_spec d) e s).1.ghosts _ (by rw [mem_slotRun]; omega)] at h

theorem doVintt_ghost (s : State) {k d e : Nat} (he : e < k) :
    (doVintt k d s).ghostOf (d + e) = (s.ghostOf (d + e)).afterIntt := by
  have h := forElements_ghost (intt_element_spec d) (g := fun u e => (u.ghostOf (d + e)).afterIntt)
    (fun e u => (doIntt_spec u (d + e)).2.2.1) k s e he
  rwa [(forElements_spec (intt_element_spec d) e s).1.ghosts _ (by rw [mem_slotRun]; omega)] at h

theorem doVaddr_ghost (s : State) {k d a e : Nat} (hd : d = a ∨ d + k ≤ a ∨ a + k ≤ d) (he : e < k) :
    (doVaddr k d a s).ghostOf (d + e) = Ghost.afterSum [s.ghostOf (d + e), s.ghostOf (a + e)] := by
  have h := forElements_ghost (addr_element_spec d a) (g := fun u e => Ghost.afterSum [u.ghostOf (d + e), u.ghostOf (a + e)])
    (fun e u => (doAddr_spec u (d + e) (a + e)).2.2.1) k s e he
  rwa [(forElements_spec (addr_element_spec d a) e s).1.ghosts _ (by rw [mem_slotRun]; omega),
    (forElements_spec (addr_element_spec d a) e s).1.ghosts _ (by rw [mem_slotRun]; omega)] at h

/-- An element loop keeps the invariant if each of its elements does. -/
theorem forElements_inv {f : Nat → State → State} {k : Nat} {s : State} (h : s.Inv) (hc : ∀ e u, (f e u).cfg = u.cfg)
    (hf : ∀ e < k, ∀ u : State, u.cfg = s.cfg → u.Inv → (f e u).Inv) : (forElements k f s).Inv ∧ (forElements k f s).cfg = s.cfg := by
  induction k with
  | zero => exact ⟨h, rfl⟩
  | succ k ih =>
    obtain ⟨hi, hk⟩ := ih fun e he => hf e (by omega)
    rw [forElements_succ]
    exact ⟨hf k (by omega) _ hk hi, by rw [hc, hk]⟩

end Sys2Proof.Machine
end

