-- ==== Sys2Proof/Laws/Step.lean ====
section
/-! SUPPORT. What `exec` and `step` can answer, said once: an admitted command runs its rule and answers OK, another is refused, and
neither stops. -/

namespace Sys2Proof.Machine

/-- The rule of a command on the state, without the response. -/
def ruleOf : Instr → State → State
  | .fqmul _ _, s => s
  | .barrett _, s => s
  | .ntt d, s => doNtt d s
  | .intt d, s => doIntt d s
  | .red d, s => doRed d s
  | .addr d a, s => doAddr d a s
  | .addaddr d a b, s => doAddaddr d a b s
  | .subr d a, s => doSubr d a s
  | .vntt k d, s => doVntt k d s
  | .vintt k d, s => doVintt k d s
  | .vaddr k d a, s => doVaddr k d a s
  | .vacc k tm d a b, s => doVacc k tm d a b s

/-- The field RESULT of the response to an admitted command (30_encoding R78). -/
def resultOf : Instr → Word
  | .fqmul a b => fqmul a b
  | .barrett a => barrett a
  | _ => 0

/-- How many reads an admitted command counts. -/
def readsOf : Instr → Nat
  | .fqmul _ _ => 0
  | .barrett _ => 0
  | .ntt _ => 1
  | .intt _ => 1
  | .red _ => 1
  | .addr _ _ => 2
  | .addaddr _ _ _ => 3
  | .subr _ _ => 2
  | .vntt k _ => 2 * k
  | .vintt k _ => k
  | .vaddr k _ _ => 2 * k
  | .vacc k _ _ _ _ => 2 * k

/-- Everything `exec` can answer. -/
theorem exec_eq (i : Instr) (s : State) :
    exec i s =
      if admission s.cfg.nslot i = .ok then .next ((ruleOf i s).respond .ok (resultOf i))
      else .next (s.refuse (admission s.cfg.nslot i)) := by cases i <;> rfl

theorem exec_ok {i : Instr} {s : State} (h : admission s.cfg.nslot i = .ok) :
    exec i s = .next ((ruleOf i s).respond .ok (resultOf i)) := by rw [exec_eq, if_pos h]

theorem exec_refused {i : Instr} {s : State} (h : admission s.cfg.nslot i ≠ .ok) :
    exec i s = .next (s.refuse (admission s.cfg.nslot i)) := by rw [exec_eq, if_neg h]

/-- What the rule of a command does: it changes the slots it writes only, delivers nothing, counts its reads, and leaves in each slot
it writes 256 words. -/
theorem ruleOf_spec (i : Instr) (s : State) :
    s.SameBut (ruleOf i s) (footprint i).writes ∧ (ruleOf i s).out = s.out ∧ (ruleOf i s).tick = s.tick + readsOf i ∧
      ∀ n ∈ (footprint i).writes, ∃ p, (ruleOf i s).Holds n p := by
  cases i with
  | fqmul a b => exact ⟨sameBut_refl s _, rfl, rfl, by simp [footprint]⟩
  | barrett a => exact ⟨sameBut_refl s _, rfl, rfl, by simp [footprint]⟩
  | ntt d =>
    have h := doNtt_spec s d
    exact ⟨h.1, h.2.2.2.2, h.2.2.2.1, by simpa [footprint] using ⟨_, h.2.1⟩⟩
  | intt d =>
    have h := doIntt_spec s d
    exact ⟨h.1, h.2.2.2.2, h.2.2.2.1, by simpa [footprint] using ⟨_, h.2.1⟩⟩
  | red d =>
    have h := doRed_spec s d
    exact ⟨h.1, h.2.2.2.2, h.2.2.2.1, by simpa [footprint] using ⟨_, h.2.1⟩⟩
  | addr d a =>
    have h := doAddr_spec s d a
    exact ⟨h.1, h.2.2.2.2, h.2.2.2.1, by simpa [footprint] using ⟨_, h.2.1⟩⟩
  | addaddr d a b =>
    have h := doAddaddr_spec s d a b
    exact ⟨h.1, h.2.2.2.2, h.2.2.2.1, by simpa [footprint] using ⟨_, h.2.1⟩⟩
  | subr d a =>
    have h := doSubr_spec s d a
    exact ⟨h.1, h.2.2.2.2, h.2.2.2.1, by simpa [footprint] using ⟨_, h.2.1⟩⟩
  | vntt k d =>
    have h := doVntt_spec s k d
    refine ⟨h.1, h.2.2.1, h.2.1, fun n hn => ?_⟩
    simp only [footprint, mem_slotRun] at hn
    obtain ⟨e, rfl⟩ := Nat.exists_eq_add_of_le hn.1
    exact ⟨_, h.2.2.2 e (by omega)⟩
  | vintt k d =>
    have h := doVintt_spec s k d
    refine ⟨h.1, h.2.2.1, by rw [ruleOf, h.2.1, readsOf]; omega, fun n hn => ?_⟩
    simp only [footprint, mem_slotRun] at hn
    obtain ⟨e, rfl⟩ := Nat.exists_eq_add_of_le hn.1
    exact ⟨_, h.2.2.2 e (by omega)⟩
  | vaddr k d a =>
    have h := forElements_spec (addr_element_spec d a) k s
    refine ⟨h.1, h.2.2.1, h.2.1, fun n hn => ?_⟩
    simp only [footprint, mem_slotRun] at hn
    obtain ⟨e, rfl⟩ := Nat.exists_eq_add_of_le hn.1
    exact ⟨_, h.2.2.2 e (by omega)⟩
  | vacc k tm d a b =>
    have h := doVacc_spec s k tm d a b
    exact ⟨h.1, h.2.2.2.2, h.2.2.2.1, by simpa [footprint] using ⟨_, h.2.1⟩⟩

/-- The rule of an admitted command keeps the invariant. -/
theorem ruleOf_inv {i : Instr} {s : State} (h : s.Inv) (ha : admission s.cfg.nslot i = .ok) : (ruleOf i s).Inv := by
  have hs := (admission_ok.1 ha).2.1
  cases i <;> simp [slotsInRange, slotOperands] at hs
  case fqmul => exact h
  case barrett => exact h
  case ntt d => exact storeSlot_inv h (by omega) _ _ (nttPoly_length (slotAt_length s _ _))
  case intt d => exact storeSlot_inv h (by omega) _ _ (inttPoly_length (slotAt_length s _ _))
  case red d => exact storeSlot_inv h (by omega) _ _ (redPoly_length (slotAt_length s _ _))
  case addr d a => exact storeSlot_inv h (by omega) _ _ (addrPoly_length (slotAt_length s _ _) (slotAt_length s _ _))
  case subr d a => exact storeSlot_inv h (by omega) _ _ (subrPoly_length (slotAt_length s _ _) (slotAt_length s _ _))
  case addaddr d a b =>
    exact storeSlot_inv h (by omega) _ _ (addaddrPoly_length (slotAt_length s _ _) (slotAt_length s _ _) (slotAt_length s _ _))
  case vacc k tm d a b => exact storeSlot_inv h (by omega) _ _ (vaccPoly_length _ tm)
  case vntt k d =>
    refine (forElements_inv (f := fun e t => doRed (d + e) (doNtt (d + e) t)) h (fun e u => ((nttRed_spec d).same e u).cfg)
      fun e he u hu hi => ?_).1
    have hn : (doNtt (d + e) u).Inv := storeSlot_inv hi (by rw [hu]; omega) _ _ (nttPoly_length (slotAt_length _ _ _))
    exact storeSlot_inv hn (by rw [(doNtt_spec u (d + e)).1.cfg, hu]; omega) _ _ (redPoly_length (slotAt_length _ _ _))
  case vintt k d =>
    exact (forElements_inv (f := fun e t => doIntt (d + e) t) h (fun e u => (doIntt_spec u (d + e)).1.cfg) fun e he u hu hi =>
      storeSlot_inv hi (by rw [hu]; omega) _ _ (inttPoly_length (slotAt_length _ _ _))).1
  case vaddr k d a =>
    exact (forElements_inv (f := fun e t => doAddr (d + e) (a + e) t) h (fun e u => (doAddr_spec u (d + e) (a + e)).1.cfg)
      fun e he u hu hi =>
        storeSlot_inv hi (by rw [hu]; omega) _ _ (addrPoly_length (slotAt_length _ _ _) (slotAt_length _ _ _))).1

/-- Everything a command word can do: it never stops. -/
theorem runCommand_eq (w : Command) (s : State) :
    runCommand w s =
      match decode w with
      | .instr i =>
        if admission s.cfg.nslot i = .ok then .next ((ruleOf i s).respond .ok (resultOf i))
        else .next (s.refuse (admission s.cfg.nslot i))
      | .refused st => .next (s.refuse st) := by
  unfold runCommand
  cases decode w with
  | instr i => exact exec_eq i s
  | refused st => rfl

/-- What a step is, by the oldest pending action. -/
theorem step_idle {s : State} (h : s.port = []) : step s = .next { s with out := [] } := by simp [step, h]

theorem step_action {s : State} {ev : HostEvent} {rest : List HostEvent} (h : s.port = ev :: rest) :
    step s = handle ev { s with port := rest, out := [] } := by simp [step, h]

end Sys2Proof.Machine
end

