-- ==== Sys2Proof/Tests/Slice0.lean ====
section
/-! SUPPORT. The model's own tests. Expected values are the spec's: worked encodings of 30_encoding R79, tables of
95_test_vectors, examples of the rules named. Then a witness for every statement of Certificates/Slice0/Obligations.lean that has
hypotheses. -/

namespace Sys2Proof.Tests

open Sys2Proof Sys2Proof.Machine

set_option maxRecDepth 20000

/-! ### Helpers -/

/-- 256 words from integers; words not given are 0. -/
def slotOf (xs : List Int) : Poly := (List.range 256).map fun i => toWord (xs.getD i 0)

/-- 256 equal words. -/
def slotAll (x : Int) : Poly := List.replicate 256 (toWord x)

/-- The state after reset with these slots written, in rising order of the slot number. -/
def loaded (slots : List (Nat × Poly)) : State :=
  { State.reset with cm := slots.flatMap fun s => s.2.zipIdx.map fun w => (wordAddr s.1 w.2, w.1) }

/-- What is delivered when a command word is performed. -/
def answers (w : Command) (s : State) : List Delivery :=
  match runCommand w s with
  | .next t => t.out
  | .fault _ => []
  | .refused _ => []

/-- The first `count` words of a slot after a command word, as integers. -/
def wordsAfter (w : Command) (s : State) (slot count : Nat) : List Int :=
  match runCommand w s with
  | .next t => ((t.slotAt 0 slot).take count).map BitVec.toInt
  | .fault _ => []
  | .refused _ => []

/-- What an admitted command's rule leaves in memory is what the next state holds. -/
theorem reads_after {i : Instr} {s : State} {a : Nat} {v : Word} (h : admission s.cfg.nslot i = .ok)
    (hr : (ruleOf i s).cm.read a = some v) : ∃ t, exec i s = .next t ∧ t.cm.read a = some v := ⟨_, exec_ok h, hr⟩

/-! ### Well-formedness: one ill-formed term for each check, which the check refuses -/

theorem test_wf_refuses_slot_256 :
    ∀ i ∈ [Instr.ntt 256, .intt 256, .red 256, .addr 256 0, .addr 0 256, .addaddr 256 0 0, .addaddr 0 256 0, .addaddr 0 0 256,
      .subr 256 0, .subr 0 256, .vntt 2 256, .vintt 2 256, .vaddr 2 256 0, .vaddr 2 0 256, .vacc 2 true 256 0 0,
      .vacc 2 true 0 256 0, .vacc 2 true 0 0 256], i.wf = false := by decide

theorem test_wf_refuses_other_lengths :
    ∀ k ∈ [0, 1, 5, 6, 7, 8], ∀ i ∈ [Instr.vntt k 0, .vintt k 0, .vaddr k 0 0, .vacc k false 9 0 4], i.wf = false := by decide

theorem test_wf_accepts :
    ∀ i ∈ [Instr.fqmul (toWord (-1)) 1, .barrett 1, .ntt 255, .intt 255, .red 255, .addr 255 255, .addaddr 255 255 255,
      .subr 255 255, .vntt 2 255, .vintt 3 255, .vaddr 4 255 0, .vacc 4 true 255 255 255], i.wf = true := by decide

/-! ### Decoding: every constructor, from words written out by the formats R71 and R72 -/

theorem test_decode_scalar :
    decode 0x0000FFFF80000001#64 = .instr (.fqmul (toWord (-32768)) (toWord (-1))) ∧
    decode 0x000000007FFF0002#64 = .instr (.barrett (toWord 32767)) := by decide

theorem test_decode_one_slot :
    decode 0x0000000000050010#64 = .instr (.ntt 5) ∧ decode 0x0000000000050011#64 = .instr (.intt 5) ∧
    decode 0x00000000000F0020#64 = .instr (.red 15) := by decide

theorem test_decode_several_slots :
    decode 0x0000000002010021#64 = .instr (.addr 1 2) ∧ decode 0x0000000302010022#64 = .instr (.addaddr 1 2 3) ∧
    decode 0x0000000002010023#64 = .instr (.subr 1 2) := by decide

theorem test_decode_vector :
    decode 0x00000000000D0330#64 = .instr (.vntt 3 13) ∧ decode 0x00000000000E0231#64 = .instr (.vintt 2 14) ∧
    decode 0x0000000004000432#64 = .instr (.vaddr 4 0 4) ∧ decode 0x0000000400080B33#64 = .instr (.vacc 3 true 8 0 4) ∧
    decode 0x0000000301000233#64 = .instr (.vacc 2 false 0 1 3) := by decide

theorem test_table_word_bits_above_are_zero :
    decodeTableWord 64 0x0000000302010022 = some (.addaddr 1 2 3) ∧ decodeTableWord 64 0x0000010000050010 = none ∧
    decodeTableWord 8 0x0000000000050010 = some (.ntt 0) := by decide

/-- The rows of the table have different bytes, and every byte selects at most its own row. -/
theorem test_opcode_bytes_are_distinct : (Opcode.all.map Opcode.byte).Pairwise (· < ·) := by decide

/-! ### Refusals: the table of 95_test_vectors 2.10 -/

theorem test_refusal_table :
    [0x0000000000000000#64, 0xFFFFFFFFFFFFFFFF#64, 0x0000000000050012#64, 0x0000000000000003#64, 0x0000000000000034#64,
      0x0000000000050010#64, 0x0000000000050210#64, 0x0000000000050810#64, 0x0000000000051010#64, 0x0000010000050010#64,
      0x0000000001050010#64, 0x00000000000F0020#64, 0x0000000000100020#64, 0x0000000003030021#64, 0x00000000C8000021#64,
      0x0000000302010023#64, 0x0000000100050002#64, 0x0000000100050101#64, 0x0001000100050001#64, 0x0000000000000030#64,
      0x0000000000000130#64].map (fun w => answers w State.reset) =
      [0x00010000#32, 0x00010000#32, 0x00010000#32, 0x00010000#32, 0x00010000#32, 0x00000000#32, 0x00020000#32, 0x00020000#32,
        0x00020000#32, 0x00020000#32, 0x00020000#32, 0x00000000#32, 0x00030000#32, 0x00000000#32, 0x00030000#32, 0x00020000#32,
        0x00020000#32, 0x00020000#32, 0x00020000#32, 0x00020000#32, 0x00020000#32].map (fun r => [Delivery.response r]) := by decide +kernel

theorem test_refusal_table_vectors :
    [0x0000000000000530#64, 0x00000000000D0330#64, 0x00000000000D0430#64, 0x00000000000E0231#64, 0x00000000000F0231#64,
      0x0000000000000A30#64, 0x0000000004000432#64, 0x0000000003000432#64, 0x0000000000000432#64, 0x0000000000010232#64,
      0x00000000100F0232#64, 0x00000000C9C80532#64, 0x0000000400080B33#64, 0x0000000000020233#64, 0x0000000400010233#64,
      0x0000000400050233#64, 0x0000000301000233#64, 0x0000000D000F0433#64, 0x0000000400081B33#64].map (fun w => answers w State.reset) =
      [0x00020000#32, 0x00000000#32, 0x00030000#32, 0x00000000#32, 0x00030000#32, 0x00020000#32, 0x00000000#32, 0x00040000#32,
        0x00000000#32, 0x00040000#32, 0x00030000#32, 0x00020000#32, 0x00000000#32, 0x00000000#32, 0x00040000#32, 0x00040000#32,
        0x00000000#32, 0x00030000#32, 0x00020000#32].map (fun r => [Delivery.response r]) := by decide +kernel

/-! ### The units: 95_test_vectors 2.1 to 2.4 and 2.8 -/

theorem test_butterflies :
    bflyCt (toWord 32767) (toWord 100) (toWord 1628) = (toWord 31782, toWord (-31784)) ∧
    bflyCt (toWord (-3328)) (toWord 3328) (toWord 1628) = (toWord (-2153), toWord (-4503)) ∧
    bflyGsR (toWord (-1664)) (toWord 1664) (toWord (-958)) = (0, toWord 1219) ∧
    bflyGsR (toWord 16383) (toWord 16383) (toWord 1275) = (toWord (-524), 0) ∧
    bflyGsF (toWord 128) 0 = (toWord (-1044), toWord 758) ∧ bflyGsF (toWord 1664) (toWord (-1664)) = (0, toWord (-266)) := by
  decide

theorem test_basemul :
    basemul (toWord 1) (toWord 2) (toWord 3) (toWord 4) (toWord (-1103)) = (toWord 188, toWord 1690) ∧
    basemul (toWord 1664) (toWord (-1664)) (toWord 1664) (toWord 1664) (toWord 1628) = (toWord (-249), 0) ∧
    basemul (toWord 3328) (toWord 3328) (toWord 3328) (toWord 3328) (toWord (-1628)) = (toWord (-996), toWord 338) := by decide

theorem test_transpose :
    (ofLanes [(trn4 ⟨⟨0, 1, 2, 3⟩, ⟨4, 5, 6, 7⟩, ⟨8, 9, 10, 11⟩, ⟨12, 13, 14, 15⟩⟩).v0,
      (trn4 ⟨⟨0, 1, 2, 3⟩, ⟨4, 5, 6, 7⟩, ⟨8, 9, 10, 11⟩, ⟨12, 13, 14, 15⟩⟩).v1]) = [0, 4, 8, 12, 1, 5, 9, 13] := by decide

/-! ### Commands: 95_test_vectors 2.1, 2.2, 2.5 to 2.9 -/

theorem test_fqmul :
    [0x00000011FBEC0001#64, 0x0000000100010001#64, 0x00007FFF80000001#64, 0x0000000180000001#64, 0x00007FFF7FFF0001#64,
      0x0000FEBF30390001#64].map (fun w => answers w State.reset) =
      [0x00000011#32, 0x000000A9#32, 0x0000C681#32, 0x00000680#32, 0x000040A8#32, 0x000003F4#32].map (fun r => [Delivery.response r]) := by decide +kernel

theorem test_barrett :
    [0x000000007FFF0002#64, 0x0000000006800002#64, 0x0000000006810002#64, 0x00000000F97F0002#64, 0x0000000080000002#64,
      0x0000000013820002#64].map (fun w => answers w State.reset) =
      [0x0000FDF5#32, 0x00000680#32, 0x0000F980#32, 0x00000680#32, 0x0000020A#32, 0x0000F980#32].map (fun r => [Delivery.response r]) := by decide +kernel

theorem test_ntt_x_cubed :
    wordsAfter 0x0000000000000010#64 (loaded [(0, slotOf [0, 0, 0, 1])]) 0 16 =
      [0, 17, 0, -17, 0, -568, 0, 568, 0, 583, 0, -583, 0, -680, 0, 680] := by decide +kernel

theorem test_ntt_bound_corner :
    wordsAfter 0x0000000000000010#64 (loaded [(0, slotAll 9464)]) 0 8 = [8804, 8804, 6230, 6230, 9874, 9874, 7200, 7200] := by
  decide +kernel

theorem test_intt_first_word :
    wordsAfter 0x0000000000000011#64 (loaded [(0, slotOf [1])]) 0 8 = [512, 0, -949, 0, 140, 0, 1379, 0] := by decide +kernel

theorem test_intt_bound_corner :
    wordsAfter 0x0000000000000011#64 (loaded [(0, slotAll 16383)]) 0 4 = [550, 550, 0, 0] := by decide +kernel

theorem test_red :
    wordsAfter 0x0000000000000020#64 (loaded [(0, slotOf [0, 1664, 1665, -1665, 3329, 26631, 32767, -32768])]) 0 8 =
      [0, 1664, -1664, 1664, 0, -1, -523, 522] := by decide +kernel

theorem test_addr :
    wordsAfter 0x0000000001000021#64
      (loaded [(0, slotOf [1, 3000, 1664, -1664, 3328, 16383, 32767, -32768]), (1, slotOf [2, 3000, 1, -1, 3328, 16384, 1, -1])])
      0 8 = [3, -658, -1664, 1664, -2, -523, 522, -523] := by decide +kernel

theorem test_addr_same_slot : wordsAfter 0x0000000003030021#64 (loaded [(3, slotOf [1000])]) 3 1 = [-1329] := by decide +kernel

theorem test_addaddr :
    wordsAfter 0x0000000201000022#64
      (loaded [(0, slotOf [1, 3328, 1664, 32767, 20000]), (1, slotOf [2, 3328, 1664, 1, 20000]),
        (2, slotOf [3, 3328, 1664, -1, -20000])]) 0 5 = [6, -3, 1663, -523, 26] := by decide +kernel

theorem test_subr :
    wordsAfter 0x0000000001000023#64
      (loaded [(0, slotOf [0, 5, 1664, -1664, 0, -32768, 32767]), (1, slotOf [1, 3334, -1, 1, -32768, 1, -1])]) 0 7 =
      [-1, 0, -1664, 1664, 522, -523, 522] := by decide +kernel

/-- The polynomials x and x^2. -/
def vnttState : State := loaded [(0, slotOf [0, 1]), (1, slotOf [0, 0, 1])]

theorem test_vntt :
    (∃ t, exec (.vntt 2 0) vnttState = .next t ∧ t.cm.read (wordAddr 0 1) = some 1) ∧
    ∃ t, exec (.vntt 2 0) vnttState = .next t ∧ t.cm.read (wordAddr 1 2) = some (toWord (-17)) := by
  have h := (doVntt_spec vnttState 2 0).2.2.2
  have e0 : (redPoly (nttPoly (vnttState.slotAt (2 * 0) (0 + 0)))).getD 1 0 = 1 := by decide +kernel
  have e1 : (redPoly (nttPoly (vnttState.slotAt (2 * 1) (0 + 1)))).getD 2 0 = toWord (-17) := by decide +kernel
  have ha : admission vnttState.cfg.nslot (.vntt 2 0) = .ok := by decide +kernel
  exact ⟨reads_after ha ((h 0 (by decide) 1 (by decide)).trans (congrArg some e0)),
    reads_after ha ((h 1 (by decide) 2 (by decide)).trans (congrArg some e1))⟩

/-- The forms of x and of 1. -/
def vinttState : State :=
  loaded [(0, slotOf ((List.replicate 128 [0, 1]).flatten)), (1, slotOf ((List.replicate 128 [1, 0]).flatten))]

theorem test_vintt :
    (∃ t, exec (.vintt 2 0) vinttState = .next t ∧ t.cm.read (wordAddr 0 1) = some (toWord (-1044))) ∧
    ∃ t, exec (.vintt 2 0) vinttState = .next t ∧ t.cm.read (wordAddr 1 0) = some (toWord (-1044)) := by
  have h := (doVintt_spec vinttState 2 0).2.2.2
  have e0 : (inttPoly (vinttState.slotAt 0 (0 + 0))).getD 1 0 = toWord (-1044) := by decide +kernel
  have e1 : (inttPoly (vinttState.slotAt 1 (0 + 1))).getD 0 0 = toWord (-1044) := by decide +kernel
  have ha : admission vinttState.cfg.nslot (.vintt 2 0) = .ok := by decide +kernel
  exact ⟨reads_after ha ((h 0 (by decide) 1 (by decide)).trans (congrArg some e0)),
    reads_after ha ((h 1 (by decide) 0 (by decide)).trans (congrArg some e1))⟩

/-- Word 0 of four slots; the other words are never written. -/
def vaddrState : State :=
  { State.reset with cm := [(0, toWord 1664), (256, toWord (-1664)), (512, 1), (768, toWord (-1))] }

theorem test_vaddr :
    (∃ t, exec (.vaddr 2 0 2) vaddrState = .next t ∧ t.cm.read (wordAddr 0 0) = some (toWord (-1664))) ∧
    ∃ t, exec (.vaddr 2 0 2) vaddrState = .next t ∧ t.cm.read (wordAddr 1 0) = some (toWord 1664) := by
  have h := (doVaddr_spec vaddrState 2 0 2).2.2.2 (by decide)
  have e0 : (addrPoly (vaddrState.slotAt (2 * 0) (0 + 0)) (vaddrState.slotAt (2 * 0 + 1) (2 + 0))).getD 0 0 = toWord (-1664) := by
    decide +kernel
  have e1 : (addrPoly (vaddrState.slotAt (2 * 1) (0 + 1)) (vaddrState.slotAt (2 * 1 + 1) (2 + 1))).getD 0 0 = toWord 1664 := by
    decide +kernel
  have ha : admission vaddrState.cfg.nslot (.vaddr 2 0 2) = .ok := by decide +kernel
  exact ⟨reads_after ha ((h 0 (by decide) 0 (by decide)).trans (congrArg some e0)),
    reads_after ha ((h 1 (by decide) 0 (by decide)).trans (congrArg some e1))⟩

/-- Pairs 0 and 1 of the operands of the whole-command vector of 95_test_vectors 2.8; the other words are never written. -/
def vaccState : State :=
  { State.reset with cm :=
      [(0, 1), (1, 2), (2, 3), (3, 4), (256, toWord (-7)), (257, toWord (-4)), (258, toWord (-1)), (259, 2), (512, 2), (513, 7),
        (514, 12), (515, 17), (768, 0), (769, toWord (-1)), (770, toWord (-4)), (771, toWord (-9))] }

theorem test_vacc : wordsAfter 0x0000000200040233#64 vaccState 4 4 = [-1212, -287, -401, 255] := by decide +kernel

theorem test_vacc_to_mont : wordsAfter 0x0000000200040A33#64 vaccState 4 4 = [308, 18, -810, 100] := by decide +kernel

/-! ### Steps -/

/-- The word placed for the next step is what that step runs, from reset. -/
theorem test_step_runs_placed_word :
    step (State.reset.withFetchWord 64 0x00000011FBEC0001) = .next { State.reset with out := [.response 0x00000011#32] } := by rfl

theorem test_host_byte_order :
    hostBytes .little (toWord (-1044)) = (0xEC#8, 0xFB#8) ∧ hostWord .little 0xEC#8 0xFB#8 = toWord (-1044) ∧
    hostBytes .big (toWord (-1044)) = (0xFB#8, 0xEC#8) ∧ hostWord .big 0xFB#8 0xEC#8 = toWord (-1044) := by decide

/-! ### Witnesses: for each statement that has hypotheses, a concrete case that meets them, at the ends of its ranges -/

theorem coeff_slotAll (x : Int) {i : Nat} (h : i < 256) : coeff (slotAll x) i = s16 x := by
  unfold coeff slotAll
  rw [List.getD_replicate (h := h), toInt_toWord]

theorem coeff_slotOf (xs : List Int) {i : Nat} (h : i < 256) : coeff (slotOf xs) i = s16 (xs.getD i 0) := by
  simp [coeff, slotOf, List.getD, h]

theorem within_slotAll {B x : Int} (h : -B ≤ s16 x) (h' : s16 x ≤ B) : Within B (slotAll x) :=
  fun i hi => by rw [coeff_slotAll x hi]; exact ⟨h, h'⟩

/-- Two words within a bound, the others 0. -/
theorem within_slotOf {B x y : Int} (h : -B ≤ s16 x ∧ s16 x ≤ B) (h' : -B ≤ s16 y ∧ s16 y ≤ B) (h0 : 0 ≤ B) :
    Within B (slotOf [x, y]) := fun i hi => by
  rw [coeff_slotOf _ hi]
  rcases i with _ | _ | i
  · exact h
  · exact h'
  · simp only [List.getD_cons_succ, List.getD_nil, s16, Int.zero_bmod]
    omega

theorem test_witness_ResetMeetsInvariant : Config.wf ⟨9, 1, .big⟩ ∧ Config.wf ⟨256, 4, .little⟩ := by decide

/-- A slot written with ones and marked, and `NTT s0` issued. -/
def markedState : State :=
  { loaded [(0, slotAll 1)] with
    ghost := [(0, ⟨some .std, some 0, some 1⟩)], hostWrote := [(0, ())], port := [.issue 0 0x0000000000000010#64] }

theorem markedState_words : ∀ i < 256, markedState.cm.read (wordAddr 0 i) = some 1 := by decide +kernel

theorem test_witness_StepKeepsStateInvariant : markedState.Inv ∧ ∃ t, step markedState = .next t :=
  ⟨⟨by decide +kernel, by decide +kernel, by decide +kernel, by decide +kernel, by decide +kernel,
    (fun g hg i hi => by rw [List.mem_singleton.1 hg, markedState_words i hi]; rfl), by decide +kernel, by decide +kernel⟩, _, rfl⟩

theorem test_witness_StepKeepsBoundsTrue : markedState.BoundsTrue ∧ ∃ t, step markedState = .next t := by
  refine ⟨fun n b h => ?_, _, rfl⟩
  by_cases hn : n = 0
  · subst hn
    have hb : some 1 = some b := h
    injection hb with hb
    subst hb
    exact fun i hi => ⟨1, markedState_words i hi, by decide⟩
  · have : markedState.ghostOf n = Ghost.unknown := by simp [State.ghostOf, markedState, storeGet, Ne.symm hn]
    rw [this] at h
    simp [Ghost.unknown] at h

theorem test_witness_DecodeOfEncodedInstruction :
    (Instr.vacc 4 true 255 255 255).wf = true ∧ (Instr.vacc 2 false 0 0 0).wf = true ∧
    (Instr.fqmul (toWord (-32768)) (toWord 32767)).wf = true := by decide

theorem test_witness_EncodeOfDecodedWord : decode 0x000000FFFFFF0C33#64 = .instr (.vacc 4 true 255 255 255) := by decide

theorem test_witness_EncodedWordIsSumOfFields : (7 : Nat) < 8 ∧ (255 : Nat) < 256 := by decide

theorem test_witness_OtherOpcodesAreRefused :
    (0xFFFFFFFFFFFFFF34#64).extractLsb' 0 8 = 0x34#8 ∧
    0x34 ∉ [0x01, 0x02, 0x10, 0x11, 0x20, 0x21, 0x22, 0x23, 0x30, 0x31, 0x32, 0x33] := by decide

theorem test_witness_FieldsOutsideTheMaskAreRefused :
    (0x0000010000050010#64).extractLsb' 0 8 = 0x10#8 ∧ 0x0000010000050010#64 &&& 0xFFFFFFFFFF00FFFF#64 ≠ 0x10#64 ∧
    (0x0000000000000130#64).extractLsb' 0 8 = 0x30#8 ∧ ((0x0000000000000130#64).extractLsb' 8 3).toNat ∉ [2, 3, 4] ∧
    ((0x0000000000000530#64).extractLsb' 8 3).toNat ∉ [2, 3, 4] ∧
    ¬(0x00000000000D0430#64 &&& 0xFFFFFFFFFF00F8FF#64 ≠ 0x30#64 ∨ ((0x00000000000D0430#64).extractLsb' 8 3).toNat ∉ [2, 3, 4]) := by
  decide

theorem test_witness_SlotsBeyondMemoryAreRefused :
    State.reset.cfg.nslot = 16 ∧ 16 + 1 > 16 ∧ 13 + 4 > 16 ∧ 14 + 3 > 16 ∧ 15 + 2 > 16 ∧ ¬(13 + 3 > 16) := by decide

/-- The two ends of each kind of overlap. -/
theorem test_witness_ForbiddenOverlapsAreRefused :
    State.reset.cfg.nslot = 16 ∧ (12 + 4 ≤ 16 ∧ 9 + 4 ≤ 16 ∧ 9 < 12 ∧ 12 - 9 < 4) ∧ (0 + 2 ≤ 16 ∧ 1 + 2 ≤ 16 ∧ 0 < 1 ∧ 1 - 0 < 2) ∧
    (15 < 16 ∧ 12 + 4 ≤ 16 ∧ 0 + 4 ≤ 16 ∧ 12 ≤ 15 ∧ 15 < 12 + 4) ∧ admission 16 (.vaddr 4 12 9) = .overlap ∧
    admission 16 (.vacc 4 false 15 0 12) = .overlap := by decide

theorem test_witness_RefusalsHaveTheirPriority :
    decode 0x00000000C9C80532#64 = .refused .illegalField ∧ decode 0xFFFFFFFFFFFFFF00#64 = .refused .illegalOpcode ∧
    (15 ≠ 16 ∧ 15 < 16 + 2 ∧ 16 < 15 + 2 ∧ 16 + 2 > State.reset.cfg.nslot) ∧
    (14 ≠ 13 ∧ 14 < 13 + 2 ∧ 13 < 14 + 2 ∧ ¬(14 + 2 > State.reset.cfg.nslot ∨ 13 + 2 > State.reset.cfg.nslot)) ∧
    (14 ≤ 15 ∧ 15 < 14 + 2 ∧ ¬(15 + 1 > State.reset.cfg.nslot ∨ 14 + 2 > State.reset.cfg.nslot)) ∧
    (15 ≤ 16 ∧ 16 < 15 + 2 ∧ 15 + 2 > State.reset.cfg.nslot) := by decide

theorem test_witness_RefusedCommandChangesNothing :
    wordStatus State.reset.cfg.nslot 0x0000000000100020#64 = .slotRange ∧
    wordStatus State.reset.cfg.nslot 0x0000000001000232#64 = .overlap ∧ wordStatus State.reset.cfg.nslot 0 = .illegalOpcode := by
  decide

theorem test_witness_RefusalLeavesNoTrace :
    wordStatus State.reset.cfg.nslot 0x0000000000050210#64 ≠ .ok ∧ wordStatus State.reset.cfg.nslot 0x0000000000050010#64 = .ok := by
  decide

theorem test_witness_StepRunsIssuedInstruction :
    (State.reset.withFetchWord 64 0x0000000000050010).port = .issue 0 0x0000000000050010#64 :: [] ∧
    0 < (State.reset.withFetchWord 64 0x0000000000050010).cfg.neng ∧ decode 0x0000000000050010#64 = .instr (.ntt 5) ∧
    decode 0#64 = .refused .illegalOpcode := by decide

/-- Every kind of action, at the last engine, the last address and the last slot. -/
theorem test_witness_AdmittedActionsNeverStop :
    ∀ ev ∈ [HostEvent.issue 1 0, .access (.read 4095), .access (.write 4095 7),
      .together [(0, 0x0000000000000010#64), (1, 0x0000000000010011#64)] [.write 512 1], .mark 15 (some .std) (some 0), .reset [(0, 0)]],
      actionAdmitted ⟨16, 2, .little⟩ ev := by
  simp only [List.mem_cons, List.not_mem_nil, or_false, forall_eq_or_imp, forall_eq, actionAdmitted]
  decide

theorem test_witness_ActionsOutsideTheSpecStop :
    4096 ≥ 256 * State.reset.cfg.nslot ∧ 1 ≥ State.reset.cfg.neng ∧ 0 < State.reset.cfg.neng := by decide

theorem test_witness_HostReadGivesWhatHostWrote : 4095 < 256 * State.reset.cfg.nslot ∧ 0 < 256 * State.reset.cfg.nslot := by decide

theorem test_witness_AddersWrapModulo65536 :
    (-32768 ≤ (toWord 16384).toInt + (toWord 16383).toInt ∧ (toWord 16384).toInt + (toWord 16383).toInt ≤ 32767) ∧
    (-32768 ≤ (toWord (-32768)).toInt - (toWord 0).toInt ∧ (toWord (-32768)).toInt - (toWord 0).toInt ≤ 32767) := by decide

theorem test_witness_FqmulIsMontgomeryProduct : |(toWord 32767).toInt * (toWord 3329).toInt| < 109084672 := by decide

theorem test_witness_BarrettGivesCentredResidue : (toWord 32767).toInt ≡ (toWord (-523)).toInt [ZMOD 3329] := by decide

theorem test_witness_ButterfliesKeepTheirBounds :
    (|(toWord 29439).toInt| ≤ 29439 ∧ |(toWord 32767).toInt * (toWord 1664).toInt| < 109084672) ∧
    (|(toWord (-16383)).toInt| ≤ 16383 ∧ |(toWord 16383).toInt| ≤ 16383 ∧ |(toWord (-1664)).toInt| ≤ 1664) := by decide

theorem test_witness_BasemulMultipliesModuloQuadratic :
    (toWord (-1103)).toInt ≡ 65536 * 17 [ZMOD 3329] ∧ |(toWord (-1103)).toInt| ≤ 1664 ∧
    ∀ w ∈ [toWord 20682, toWord (-20682), toWord 0, toWord 1], |w.toInt| ≤ 20682 := by
  refine ⟨by decide, by decide, fun w hw => ?_⟩
  simp only [List.mem_cons, List.not_mem_nil, or_false] at hw
  rcases hw with rfl | rfl | rfl | rfl <;> decide

/-- The last slot of the default memory: for RedReducesEveryWord, AddrAddsAndReduces, AddaddrAddsThreeAndReduces,
NttTransformsItsSlot and InttTransformsItsSlot. -/
theorem test_witness_slot_commands : 15 < State.reset.cfg.nslot ∧ 0 < State.reset.cfg.nslot := by decide

theorem test_witness_SubrSubtractsAndReduces : (loaded [(0, slotAll 5)]).Written 0 ∧ 0 < (loaded [(0, slotAll 5)]).cfg.nslot := by
  unfold State.Written
  decide +kernel

theorem test_witness_SumsWithinRangeAreExact :
    ((toWord 16383).toInt + (toWord 16384).toInt ≤ 32767 ∧ -32768 ≤ (toWord 0).toInt - (toWord 32767).toInt) ∧
    ((toWord 20000).toInt + (toWord 20000).toInt + (toWord (-20000)).toInt ≤ 32767) ∧
    (toWord 32767).toInt + (toWord 1).toInt > 32767 ∧ (toWord (-32768)).toInt + (toWord (-1)).toInt < -32768 := by decide

/-- Also for NttGivesResiduesModuloQuadratics, RoundTripMultipliesByR and the two merged schedules. -/
theorem test_witness_NttWordsGrowByQPerLayer :
    (slotAll 9464).length = 256 ∧ Within 9464 (slotAll 9464) ∧ (9464 : Int) + 7 * 3328 ≤ 32767 :=
  ⟨by simp [slotAll], within_slotAll (by decide) (by decide), by decide⟩

/-- Also for InttGivesInverseSumTimesR. -/
theorem test_witness_InttWordsStayBelowQ : (slotAll (-16383)).length = 256 ∧ Within 16383 (slotAll (-16383)) :=
  ⟨by simp [slotAll], within_slotAll (by decide) (by decide)⟩

/-- The polynomial 1 and its form, 1 in every even word. -/
theorem test_witness_InttInvertsNttForm :
    let a := slotOf [1]
    let b : Poly := (List.range 128).flatMap fun _ => [1, 0]
    a.length = 256 ∧ b.length = 256 ∧ Within 16383 b ∧ NttForm a b := by
  have hb : ∀ p < 128, ∀ e < 2, coeff ((List.range 128).flatMap fun _ => [1, 0]) (2 * p + e) = if e = 0 then 1 else 0 := by
    intro p hp e he
    unfold coeff
    rw [flatMap_pair_getD (fun _ => (1 : Word)) (fun _ => 0) 0 128 p e hp he]
    split_ifs <;> decide
  refine ⟨by simp [slotOf], by decide, fun i hi => ?_, fun p hp e he => ?_⟩
  · have h := hb (i / 2) (by omega) (i % 2) (by omega)
    rw [show 2 * (i / 2) + i % 2 = i by omega] at h
    rw [h]
    split_ifs <;> decide
  · have ha : ∀ i < 128, coeff (slotOf [1]) (2 * i + e) = if e = 0 ∧ i = 0 then 1 else 0 := by
      intro i hi
      rw [coeff_slotOf _ (by omega)]
      by_cases h : 2 * i + e = 0
      · rw [h, if_pos (by omega)]
        decide
      · obtain ⟨j, hj⟩ := Nat.exists_eq_succ_of_ne_zero h
        rw [hj, if_neg (by omega)]
        simp [s16]
    have hs : sumTo 128 (fun i => coeff (slotOf [1]) (2 * i + e) * gamma p ^ i) = if e = 0 then 1 else 0 := by
      unfold sumTo
      rw [Finset.sum_eq_single_of_mem 0 (by simp) fun i hi hne => by rw [ha i (by simpa using hi)]; simp [hne], ha 0 (by decide)]
      simp
    rw [hs, hb p hp e he]

theorem test_witness_NttIsLinear :
    Within 9464 (slotOf [1, 2]) ∧ Within 9464 (slotOf [3328, 3328]) ∧ Within 9464 (slotOf [0, 1]) ∧
    ∀ i < 256, coeff (slotOf [0, 1]) i ≡ coeff (slotOf [1, 2]) i + coeff (slotOf [3328, 3328]) i [ZMOD 3329] := by
  refine ⟨within_slotOf (by decide) (by decide) (by decide), within_slotOf (by decide) (by decide) (by decide),
    within_slotOf (by decide) (by decide) (by decide), fun i hi => ?_⟩
  rw [coeff_slotOf _ hi, coeff_slotOf _ hi, coeff_slotOf _ hi]
  rcases i with _ | _ | i
  · decide
  · decide
  · simp [s16]

/-- For VnttTransformsEachElement, VinttTransformsEachElement, VaddrAddsEachElement and VaccWritesTheInnerProduct. -/
theorem test_witness_vector_commands :
    (14 + 2 ≤ State.reset.cfg.nslot ∧ 13 + 3 ≤ State.reset.cfg.nslot ∧ 12 + 4 ≤ State.reset.cfg.nslot) ∧
    (8 + 4 ≤ 12 ∧ ¬(0 ≤ 4 ∧ 4 < 0 + 4) ∧ ¬(12 ≤ 4 ∧ 4 < 12 + 4) ∧ 4 < State.reset.cfg.nslot) := by decide

theorem test_witness_VaccGivesInnerProductModuloQuadratics :
    ∀ nB ∈ [(2, 20682), (3, 15774), (4, (12622 : Int))],
      let ops := List.replicate nB.1 (slotAll nB.2, slotAll (-nB.2))
      (ops.length, nB.2) ∈ [(2, 20682), (3, 15774), (4, (12622 : Int))] ∧
      ∀ ab ∈ ops, ab.1.length = 256 ∧ ab.2.length = 256 ∧ Within nB.2 ab.1 ∧ Within nB.2 ab.2 := by
  have h : ∀ B ∈ [20682, 15774, (12622 : Int)], Within B (slotAll B) ∧ Within B (slotAll (-B)) := fun B hB => by
    simp only [List.mem_cons, List.not_mem_nil, or_false] at hB
    rcases hB with rfl | rfl | rfl <;> exact ⟨within_slotAll (by decide) (by decide), within_slotAll (by decide) (by decide)⟩
  have hl : ∀ x, (slotAll x).length = 256 := fun x => by simp [slotAll]
  intro nB hn
  refine ⟨by simpa using hn, fun ab hab => ?_⟩
  rw [List.eq_of_mem_replicate hab]
  have hB : nB.2 ∈ [20682, 15774, (12622 : Int)] := by
    simp only [List.mem_cons, List.not_mem_nil, or_false] at hn ⊢
    rcases hn with rfl | rfl | rfl <;> simp
  exact ⟨hl _, hl _, h _ hB⟩

theorem test_witness_PipelineGivesNegacyclicInnerProduct :
    let ops := [(slotAll 3328, slotAll (-3328)), (slotOf [1, 0], slotOf [0, 1])]
    ops.length ∈ [2, 3, 4] ∧ ∀ ab ∈ ops, ab.1.length = 256 ∧ ab.2.length = 256 ∧ Within 3328 ab.1 ∧ Within 3328 ab.2 := by
  have hl : ∀ x, (slotAll x).length = 256 := fun x => by simp [slotAll]
  have ho : ∀ xs, (slotOf xs).length = 256 := fun xs => by simp [slotOf]
  simp only [List.length_cons, List.length_nil, List.mem_cons, List.not_mem_nil, or_false, forall_eq_or_imp, forall_eq]
  exact ⟨by decide, ⟨hl _, hl _, within_slotAll (by decide) (by decide), within_slotAll (by decide) (by decide)⟩,
    ho _, ho _, within_slotOf (by decide) (by decide) (by decide), within_slotOf (by decide) (by decide) (by decide)⟩

theorem test_witness_CommandsWriteOnlyTheirFootprint :
    (∃ t, exec (.ntt 15) State.reset = .next t) ∧ ∃ t, exec (.ntt 16) State.reset = .next t := ⟨⟨_, rfl⟩, _, rfl⟩

/-- Two states that differ in a word of slot 2 agree on what `ADDR s1, s0` reads, written words and others. -/
theorem test_witness_CommandsReadOnlyTheirFootprint :
    let s : State := { State.reset with cm := [(0, 5), (511, 6), (512, 7)] }
    let s' : State := { State.reset with cm := [(0, 5), (511, 6), (512, 8)] }
    s.cfg = s'.cfg ∧ s.tick = s'.tick ∧ s.out = s'.out ∧ s.cm.read 512 ≠ s'.cm.read 512 ∧
      ∀ n ∈ (footprint (.addr 1 0)).reads, ∀ x < 256, s.cm.read (256 * n + x) = s'.cm.read (256 * n + x) := by
  decide +kernel

/-- `NTT s0` and `RED s1` on two written slots. -/
theorem test_witness_DisjointCommandsCommute :
    let s := (State.reset.setSlot 0 (slotAll 1)).setSlot 1 (slotAll 2)
    s.Inv ∧ collide (wordFootprint s.cfg.nslot 0x0000000000000010#64) (wordFootprint s.cfg.nslot 0x0000000000010020#64) = false ∧
      ∀ n ∈ (wordFootprint s.cfg.nslot 0x0000000000000010#64).reads ++ (wordFootprint s.cfg.nslot 0x0000000000010020#64).reads,
        s.Written n := by
  have hl : ∀ x, (slotAll x).length = 256 := fun x => by simp [slotAll]
  have hn : State.reset.cfg.nslot = 16 := rfl
  refine ⟨⟨by decide, writeRun_wf (writeRun_wf (by decide) _ _) _ _, fun c hc => ?_, by decide, by decide, (fun _ h => nomatch h), by decide, by decide⟩, by decide, ?_⟩
  · rw [setSlot_cfg, setSlot_cfg, hn]
    rcases mem_writeRun hc with hc | hc
    · rcases mem_writeRun hc with hc | hc
      · cases hc
      · rw [hl] at hc; unfold wordAddr at hc; omega
    · rw [hl] at hc; unfold wordAddr at hc; omega
  · intro n hn' i hi
    have : n = 0 ∨ n = 1 := by
      have : ∀ n ∈ (wordFootprint 16 0x0000000000000010#64).reads ++ (wordFootprint 16 0x0000000000010020#64).reads, n = 0 ∨ n = 1 := by
        decide
      exact this n hn'
    rcases this with rfl | rfl
    · rw [read_setSlot_other _ (hl 2) (by rw [wordAddr_div hi]; decide), read_setSlot_same _ 0 (hl 1) hi]; rfl
    · rw [read_setSlot_same _ 1 (hl 2) hi]; rfl

/-- Two engines: disjoint slots, a slot written by one and read by the other, and a host access to a slot being read. -/
theorem test_witness_SimultaneousCommandsNeedDisjointFootprints :
    let n := State.reset.cfg.nslot
    0 < (State.resetWith ⟨16, 2, .little⟩).cfg.neng ∧ 1 < (State.resetWith ⟨16, 2, .little⟩).cfg.neng ∧
    collide (wordFootprint n 0x0000000000000010#64) (wordFootprint n 0x0000000000010020#64) = false ∧
    collide (wordFootprint n 0x0000000000000010#64) (wordFootprint n 0x0000000000010021#64) = true ∧
    (HostAccess.read 255).addr / 256 ∈
      (wordFootprint n 0x0000000000010021#64).reads ++ (wordFootprint n 0x0000000000010021#64).writes := by decide

/-- Slots 0 to 3 in the NTT domain, slots 5 and 6 in standard order, all at scale 0; the host has written a word of slot 7 only. -/
def taggedState : State :=
  { State.reset with
    ghost := [(0, ⟨some .brev, some 0, none⟩), (1, ⟨some .brev, some 0, none⟩), (2, ⟨some .brev, some 0, none⟩),
      (3, ⟨some .brev, some 0, none⟩), (5, ⟨some .std, some 0, none⟩), (6, ⟨some .std, some 0, none⟩)]
    hostWrote := [(7, ())] }

theorem test_witness_TagsAndScalesFollowTheTables :
    (taggedState.ghostOf 5).tag = some .std ∧ (taggedState.ghostOf 0).tag = some .brev ∧ (taggedState.ghostOf 0).scale = some 0 ∧
    (∀ n ∈ [0, 1, 2], (taggedState.ghostOf n).tag = some .brev ∧ (taggedState.ghostOf n).scale = some 0) ∧
    admission taggedState.cfg.nslot (.vacc 2 true 4 0 2) = .ok ∧
    (∀ e < 2, (taggedState.ghostOf (0 + e)).tag = some .brev ∧ (taggedState.ghostOf (0 + e)).scale = some 0 ∧
      (taggedState.ghostOf (2 + e)).tag = some .brev ∧ (taggedState.ghostOf (2 + e)).scale = some 0) ∧
    (∃ t, exec (.ntt 5) taggedState = .next t) ∧ ∃ t, exec (.vacc 2 true 4 0 2) taggedState = .next t :=
  ⟨by decide, by decide, by decide, by decide, by decide, by decide, ⟨_, rfl⟩, _, rfl⟩

/-- The vector commands: both elements of `VNTT.k2 s5`, of `VINTT.k2 s0` and of `VADDR.k2 s0, s2`. -/
theorem test_witness_TagsAndScalesFollowTheTables_vectors :
    admission taggedState.cfg.nslot (.vntt 2 5) = .ok ∧ (∀ e < 2, (taggedState.ghostOf (5 + e)).tag = some .std) ∧
    admission taggedState.cfg.nslot (.vintt 2 0) = .ok ∧ admission taggedState.cfg.nslot (.vaddr 2 0 2) = .ok ∧
    (∀ e < 2, ∀ n ∈ [0 + e, 2 + e], (taggedState.ghostOf n).tag = some .brev ∧ (taggedState.ghostOf n).scale = some 0) ∧
    (∃ t, exec (.vntt 2 5) taggedState = .next t) ∧ (∃ t, exec (.vintt 2 0) taggedState = .next t) ∧
    ∃ t, exec (.vaddr 2 0 2) taggedState = .next t :=
  ⟨by decide, by decide, by decide, by decide, by decide, ⟨_, rfl⟩, ⟨_, rfl⟩, _, rfl⟩

/-- Marks: slot 15 the host has not written, slot 7 is not written whole, slot 0 of `markedState` is both. -/
theorem test_witness_TagsAndScalesFollowTheTables_marks :
    15 < taggedState.cfg.nslot ∧ storeGet taggedState.hostWrote 15 = none ∧
    storeGet taggedState.hostWrote 7 = some () ∧ ¬taggedState.Written 7 ∧
    0 < markedState.cfg.nslot ∧ storeGet markedState.hostWrote 0 = some () ∧ markedState.Written 0 :=
  ⟨by decide, by decide, by decide, (fun h => nomatch h 0 (by decide)), by decide, by decide,
    (fun i hi => by rw [markedState_words i hi]; rfl)⟩

/-- Slot 0 at the bound NTT needs, slot 1 at the one INTT needs, slots 2 to 4 with sums at the end of int16, slots 5 to 15 at what
VACC needs for K = 4, 3 and 2. -/
def boundedState : State :=
  { State.reset with ghost :=
      [(0, ⟨none, none, some 9464⟩), (1, ⟨none, none, some 16383⟩), (2, ⟨none, none, some 16384⟩), (3, ⟨none, none, some 16383⟩),
        (4, ⟨none, none, some 0⟩), (5, ⟨none, none, some 12622⟩), (6, ⟨none, none, some 12622⟩), (7, ⟨none, none, some 12622⟩),
        (8, ⟨none, none, some 12622⟩), (9, ⟨none, none, some 15774⟩), (10, ⟨none, none, some 15774⟩),
        (11, ⟨none, none, some 15774⟩), (12, ⟨none, none, some 20682⟩), (13, ⟨none, none, some 20682⟩)] }

theorem test_witness_RecordedBoundsFollowTheTable :
    (boundedState.ghostOf 0).bound = some 9464 ∧ (boundedState.ghostOf 1).bound = some 16383 ∧
    (boundedState.ghostOf 2).bound = some 16384 ∧ (boundedState.ghostOf 3).bound = some 16383 ∧ 16384 + 16383 ≤ 32767 ∧
    (boundedState.ghostOf 4).bound = some 0 ∧ 16384 + 16383 + 0 ≤ 32767 ∧
    admission boundedState.cfg.nslot (.vntt 2 14) = .ok ∧ admission boundedState.cfg.nslot (.vintt 2 5) = .ok ∧
    admission boundedState.cfg.nslot (.vaddr 4 5 9) = .ok ∧
    (∃ t, exec (.ntt 0) boundedState = .next t) ∧ (∃ t, exec (.addaddr 2 3 4) boundedState = .next t) ∧
    ∃ t, exec (.vaddr 4 5 9) boundedState = .next t :=
  ⟨by decide, by decide, by decide, by decide, by decide, by decide, by decide, by decide, by decide, by decide, ⟨_, rfl⟩, ⟨_, rfl⟩,
    _, rfl⟩

/-- The bound VACC needs, for each K. -/
theorem test_witness_RecordedBoundsFollowTheTable_vacc :
    ∀ c ∈ [(2, 20682, 12), (3, 15774, 9), (4, 12622, 5)],
      (c.1, c.2.1) ∈ [(2, 20682), (3, 15774), (4, 12622)] ∧ admission boundedState.cfg.nslot (.vacc c.1 true 15 c.2.2 c.2.2) = .ok ∧
      ∀ e < c.1, ∀ n ∈ [c.2.2 + e, c.2.2 + e], ∃ m, (boundedState.ghostOf n).bound = some m ∧ m ≤ c.2.1 := by
  simp only [List.mem_cons, List.not_mem_nil, or_false, forall_eq_or_imp, forall_eq]
  refine ⟨⟨by decide, by decide, fun e he => ?_⟩, ⟨by decide, by decide, fun e he => ?_⟩, ⟨by decide, by decide, fun e he => ?_⟩⟩
  · have h : (boundedState.ghostOf (12 + e)).bound = some 20682 := by revert e; decide
    exact ⟨⟨_, h, Nat.le_refl _⟩, _, h, Nat.le_refl _⟩
  · have h : (boundedState.ghostOf (9 + e)).bound = some 15774 := by revert e; decide
    exact ⟨⟨_, h, Nat.le_refl _⟩, _, h, Nat.le_refl _⟩
  · have h : (boundedState.ghostOf (5 + e)).bound = some 12622 := by revert e; decide
    exact ⟨⟨_, h, Nat.le_refl _⟩, _, h, Nat.le_refl _⟩

/-- A slot of which nothing is written takes no mark; a host write alone does not complete it (10_state R36). -/
theorem test_mark_needs_written_slot :
    handle (.mark 15 (some .std) (some 0)) taggedState = .next taggedState ∧
    handle (.mark 7 (some .std) (some 0)) taggedState = .next taggedState := ⟨rfl, rfl⟩

end Sys2Proof.Tests
end

section
/-! SUPPORT. The response word (30_encoding R78): its three fields, and the one response that every command word gets. -/

namespace Sys2Proof.Machine

/-! ### The fields of a response word -/

@[simp] theorem responseWord_result (st : Status) (v : Word) : (responseWord st v).extractLsb' 0 16 = v := by
  unfold responseWord
  rw [BitVec.extractLsb'_append_eq_right]

@[simp] theorem responseWord_status (st : Status) (v : Word) : (responseWord st v).extractLsb' 16 4 = statusCode st := by
  unfold responseWord
  rw [BitVec.extractLsb'_append_eq_of_le (by decide), BitVec.extractLsb'_append_eq_right]

@[simp] theorem responseWord_zero (st : Status) (v : Word) : (responseWord st v).extractLsb' 20 12 = 0#12 := by
  unfold responseWord
  rw [BitVec.extractLsb'_append_eq_of_le (by decide), BitVec.extractLsb'_append_eq_left]

/-- The codes 5 to 15 are never produced. -/
theorem statusCode_toNat_le (st : Status) : (statusCode st).toNat ≤ 4 := by cases st <;> decide

/-! ### The response to a command -/

/-- The two commands that have a result name no slot, so no check can refuse them. -/
theorem resultOf_of_refused {n : Nat} {i : Instr} (h : admission n i ≠ .ok) : resultOf i = 0 := by
  cases i
  case fqmul a b => exact absurd rfl h
  case barrett a => exact absurd rfl h
  all_goals rfl

theorem exec_answered (i : Instr) (s : State) :
    ∃ t, exec i s = .next t ∧ s.Answered t (responseWord (admission s.cfg.nslot i) (resultOf i)) := by
  by_cases h : admission s.cfg.nslot i = .ok
  · refine ⟨_, exec_ok h, ?_⟩
    rw [State.Answered, respond_out, (ruleOf_spec i s).2.1, h]
  · refine ⟨_, exec_refused h, ?_⟩
    rw [State.Answered, refuse_out, resultOf_of_refused h]

/-- The field RESULT of the response to a command word, whether it is performed or refused. -/
def wordResult (w : Command) : Word :=
  match decode w with
  | .instr i => resultOf i
  | .refused _ => 0

theorem runCommand_answered (w : Command) (s : State) :
    ∃ t, runCommand w s = .next t ∧ s.Answered t (responseWord (wordStatus s.cfg.nslot w) (wordResult w)) := by
  unfold runCommand wordStatus wordResult
  cases decode w with
  | instr i => exact exec_answered i s
  | refused st => exact ⟨_, rfl, refuse_out s st⟩

/-- Settles O9: the fields are those of `responseWord`, and every word is answered by one, with its status and its result. -/
theorem responseWordHasItsFields : Obligations.ResponseWordHasItsFields := by
  refine ⟨fun st v => ⟨responseWord_result st v, responseWord_zero st v, ?_⟩, fun w s => ?_⟩
  · rw [responseWord_status]
    cases st <;> rfl
  · obtain ⟨t, hrun, hans⟩ := runCommand_answered w s
    refine ⟨t, _, hrun, hans, responseWord_zero _ _, ?_, ?_⟩
    · rw [responseWord_status]
      exact statusCode_toNat_le _
    · rw [responseWord_result, wordResult]
      cases decode w with
      | instr i => cases i <;> rfl
      | refused st => rfl

end Sys2Proof.Machine
end

section
/-! SUPPORT. The refusals of 60_exceptions R192 to R198: what a refused word answers, which words the decoder refuses, and which
slot operands the admission check refuses. -/

namespace Sys2Proof.Machine

/-! ### What a refusal answers (R197) -/

theorem refuse_eq (s : State) (st : Status) :
    s.refuse st = { s with out := s.out ++ [.response (0#12 ++ statusCode st ++ 0#16)] } := rfl

theorem refuse_illegalOpcode (s : State) :
    s.refuse .illegalOpcode = { s with out := s.out ++ [.response 0x00010000#32] } := rfl

theorem refuse_illegalField (s : State) :
    s.refuse .illegalField = { s with out := s.out ++ [.response 0x00020000#32] } := rfl

theorem refuse_slotRange (s : State) :
    s.refuse .slotRange = { s with out := s.out ++ [.response 0x00030000#32] } := rfl

theorem refuse_overlap (s : State) :
    s.refuse .overlap = { s with out := s.out ++ [.response 0x00040000#32] } := rfl

/-- Without the response it delivered, the state after a refusal is the state before (R198). -/
theorem refuse_out_restored (s : State) (st : Status) : { s.refuse st with out := s.out } = s := rfl

theorem runCommand_of_wordStatus {w : Command} {s : State} {st : Status} (h : wordStatus s.cfg.nslot w = st) (hst : st ≠ .ok) :
    runCommand w s = .next (s.refuse st) := by
  subst h
  revert hst
  unfold wordStatus runCommand
  cases decode w with
  | instr i => exact exec_refused
  | refused st => exact fun _ => rfl

theorem runCommand_of_decode_refused {w : Command} {st : Status} (h : decode w = .refused st) (s : State) :
    runCommand w s = .next (s.refuse st) := by
  unfold runCommand
  rw [h]

/-! ### Words the decoder refuses (R192, R193) -/

/-- An opcode byte selects no row just if it is none of the twelve of R74. -/
theorem ofByte_eq_none {n : Nat} : Opcode.ofByte n = none ↔ n ∉ Opcode.all.map Opcode.byte := by simp [Opcode.ofByte]

/-- A word with an opcode outside the table is refused by the decoder, whatever its other bits are. -/
theorem decode_of_other_opcode {w : Command} (h : fieldOP w ∉ Opcode.all.map Opcode.byte) :
    decode w = .refused .illegalOpcode := by
  unfold decode
  rw [ofByte_eq_none.2 h]

theorem decode_of_byte {w : Command} {o : Opcode} (h : fieldOP w = o.byte) :
    decode w =
      if w &&& o.mask ≠ o.pattern then .refused .illegalField
      else if o.isVector && !vecLenLegal (fieldK w) then .refused .illegalField
      else .instr (o.build w) := by
  unfold decode
  rw [h, ofByte_byte]

theorem vecLenLegal_iff_mem (k : Nat) : vecLenLegal k = true ↔ k ∈ [2, 3, 4] := by simp [vecLenLegal]

/-- The two causes of ILLEGAL_FIELD in a word of row `o` (R193). -/
def FieldFault (o : Opcode) (w : Command) : Prop :=
  w &&& o.mask ≠ o.pattern ∨ (o.isVector = true ∧ fieldK w ∉ [2, 3, 4])

theorem decode_of_fieldFault {w : Command} {o : Opcode} (h : fieldOP w = o.byte) (hf : FieldFault o w) :
    decode w = .refused .illegalField := by
  rw [decode_of_byte h]
  rcases hf with hmask | ⟨hvec, hk⟩
  · rw [if_pos hmask]
  · rw [← vecLenLegal_iff_mem] at hk
    simp [hvec, hk]

theorem decode_of_not_fieldFault {w : Command} {o : Opcode} (h : fieldOP w = o.byte) (hf : ¬ FieldFault o w) :
    decode w = .instr (o.build w) := by
  obtain ⟨hmask, hvec⟩ := not_or.1 hf
  rw [← vecLenLegal_iff_mem] at hvec
  rw [decode_of_byte h, if_neg hmask, if_neg (by simpa using hvec)]

/-- A row of the table of R74: opcode, mask, and whether the command is a vector one. -/
def tableRow (o : Opcode) : Nat × Command × Bool := (o.byte, o.mask, o.isVector)

/-! ### Slot operands that are refused (R194, R195) -/

theorem slotsInRange_eq_false {n : Nat} {i : Instr} :
    slotsInRange n i = false ↔ ∃ o ∈ slotOperands i, o.1 + o.2 > n := by simp [slotsInRange]

theorem admission_slotRange {n : Nat} {i : Instr} (hl : lengthLegal i = true) (hr : ∃ o ∈ slotOperands i, o.1 + o.2 > n) :
    admission n i = .slotRange := by
  simp [admission, hl, slotsInRange_eq_false.2 hr]

theorem admission_overlap {n : Nat} {i : Instr} (hl : lengthLegal i = true) (hr : ¬ ∃ o ∈ slotOperands i, o.1 + o.2 > n)
    (ho : overlaps i = true) : admission n i = .overlap := by
  simp [admission, hl, mt slotsInRange_eq_false.1 hr, ho]

/-- OVERLAP is reported for an overlap only. -/
theorem overlaps_of_admission {n : Nat} {i : Instr} (h : admission n i = .overlap) : overlaps i = true := by
  unfold admission at h
  split_ifs at h with _ _ ho
  exact ho

theorem exec_of_admission {i : Instr} {s : State} {st : Status} (h : admission s.cfg.nslot i = st) (hst : st ≠ .ok) :
    exec i s = .next (s.refuse st) := by
  subst h
  exact exec_refused hst

theorem exec_slotRange {i : Instr} {s : State} (hl : lengthLegal i = true)
    (hr : ∃ o ∈ slotOperands i, o.1 + o.2 > s.cfg.nslot) : exec i s = .next (s.refuse .slotRange) :=
  exec_of_admission (admission_slotRange hl hr) (by decide)

/-- A command with a forbidden overlap: the range check comes first (R196). -/
theorem exec_of_overlaps {i : Instr} {s : State} (hl : lengthLegal i = true) (ho : overlaps i = true) :
    exec i s =
      .next (s.refuse (if ∃ o ∈ slotOperands i, o.1 + o.2 > s.cfg.nslot then .slotRange else .overlap)) := by
  split_ifs with hr
  · exact exec_slotRange hl hr
  · exact exec_of_admission (admission_overlap hl hr ho) (by decide)

theorem overlaps_vaddr (k d a : Nat) : overlaps (.vaddr k d a) = true ↔ d ≠ a ∧ d < a + k ∧ a < d + k := decide_eq_true_iff

theorem overlaps_vacc (k d a b : Nat) (tm : Bool) :
    overlaps (.vacc k tm d a b) = true ↔ a ≤ d ∧ d < a + k ∨ b ≤ d ∧ d < b + k := by simp [overlaps, inRange]

/-- VADDR with ranges that intersect and differ. -/
theorem exec_vaddr_of_overlap {s : State} {k d a : Nat} (hk : k = 2 ∨ k = 3 ∨ k = 4) (ho : d ≠ a ∧ d < a + k ∧ a < d + k) :
    exec (.vaddr k d a) s =
      .next (s.refuse (if d + k > s.cfg.nslot ∨ a + k > s.cfg.nslot then .slotRange else .overlap)) := by
  simpa [slotOperands] using exec_of_overlaps (i := .vaddr k d a) (s := s) (decide_eq_true hk) ((overlaps_vaddr k d a).2 ho)

/-- VACC with its destination in a source vector. -/
theorem exec_vacc_of_overlap {s : State} {k d a b : Nat} {tm : Bool} (hk : k = 2 ∨ k = 3 ∨ k = 4)
    (ho : a ≤ d ∧ d < a + k ∨ b ≤ d ∧ d < b + k) :
    exec (.vacc k tm d a b) s =
      .next (s.refuse
        (if d + 1 > s.cfg.nslot ∨ a + k > s.cfg.nslot ∨ b + k > s.cfg.nslot then .slotRange else .overlap)) := by
  simpa [slotOperands] using
    exec_of_overlaps (i := .vacc k tm d a b) (s := s) (decide_eq_true hk) ((overlaps_vacc k d a b tm).2 ho)

/-! ### The statements -/

/-- Settles O11: the table's rows are those of `Opcode`, and a word of a row decodes just if it has no field fault. -/
theorem fieldsOutsideTheMaskAreRefused : Obligations.FieldsOutsideTheMaskAreRefused := by
  refine ⟨List.forall_mem_map (f := tableRow) (l := Opcode.all) |>.2 fun o _ w s hop => ?_, fun w hw s => ?_⟩
  · split_ifs with hf
    · exact runCommand_of_decode_refused (decode_of_fieldFault hop hf) s
    · exact ⟨_, decode_of_not_fieldFault hop hf⟩
  · refine runCommand_of_decode_refused (st := .illegalField) ?_ s
    fin_cases hw <;> decide

/-- Settles O12: each clause names one operand of the command beyond NSLOT. -/
theorem slotsBeyondMemoryAreRefused : Obligations.SlotsBeyondMemoryAreRefused := by
  refine ⟨fun s k d a b tm hk => ?_, fun w hw s hn => ?_, by decide⟩
  · have hk : vecLenLegal k = true := decide_eq_true hk
    refine ⟨fun h => ⟨exec_slotRange rfl ?_, exec_slotRange rfl ?_, exec_slotRange rfl ?_⟩,
      fun h => ⟨exec_slotRange rfl ?_, exec_slotRange rfl ?_⟩, fun h => exec_slotRange rfl ?_,
      fun h => ⟨exec_slotRange hk ?_, exec_slotRange hk ?_⟩, fun h => exec_slotRange hk ?_, fun h => exec_slotRange hk ?_⟩
    all_goals simpa [slotOperands] using h
  · refine runCommand_of_wordStatus (st := .slotRange) ?_ (by decide)
    rw [hn]
    fin_cases hw <;> decide

/-- Settles O13: with every operand in range the overlap is what is reported, and only VADDR and VACC have one. -/
theorem forbiddenOverlapsAreRefused : Obligations.ForbiddenOverlapsAreRefused := by
  refine ⟨fun s k d a b tm hk => ⟨fun hd ha ho => ?_, fun hd ha hb ho => ?_⟩, fun n i h => ?_, fun w hw s hn => ?_, by decide⟩
  · rw [exec_vaddr_of_overlap hk (by omega), if_neg (by omega), refuse_overlap]
  · rw [exec_vacc_of_overlap hk ho, if_neg (by omega), refuse_overlap]
  · have ho := overlaps_of_admission h
    cases i
    case vaddr k d a => exact .inl ⟨k, d, a, rfl⟩
    case vacc k tm d a b => exact .inr ⟨k, tm, d, a, b, rfl⟩
    all_goals cases ho
  · refine runCommand_of_wordStatus (st := .overlap) ?_ (by decide)
    rw [hn]
    fin_cases hw <;> decide

/-- Settles O15: a refused word is answered by `State.refuse` alone. -/
theorem refusedCommandChangesNothing : Obligations.RefusedCommandChangesNothing := fun w s h => by
  rw [runCommand_of_wordStatus rfl h, refuse_eq]

/-- Settles O16: a refusal leaves nothing but its response behind. -/
theorem refusalLeavesNoTrace : Obligations.RefusalLeavesNoTrace := fun _ w' s h =>
  ⟨_, runCommand_of_wordStatus rfl h, congrArg (runCommand w') (refuse_out_restored s _)⟩

/-- Settles O10: the decoder refuses the word by its low byte alone. -/
theorem otherOpcodesAreRefused : Obligations.OtherOpcodesAreRefused := by
  have key (w : Command) (s : State) (h : fieldOP w ∉ Opcode.all.map Opcode.byte) :
      runCommand w s = .next { s with out := s.out ++ [.response 0x00010000#32] } := by
    rw [runCommand_of_decode_refused (decode_of_other_opcode h), refuse_illegalOpcode]
  refine ⟨key, fun w hw s => key w s ?_⟩
  fin_cases hw <;> decide

/-- Settles O14: the decoder's two refusals come before any look at NSLOT, and the range check before the overlap check. -/
theorem refusalsHaveTheirPriority : Obligations.RefusalsHaveTheirPriority :=
  ⟨fun _ s h => runCommand_of_decode_refused (decode_of_other_opcode h) s,
    fun _ _ s h => runCommand_of_decode_refused h s,
    fun _ _ _ _ hk hne hd ha => exec_vaddr_of_overlap hk ⟨hne, hd, ha⟩,
    fun _ _ _ _ _ _ hk ho => exec_vacc_of_overlap hk ho,
    fun s hn =>
      ⟨runCommand_of_decode_refused (by decide) s,
        runCommand_of_wordStatus (by rw [hn]; decide) (by decide),
        runCommand_of_decode_refused (by decide) s⟩⟩

end Sys2Proof.Machine
end

section
/-! SUPPORT. What every step keeps: a property that each part of a step keeps is kept by the step, so that an invariant is proved by
the parts alone. Then what a command word does, whatever it is, and the actions that are admitted or stopped. -/

namespace Sys2Proof.Machine

/-! ### What a command does, said once -/

theorem refuse_sameBut (s : State) (st : Status) (ws : List Nat) : s.SameBut (s.refuse st) ws :=
  ⟨fun _ _ => rfl, fun _ _ => rfl, rfl, rfl, rfl⟩

/-- What an instruction does, performed or refused: it always answers, changes only what its footprint says, and leaves every slot it
writes written. -/
theorem exec_spec (i : Instr) (s : State) :
    ∃ t, exec i s = .next t ∧ s.SameBut t (if admission s.cfg.nslot i = .ok then (footprint i).writes else []) ∧
      s.Answered t (responseWord (admission s.cfg.nslot i) (resultOf i)) ∧
      t.tick = s.tick + (if admission s.cfg.nslot i = .ok then readsOf i else 0) ∧
      ∀ n ∈ (if admission s.cfg.nslot i = .ok then (footprint i).writes else []), ∃ p, t.Holds n p := by
  obtain ⟨t, ht, hans⟩ := exec_answered i s
  refine ⟨t, ht, ?_⟩
  by_cases h : admission s.cfg.nslot i = .ok
  · obtain ⟨hsame, -, htick, hholds⟩ := ruleOf_spec i s
    rw [exec_ok h] at ht
    injection ht with ht
    simp only [h, if_true] at hans ⊢
    subst ht
    exact ⟨⟨hsame.words, hsame.ghosts, hsame.cfg, hsame.port, hsame.hostWrote⟩, hans, htick, hholds⟩
  · rw [exec_refused h] at ht
    injection ht with ht
    simp only [h, if_false]
    subst ht
    exact ⟨refuse_sameBut s _ [], hans, rfl, by simp⟩

/-- How many reads a command word counts. -/
def wordReads (nslot : Nat) (w : Command) : Nat :=
  match decode w with
  | .instr i => if admission nslot i = .ok then readsOf i else 0
  | .refused _ => 0

theorem wordFootprint_of_instr {w : Command} {i : Instr} (h : decode w = .instr i) (n : Nat) :
    wordFootprint n w = if admission n i = .ok then footprint i else ⟨[], []⟩ := by simp [wordFootprint, h]

theorem wordFootprint_of_refused {w : Command} {st : Status} (h : decode w = .refused st) (n : Nat) :
    wordFootprint n w = ⟨[], []⟩ := by simp [wordFootprint, h]

/-- What a command word does, whatever it is. -/
theorem runCommand_spec (w : Command) (s : State) :
    ∃ t, runCommand w s = .next t ∧ s.SameBut t (wordFootprint s.cfg.nslot w).writes ∧
      s.Answered t (responseWord (wordStatus s.cfg.nslot w) (wordResult w)) ∧
      t.tick = s.tick + wordReads s.cfg.nslot w ∧ ∀ n ∈ (wordFootprint s.cfg.nslot w).writes, ∃ p, t.Holds n p := by
  unfold runCommand wordStatus wordResult wordReads
  cases h : decode w with
  | instr i =>
    have hw : (wordFootprint s.cfg.nslot w).writes = if admission s.cfg.nslot i = .ok then (footprint i).writes else [] := by
      rw [wordFootprint_of_instr h]
      split_ifs <;> rfl
    rw [hw]
    exact exec_spec i s
  | refused st =>
    rw [wordFootprint_of_refused h]
    exact ⟨_, rfl, refuse_sameBut s st [], refuse_out s st, rfl, by simp⟩

/-- A word that answers either runs the rule of an admitted instruction or is refused. -/
theorem runCommand_cases {w : Command} {s t : State} (h : runCommand w s = .next t) :
    (∃ i, decode w = .instr i ∧ admission s.cfg.nslot i = .ok ∧ t = (ruleOf i s).respond .ok (resultOf i)) ∨
      ∃ st, t = s.refuse st := by
  rw [runCommand_eq] at h
  cases hd : decode w with
  | instr i =>
    simp only [hd] at h
    split_ifs at h with ha <;> injection h with h
    · exact .inl ⟨i, rfl, ha, h.symm⟩
    · exact .inr ⟨_, h.symm⟩
  | refused st =>
    simp only [hd] at h
    injection h with h
    exact .inr ⟨st, h.symm⟩

/-! ### Keeping a property -/

/-- Every part a step is made of keeps `P`. -/
structure StepClosed (P : State → Prop) : Prop where
  model : ∀ (s : State) (tick : Nat) (port : List HostEvent) (out : List Delivery), P s →
    P { s with tick := tick, port := port, out := out }
  rule : ∀ (s : State) (i : Instr), admission s.cfg.nslot i = .ok → P s → P (ruleOf i s)
  write : ∀ (s : State) (a : Nat) (v : Word), a < 256 * s.cfg.nslot → P s → P (hostWrite a v s)
  mark : ∀ (s : State) (n : Nat) (tag : Option OrderTag) (scale : Option Int), n < s.cfg.nslot → s.markable n = true → P s →
    P (s.setGhost n ⟨tag, scale, s.slotBound n⟩)
  reset : ∀ s : State, P s → P (resetPulse s)

namespace StepClosed

variable {P : State → Prop} {s t : State}

theorem keeps_runCommand (h : StepClosed P) {w : Command} (hs : P s) (ht : runCommand w s = .next t) : P t := by
  rcases runCommand_cases ht with ⟨i, -, ha, rfl⟩ | ⟨st, rfl⟩
  · exact h.model _ _ _ _ (h.rule s i ha hs)
  · exact h.model _ _ _ _ hs

theorem keeps_hostAccess (h : StepClosed P) {x : HostAccess} (hs : P s) (ht : hostAccess x s = .next t) : P t := by
  unfold hostAccess at ht
  split_ifs at ht with ha
  cases x with
  | read a =>
    injection ht with ht
    subst ht
    exact h.model _ _ _ _ hs
  | write a v =>
    injection ht with ht
    subst ht
    exact h.write s a v (of_decide_eq_true ha) hs

theorem keeps_runJobs (h : StepClosed P) (jobs : List (Nat × Command)) (hs : P s) (ht : runJobs jobs s = .next t) : P t := by
  induction jobs generalizing s with
  | nil =>
    injection ht with ht
    exact ht ▸ hs
  | cons j jobs ih =>
    obtain ⟨u, hu, hut⟩ := andThen_eq_next ht
    exact ih (h.keeps_runCommand hs hu) hut

theorem keeps_runAccesses (h : StepClosed P) (xs : List HostAccess) (hs : P s) (ht : runAccesses xs s = .next t) : P t := by
  induction xs generalizing s with
  | nil =>
    injection ht with ht
    exact ht ▸ hs
  | cons x xs ih =>
    obtain ⟨u, hu, hut⟩ := andThen_eq_next ht
    exact ih (h.keeps_hostAccess hs hu) hut

theorem keeps_runTogether (h : StepClosed P) {jobs : List (Nat × Command)} {xs : List HostAccess} (hs : P s)
    (ht : runTogether jobs xs s = .next t) : P t := by
  unfold runTogether at ht
  split at ht
  · cases ht
  · split_ifs at ht
    obtain ⟨u, hu, hut⟩ := andThen_eq_next ht
    exact h.keeps_runAccesses xs (h.keeps_runJobs jobs hs hu) hut

theorem keeps_handle (h : StepClosed P) {ev : HostEvent} (hs : P s) (ht : handle ev s = .next t) : P t := by
  cases ev with
  | issue engine w =>
    simp only [handle, issueCommand] at ht
    split_ifs at ht
    exact h.keeps_runCommand hs ht
  | access x => exact h.keeps_hostAccess hs ht
  | together jobs xs => exact h.keeps_runTogether hs ht
  | mark n tag scale =>
    simp only [handle, markSlot_eq] at ht
    split_ifs at ht with hn hm <;> injection ht with ht <;> subst ht
    · exact h.mark s n tag scale hn hm hs
    · exact hs
  | reset running =>
    injection ht with ht
    exact ht ▸ h.reset s hs

/-- A property every part of a step keeps is kept by the step. -/
theorem keeps_step (h : StepClosed P) (hs : P s) (ht : step s = .next t) : P t := by
  cases hp : s.port with
  | nil =>
    rw [step_idle hp] at ht
    injection ht with ht
    exact ht ▸ h.model s s.tick s.port [] hs
  | cons ev rest =>
    rw [step_action hp] at ht
    exact h.keeps_handle (h.model s s.tick rest [] hs) ht

end StepClosed

/-! ### The invariant of the state (10_state R21, R36; 20_memory R55) -/

theorem written_write {s : State} {n : Nat} (h : s.Written n) (a : Nat) (v : Word) : (hostWrite a v s).Written n := fun i hi => by
  rw [hostWrite_cm, read_write]
  split_ifs
  · rfl
  · exact h i hi

theorem hostWrite_inv {s : State} (h : s.Inv) {a : Nat} (ha : a < 256 * s.cfg.nslot) (v : Word) : (hostWrite a v s).Inv where
  cfg := h.cfg
  cm := write_wf h.cm a v
  addresses c hc := by
    rcases mem_storePut hc with hc | rfl
    · exact h.addresses c hc
    · exact ha
  ghost := storeDel_rising h.ghost _
  slots g hg := h.slots g (mem_storeDel hg)
  known g hg := written_write (h.known g (mem_storeDel hg)) a v
  hostWrote := storePut_rising h.hostWrote _ _
  hostSlots c hc := by
    rcases mem_storePut hc with hc | rfl
    · exact h.hostSlots c hc
    · show a / 256 < s.cfg.nslot
      omega

theorem setGhost_inv {s : State} (h : s.Inv) {n : Nat} (hn : n < s.cfg.nslot) (hw : s.Written n) (g : Ghost) :
    (s.setGhost n g).Inv where
  cfg := h.cfg
  cm := h.cm
  addresses := h.addresses
  ghost := setGhost_rising h.ghost n g
  slots c hc := by
    rcases mem_setGhost hc with hc | ⟨rfl, hg⟩
    · exact h.slots c hc
    · exact ⟨hn, hg⟩
  known c hc := by
    rcases mem_setGhost hc with hc | ⟨rfl, -⟩
    · exact h.known c hc
    · exact hw
  hostWrote := h.hostWrote
  hostSlots := h.hostSlots

theorem resetPulse_inv {s : State} (h : s.Inv) : (resetPulse s).Inv :=
  ⟨h.cfg, .nil, by simp, .nil, by simp, by simp, .nil, by simp⟩

/-- Every part of a step keeps the invariant and the parameters. -/
theorem inv_stepClosed (c : Config) : StepClosed fun s => s.Inv ∧ s.cfg = c where
  model := fun _ _ _ _ ⟨h, hc⟩ =>
    ⟨⟨h.cfg, h.cm, h.addresses, h.ghost, h.slots, h.known, h.hostWrote, h.hostSlots⟩, hc⟩
  rule := fun s i ha ⟨h, hc⟩ => ⟨ruleOf_inv h ha, (ruleOf_spec i s).1.cfg.trans hc⟩
  write := fun _ _ v ha ⟨h, hc⟩ => ⟨hostWrite_inv h ha v, hc⟩
  mark := fun s n _ _ hn hm ⟨h, hc⟩ => ⟨setGhost_inv h hn ((markable_iff s n).1 hm).2 _, hc⟩
  reset := fun _ ⟨h, hc⟩ => ⟨resetPulse_inv h, hc⟩

/-- Settles O3: each part of a step keeps the invariant, so the step does. -/
theorem stepKeepsStateInvariant : Obligations.StepKeepsStateInvariant := fun s _ h ht =>
  (inv_stepClosed s.cfg).keeps_step ⟨h, rfl⟩ ht

/-! ### Reset (10_state R36, 70_reset R210) -/

/-- Settles O1: after reset every list of the state is empty. -/
theorem resetLeavesMemoryUnspecified : Obligations.ResetLeavesMemoryUnspecified := fun _ =>
  ⟨fun _ => rfl, fun _ => rfl, fun _ _ => rfl, rfl, rfl, rfl⟩

theorem resetWith_inv {c : Config} (h : c.wf) : (State.resetWith c).Inv :=
  ⟨h, .nil, nofun, .nil, nofun, nofun, .nil, nofun⟩

/-- Where nothing is known of any slot, no bound is recorded. -/
theorem boundsTrue_of_no_ghost {s : State} (h : s.ghost = []) : s.BoundsTrue := fun n b hb => by
  simp [State.ghostOf, h, Ghost.unknown] at hb

/-- Settles O2: the empty memory and the empty records meet the invariant. -/
theorem resetMeetsInvariant : Obligations.ResetMeetsInvariant :=
  ⟨fun _ h => ⟨resetWith_inv h, boundsTrue_of_no_ghost rfl⟩, rfl, by decide⟩

/-- Settles O22: a reset pulse empties the memory and both records, and nothing else. -/
theorem resetPulseForgetsEverything : Obligations.ResetPulseForgetsEverything := fun _ _ =>
  ⟨_, rfl, rfl, fun _ _ => rfl, fun _ => rfl, rfl, rfl, rfl⟩

/-! ### Commands and accesses (20_memory R55, R56, R63) -/

/-- A word is listed after a command just if it was before or its slot is one the command writes. -/
theorem isSome_read_of_sameBut {s t : State} {ws : List Nat} (h : s.SameBut t ws) (hw : ∀ n ∈ ws, ∃ p, t.Holds n p) (a : Nat) :
    (t.cm.read a).isSome = ((s.cm.read a).isSome || decide (a / 256 ∈ ws)) := by
  by_cases ha : a / 256 ∈ ws
  · obtain ⟨p, hp⟩ := hw _ ha
    have hr := hp (a % 256) (Nat.mod_lt _ (by decide))
    rw [wordAddr_eq, Nat.div_add_mod] at hr
    simp [hr, ha]
  · simp [h.words a ha, ha]

/-- Settles O17: response, reads and written words of a word are those `runCommand_spec` gives, and none of them looks at the
memory. -/
theorem everyWordIsAnsweredWhateverTheData : Obligations.EveryWordIsAnsweredWhateverTheData := by
  refine ⟨fun n w => responseWord (wordStatus n w) (wordResult w), wordReads, fun w s => ?_⟩
  obtain ⟨t, hrun, hsame, hans, htick, hholds⟩ := runCommand_spec w s
  exact ⟨t, hrun, hans, responseWord_status _ _, htick, isSome_read_of_sameBut hsame hholds⟩

/-- Settles O54: what `exec_spec` says of the one next state. -/
theorem commandsWriteOnlyTheirFootprint : Obligations.CommandsWriteOnlyTheirFootprint := by
  intro i s t ht
  obtain ⟨t', ht', hsame, hans, -, -⟩ := exec_spec i s
  rw [ht'] at ht
  injection ht with ht
  exact ht ▸ ⟨hsame, _, hans⟩

/-- Settles O18: the issued word is decoded once the action is off the port. -/
theorem stepRunsIssuedInstruction : Obligations.StepRunsIssuedInstruction := by
  intro s engine w rest hp he
  have hstep : step s = runCommand w { s with port := rest, out := [] } := by
    rw [step_action hp]
    exact if_pos he
  rw [hstep]
  refine ⟨fun i hd => ?_, fun st hd => runCommand_of_decode_refused hd _⟩
  rw [runCommand, hd]

theorem hostAccess_next {x : HostAccess} {s : State} (h : x.addr < 256 * s.cfg.nslot) :
    ∃ t, hostAccess x s = .next t ∧ t.cfg = s.cfg := by
  have ha : addrExists s.cfg x.addr = true := decide_eq_true h
  cases x with
  | read a => exact ⟨_, if_pos ha, rfl⟩
  | write a v => exact ⟨_, if_pos ha, rfl⟩

theorem hostAccess_fault {x : HostAccess} {s : State} (h : x.addr ≥ 256 * s.cfg.nslot) :
    hostAccess x s = .fault (.noSuchAddress x.addr) := if_neg (by simpa [addrExists] using h)

theorem runJobs_next (jobs : List (Nat × Command)) (s : State) : ∃ t, runJobs jobs s = .next t ∧ t.cfg = s.cfg := by
  induction jobs generalizing s with
  | nil => exact ⟨s, rfl, rfl⟩
  | cons j jobs ih =>
    obtain ⟨u, hu, hsame, -⟩ := runCommand_spec j.2 s
    obtain ⟨t, ht, hc⟩ := ih u
    exact ⟨t, by rw [runJobs, hu, andThen_next, ht], hc.trans hsame.cfg⟩

theorem runAccesses_next (xs : List HostAccess) {s : State} (h : ∀ x ∈ xs, x.addr < 256 * s.cfg.nslot) :
    ∃ t, runAccesses xs s = .next t := by
  induction xs generalizing s with
  | nil => exact ⟨s, rfl⟩
  | cons x xs ih =>
    obtain ⟨u, hu, hc⟩ := hostAccess_next (h x (by simp))
    obtain ⟨t, ht⟩ := ih (s := u) fun y hy => by
      rw [hc]
      exact h y (by simp [hy])
    exact ⟨t, by rw [runAccesses, hu, andThen_next, ht]⟩

/-- Simultaneous use of engines that exist, one command on each, with disjoint footprints, is the commands and then the accesses. -/
theorem runTogether_admitted {jobs : List (Nat × Command)} {xs : List HostAccess} {s : State} (he : ∀ j ∈ jobs, j.1 < s.cfg.neng)
    (hd : enginesDistinct jobs = true) (hj : jobsDisjoint s.cfg.nslot jobs = true)
    (hx : ∀ x ∈ xs, accessOutside s.cfg.nslot jobs x = true) :
    runTogether jobs xs s = andThen (runJobs jobs s) (runAccesses xs) := by
  have hnone : jobs.find? (fun j => !decide (j.1 < s.cfg.neng)) = none := List.find?_eq_none.2 fun j hmem => by simp [he j hmem]
  simp [runTogether, hnone, hd, hj, List.all_eq_true.2 hx]

/-- Settles O19: the checks of each kind of action are the ones an admitted action passes. -/
theorem admittedActionsNeverStop : Obligations.AdmittedActionsNeverStop := by
  intro s ev rest hp ha
  rw [step_action hp]
  generalize hs : ({ s with port := rest, out := [] } : State) = u
  have hc : u.cfg = s.cfg := by rw [← hs]
  rw [← hc] at ha
  cases ev with
  | issue engine w =>
    obtain ⟨t, ht, -⟩ := runCommand_spec w u
    exact ⟨t, (if_pos ha).trans ht⟩
  | access x =>
    obtain ⟨t, ht, -⟩ := hostAccess_next ha
    exact ⟨t, ht⟩
  | together jobs xs =>
    obtain ⟨he, hd, hj, hx⟩ := ha
    obtain ⟨v, hv, hvc⟩ := runJobs_next jobs u
    obtain ⟨t, ht⟩ := runAccesses_next xs (s := v) fun x hm => by
      rw [hvc]
      exact (hx x hm).1
    refine ⟨t, (runTogether_admitted he hd hj fun x hm => (hx x hm).2).trans ?_⟩
    rw [hv, andThen_next, ht]
  | mark n tag scale => exact ⟨_, if_pos ha⟩
  | reset running => exact ⟨_, rfl⟩

/-- Settles O20: the first check that fails names what is missing. -/
theorem actionsOutsideTheSpecStop : Obligations.ActionsOutsideTheSpecStop := by
  intro s a engine v w w'
  refine ⟨fun ha => ⟨hostAccess_fault ha, hostAccess_fault ha⟩, fun he => if_neg (by omega), fun he => ?_⟩
  simp [handle, runTogether, enginesDistinct, he]

/-- Settles O21: a host write stores its word, which the read then finds. -/
theorem hostReadGivesWhatHostWrote : Obligations.HostReadGivesWhatHostWrote := by
  intro s a v ha
  have hx : addrExists s.cfg a = true := decide_eq_true ha
  refine ⟨_, _, if_pos hx, read_write_same _ _ _, fun b hb => read_write_other _ v hb, rfl, if_pos hx, ?_, rfl⟩
  rw [hostRead_out, wordAt_of_read (read_write_same _ _ _)]

theorem andThen_next_right (o : Host.Outcome State Fault Refusal) : andThen o .next = o := by cases o <;> rfl

theorem runTogether_two {s : State} {e e' : Nat} {w w' : Command} (he : e < s.cfg.neng) (he' : e' < s.cfg.neng) (hne : e ≠ e') :
    runTogether [(e, w), (e', w')] [] s =
      if collide (wordFootprint s.cfg.nslot w) (wordFootprint s.cfg.nslot w') = true then .refused .footprintCollision
      else andThen (runCommand w s) (runCommand w') := by
  have hjobs : ∀ o : Host.Outcome State Fault Refusal, andThen o (runAccesses []) = o := andThen_next_right
  have hlast : runJobs [(e', w')] = runCommand w' := funext fun u => andThen_next_right (runCommand w' u)
  cases hc : collide (wordFootprint s.cfg.nslot w) (wordFootprint s.cfg.nslot w') <;>
    simp [runTogether, he, he', enginesDistinct, hne.symm, jobsDisjoint, hc, hjobs, runJobs.eq_2, hlast]

/-- Settles O57: two commands pass the checks of simultaneous use just if their footprints do not collide. -/
theorem simultaneousCommandsNeedDisjointFootprints : Obligations.SimultaneousCommandsNeedDisjointFootprints := by
  intro s e e' w w' x he he' hne
  refine ⟨fun hc => ?_, fun hc => ?_, fun hx => ?_⟩
  · rw [handle, runTogether_two he he' hne, if_neg (by simp [hc])]
  · rw [handle, runTogether_two he he' hne, if_pos hc]
  · have hout : accessOutside s.cfg.nslot [(e, w)] x = false := by
      rcases List.mem_append.1 hx with hx | hx <;> simp [accessOutside, hx]
    simp [handle, runTogether, he, enginesDistinct, jobsDisjoint, hout]

end Sys2Proof.Machine
end

section
/-! SUPPORT. The two command formats (30_encoding R71, R72) as the fields they are made of: a word is the row of its fields, the mask
of a row keeps the fields its commands do not use, and both directions of the round trip follow. -/

namespace Sys2Proof

/-! ### A word as the row of its fields -/

/-- The fields of a word of format P, the bits that are zero in every command among them. -/
def rowP (hi : BitVec 24) (rb ra rd : BitVec 8) (z : BitVec 4) (tm : BitVec 1) (k : BitVec 3) (op : BitVec 8) : Command :=
  hi ++ rb ++ ra ++ rd ++ z ++ tm ++ k ++ op

/-- The fields of a word of format S. -/
def rowS (hi b a : BitVec 16) (z op : BitVec 8) : Command := hi ++ b ++ a ++ z ++ op

theorem rowP_and (hi hi' : BitVec 24) (rb rb' ra ra' rd rd' op op' : BitVec 8) (z z' : BitVec 4) (tm tm' : BitVec 1)
    (k k' : BitVec 3) :
    rowP hi rb ra rd z tm k op &&& rowP hi' rb' ra' rd' z' tm' k' op' =
      rowP (hi &&& hi') (rb &&& rb') (ra &&& ra') (rd &&& rd') (z &&& z') (tm &&& tm') (k &&& k') (op &&& op') := by
  unfold rowP
  iterate 7 refine BitVec.and_append.trans (congrArg₂ (· ++ ·) ?_ rfl)
  rfl

theorem rowS_and (hi hi' b b' a a' : BitVec 16) (z z' op op' : BitVec 8) :
    rowS hi b a z op &&& rowS hi' b' a' z' op' = rowS (hi &&& hi') (b &&& b') (a &&& a') (z &&& z') (op &&& op') := by
  unfold rowS
  iterate 4 refine BitVec.and_append.trans (congrArg₂ (· ++ ·) ?_ rfl)
  rfl

/-- Two fields side by side are one wider field. -/
theorem fields_append (w : Command) (i m n : Nat) : w.extractLsb' (i + n) m ++ w.extractLsb' i n = w.extractLsb' i (m + n) :=
  BitVec.extractLsb'_append_extractLsb'_eq_extractLsb' rfl

/-- Every word is the row of its fields. -/
theorem rowP_fields (w : Command) :
    rowP (w.extractLsb' 40 24) (w.extractLsb' 32 8) (w.extractLsb' 24 8) (w.extractLsb' 16 8) (w.extractLsb' 12 4)
      (w.extractLsb' 11 1) (w.extractLsb' 8 3) (w.extractLsb' 0 8) = w := by
  unfold rowP
  rw [fields_append w 32 24 8, fields_append w 24 32 8, fields_append w 16 40 8, fields_append w 12 48 4, fields_append w 11 52 1,
    fields_append w 8 53 3, fields_append w 0 56 8]
  exact BitVec.extractLsb'_eq_self

theorem rowS_fields (w : Command) :
    rowS (w.extractLsb' 48 16) (w.extractLsb' 32 16) (w.extractLsb' 16 16) (w.extractLsb' 8 8) (w.extractLsb' 0 8) = w := by
  unfold rowS
  rw [fields_append w 32 16 16, fields_append w 16 32 16, fields_append w 8 48 8, fields_append w 0 56 8]
  exact BitVec.extractLsb'_eq_self

theorem toNat_append_eq {m n : Nat} (x : BitVec m) (y : BitVec n) : (x ++ y).toNat = x.toNat * 2 ^ n + y.toNat := by
  rw [BitVec.toNat_append, ← Nat.shiftLeft_add_eq_or_of_lt y.isLt, Nat.shiftLeft_eq]

/-- A word of format P as the sum of its fields (R79). -/
theorem toNat_formatP (op : Opcode) {k rd ra rb : Nat} (tm : Bool) (hk : k < 8) (hd : rd < 256) (ha : ra < 256) (hb : rb < 256) :
    (formatP op k tm rd ra rb).toNat =
      op.byte + k * 2 ^ 8 + (if tm then 2 ^ 11 else 0) + rd * 2 ^ 16 + ra * 2 ^ 24 + rb * 2 ^ 32 := by
  have hop : op.byte < 256 := by cases op <;> decide
  have htm : (BitVec.ofBool tm).toNat = if tm then 1 else 0 := by cases tm <;> rfl
  unfold formatP
  iterate 7 rw [toNat_append_eq]
  simp only [htm, BitVec.toNat_ofNat]
  split_ifs <;> omega

/-- A word of format S as the sum of its fields (R79). -/
theorem toNat_formatS (op : Opcode) (a b : Word) : (formatS op a b).toNat = op.byte + a.toNat * 2 ^ 16 + b.toNat * 2 ^ 32 := by
  have hop : op.byte < 256 := by cases op <;> decide
  unfold formatS
  iterate 4 rw [toNat_append_eq]
  simp only [BitVec.toNat_ofNat]
  omega

/-- Settles O7: each command's word is a word of one of the two formats, its unused fields zero. -/
theorem encodedWordIsSumOfFields : Obligations.EncodedWordIsSumOfFields := by
  intro k d a b tm x y hk hd ha hb
  have h0 : 0 < 256 := by decide
  refine ⟨toNat_formatS .fqmul x y, ?_, ?_, ?_, ?_, ?_, ?_, ?_, ?_, ?_, ?_, toNat_formatP .vacc tm hk hd ha hb⟩
  · exact (toNat_formatS .barrett x 0).trans (by simp [Opcode.byte])
  · exact (toNat_formatP .ntt false (by decide) hd h0 h0).trans (by simp [Opcode.byte])
  · exact (toNat_formatP .intt false (by decide) hd h0 h0).trans (by simp [Opcode.byte])
  · exact (toNat_formatP .red false (by decide) hd h0 h0).trans (by simp [Opcode.byte])
  · exact (toNat_formatP .addr false (by decide) hd ha h0).trans (by simp [Opcode.byte])
  · exact (toNat_formatP .addaddr false (by decide) hd ha hb).trans (by simp [Opcode.byte])
  · exact (toNat_formatP .subr false (by decide) hd ha h0).trans (by simp [Opcode.byte])
  · exact (toNat_formatP .vntt false hk hd h0 h0).trans (by simp [Opcode.byte])
  · exact (toNat_formatP .vintt false hk hd h0 h0).trans (by simp [Opcode.byte])
  · exact (toNat_formatP .vaddr false hk hd ha h0).trans (by simp [Opcode.byte])

/-! ### Encoding, then decoding -/

/-- The mask of R74 as a row of fields: a field is all ones or all zeros. -/
def Opcode.maskRow : Opcode → Command
  | .fqmul => rowS (-1) 0 0 (-1) (-1)
  | .barrett => rowS (-1) (-1) 0 (-1) (-1)
  | .ntt | .intt | .red => rowP (-1) (-1) (-1) 0 (-1) (-1) (-1) (-1)
  | .addr | .subr => rowP (-1) (-1) 0 0 (-1) (-1) (-1) (-1)
  | .addaddr => rowP (-1) 0 0 0 (-1) (-1) (-1) (-1)
  | .vntt | .vintt => rowP (-1) (-1) (-1) 0 (-1) (-1) 0 (-1)
  | .vaddr => rowP (-1) (-1) 0 0 (-1) (-1) 0 (-1)
  | .vacc => rowP (-1) 0 0 0 (-1) 0 0 (-1)

theorem mask_eq_maskRow (o : Opcode) : o.mask = o.maskRow := by cases o <;> decide

theorem pattern_eq_rowP (o : Opcode) : o.pattern = rowP 0 0 0 0 0 0 0 (BitVec.ofNat 8 o.byte) := by cases o <;> decide

theorem pattern_eq_rowS (o : Opcode) : o.pattern = rowS 0 0 0 0 (BitVec.ofNat 8 o.byte) := by cases o <;> decide

/-- What a row of fields that takes no bit outside a format keeps of a word of that format. -/
theorem formatP_and_rowP (op : Opcode) (k rd ra rb : Nat) (tm : Bool) (mrb mra mrd : BitVec 8) (mtm : BitVec 1) (mk : BitVec 3) :
    formatP op k tm rd ra rb &&& rowP (-1) mrb mra mrd (-1) mtm mk (-1) =
      rowP 0 (BitVec.ofNat 8 rb &&& mrb) (BitVec.ofNat 8 ra &&& mra) (BitVec.ofNat 8 rd &&& mrd) 0 (BitVec.ofBool tm &&& mtm)
        (BitVec.ofNat 3 k &&& mk) (BitVec.ofNat 8 op.byte) := by
  rw [show formatP op k tm rd ra rb = rowP 0 (BitVec.ofNat 8 rb) (BitVec.ofNat 8 ra) (BitVec.ofNat 8 rd) 0 (BitVec.ofBool tm)
    (BitVec.ofNat 3 k) (BitVec.ofNat 8 op.byte) from rfl, rowP_and]
  congr 1
  exact BitVec.and_allOnes

theorem formatS_and_rowS (op : Opcode) (a b ma mb : Word) :
    formatS op a b &&& rowS (-1) mb ma (-1) (-1) = rowS 0 (b &&& mb) (a &&& ma) 0 (BitVec.ofNat 8 op.byte) := by
  rw [show formatS op a b = rowS 0 b a 0 (BitVec.ofNat 8 op.byte) from rfl, rowS_and]
  congr 1
  exact BitVec.and_allOnes

/-- The word of an instruction sets no bit outside the fields its row uses (R74, R77). -/
theorem encode_and_mask (i : Instr) : encode i &&& i.opcode.mask = i.opcode.pattern := by
  rw [mask_eq_maskRow]
  cases i with
  | fqmul a b => exact (formatS_and_rowS .fqmul a b 0 0).trans (by simp [pattern_eq_rowS, Instr.opcode])
  | barrett a => exact (formatS_and_rowS .barrett a 0 0 (-1)).trans (by simp [pattern_eq_rowS, Instr.opcode])
  | ntt d => exact (formatP_and_rowP .ntt 0 d 0 0 false (-1) (-1) 0 (-1) (-1)).trans (by simp [pattern_eq_rowP, Instr.opcode])
  | intt d => exact (formatP_and_rowP .intt 0 d 0 0 false (-1) (-1) 0 (-1) (-1)).trans (by simp [pattern_eq_rowP, Instr.opcode])
  | red d => exact (formatP_and_rowP .red 0 d 0 0 false (-1) (-1) 0 (-1) (-1)).trans (by simp [pattern_eq_rowP, Instr.opcode])
  | addr d a => exact (formatP_and_rowP .addr 0 d a 0 false (-1) 0 0 (-1) (-1)).trans (by simp [pattern_eq_rowP, Instr.opcode])
  | addaddr d a b => exact (formatP_and_rowP .addaddr 0 d a b false 0 0 0 (-1) (-1)).trans (by simp [pattern_eq_rowP, Instr.opcode])
  | subr d a => exact (formatP_and_rowP .subr 0 d a 0 false (-1) 0 0 (-1) (-1)).trans (by simp [pattern_eq_rowP, Instr.opcode])
  | vntt k d => exact (formatP_and_rowP .vntt k d 0 0 false (-1) (-1) 0 (-1) 0).trans (by simp [pattern_eq_rowP, Instr.opcode])
  | vintt k d => exact (formatP_and_rowP .vintt k d 0 0 false (-1) (-1) 0 (-1) 0).trans (by simp [pattern_eq_rowP, Instr.opcode])
  | vaddr k d a => exact (formatP_and_rowP .vaddr k d a 0 false (-1) 0 0 (-1) 0).trans (by simp [pattern_eq_rowP, Instr.opcode])
  | vacc k tm d a b => exact (formatP_and_rowP .vacc k d a b tm 0 0 0 0 0).trans (by simp [pattern_eq_rowP, Instr.opcode])

theorem slotFits_iff (n : Nat) : slotFits n = true ↔ n < 256 := decide_eq_true_iff

theorem vecLenLegal_iff (k : Nat) : vecLenLegal k = true ↔ k = 2 ∨ k = 3 ∨ k = 4 := decide_eq_true_iff

/-- The row of a well-formed instruction reads its operands back: each fits its field. -/
theorem build_encode {i : Instr} (h : i.wf = true) : i.opcode.build (encode i) = i := by
  cases i <;> simp [Instr.wf, slotFits_iff, vecLenLegal_iff] at h <;> simp [Instr.opcode, Opcode.build, encode] <;> omega

/-- The length field of a well-formed vector instruction is legal. -/
theorem fieldK_encode_mem {i : Instr} (h : i.wf = true) (hv : i.opcode.isVector = true) : fieldK (encode i) ∈ [2, 3, 4] := by
  cases i <;> simp [Instr.opcode, Opcode.isVector] at hv <;> simp [Instr.wf, slotFits_iff, vecLenLegal_iff] at h <;>
    simp [encode] <;> omega

/-- Settles O5: the word has the opcode of its row and no field fault, and the row reads the operands back. -/
theorem decodeOfEncodedInstruction : Obligations.DecodeOfEncodedInstruction := by
  intro i h
  have hop : fieldOP (encode i) = i.opcode.byte := by cases i <;> simp [encode, Instr.opcode]
  have hfault : ¬ Machine.FieldFault i.opcode (encode i) :=
    not_or.2 ⟨not_not.2 (encode_and_mask i), fun hv => hv.2 (fieldK_encode_mem h hv.1)⟩
  rw [Machine.decode_of_not_fieldFault hop hfault, build_encode h]

/-! ### Decoding, then encoding -/

/-- A field that the mask takes whole and the pattern leaves zero is zero in every word the mask admits (R77). -/
theorem unused_field {w : Command} {o : Opcode} (h : w &&& o.mask = o.pattern) (i n : Nat)
    (hm : o.mask.extractLsb' i n = BitVec.allOnes n) (hp : o.pattern.extractLsb' i n = 0) : w.extractLsb' i n = 0 := by
  rw [← hp, ← h, BitVec.extractLsb'_and, hm, BitVec.and_allOnes]

theorem opcode_field {w : Command} {o : Opcode} (h : fieldOP w = o.byte) : BitVec.ofNat 8 o.byte = w.extractLsb' 0 8 := by
  rw [← h, fieldOP, BitVec.ofNat_toNat, BitVec.setWidth_eq]

/-- Format P of the fields of a word gives the word back where the bits no command uses are zero. -/
theorem formatP_fields {w : Command} {o : Opcode} (hop : fieldOP w = o.byte) (hhi : w.extractLsb' 40 24 = 0)
    (hz : w.extractLsb' 12 4 = 0) : formatP o (fieldK w) (fieldTM w) (fieldRD w) (fieldRA w) (fieldRB w) = w := by
  have htm : BitVec.ofBool (fieldTM w) = w.extractLsb' 11 1 := by
    unfold fieldTM
    generalize w.extractLsb' 11 1 = x
    revert x
    decide
  refine Eq.trans ?_ (rowP_fields w)
  rw [hhi, hz, ← opcode_field hop, ← htm]
  simp only [formatP, rowP, fieldK, fieldRD, fieldRA, fieldRB, BitVec.ofNat_toNat, BitVec.setWidth_eq]
  rfl

theorem formatS_fields {w : Command} {o : Opcode} (hop : fieldOP w = o.byte) (hhi : w.extractLsb' 48 16 = 0)
    (hz : w.extractLsb' 8 8 = 0) : formatS o (fieldA w) (fieldB w) = w := by
  refine Eq.trans ?_ (rowS_fields w)
  rw [hhi, hz, ← opcode_field hop]
  rfl

theorem fieldK_unused {w : Command} {o : Opcode} (h : w &&& o.mask = o.pattern) (hm : o.mask.extractLsb' 8 3 = BitVec.allOnes 3) :
    fieldK w = 0 := by rw [fieldK, unused_field h 8 3 hm (by cases o <;> decide)]; rfl

theorem fieldTM_unused {w : Command} {o : Opcode} (h : w &&& o.mask = o.pattern) (hm : o.mask.extractLsb' 11 1 = BitVec.allOnes 1) :
    fieldTM w = false := by rw [fieldTM, unused_field h 11 1 hm (by cases o <;> decide)]; rfl

theorem fieldRA_unused {w : Command} {o : Opcode} (h : w &&& o.mask = o.pattern) (hm : o.mask.extractLsb' 24 8 = BitVec.allOnes 8) :
    fieldRA w = 0 := by rw [fieldRA, unused_field h 24 8 hm (by cases o <;> decide)]; rfl

theorem fieldRB_unused {w : Command} {o : Opcode} (h : w &&& o.mask = o.pattern) (hm : o.mask.extractLsb' 32 8 = BitVec.allOnes 8) :
    fieldRB w = 0 := by rw [fieldRB, unused_field h 32 8 hm (by cases o <;> decide)]; rfl

theorem fieldB_unused {w : Command} {o : Opcode} (h : w &&& o.mask = o.pattern) (hm : o.mask.extractLsb' 32 16 = BitVec.allOnes 16) :
    fieldB w = 0 := unused_field h 32 16 hm (by cases o <;> decide)

/-- What the row reads of a word that its mask admits encodes to that word (R74, R77). -/
theorem encode_build {w : Command} {o : Opcode} (hop : fieldOP w = o.byte) (hm : w &&& o.mask = o.pattern) :
    encode (o.build w) = w := by
  have hS (hhi : o.mask.extractLsb' 48 16 = BitVec.allOnes 16) (hz : o.mask.extractLsb' 8 8 = BitVec.allOnes 8) :=
    formatS_fields hop (unused_field hm 48 16 hhi (by cases o <;> decide)) (unused_field hm 8 8 hz (by cases o <;> decide))
  have hP (hhi : o.mask.extractLsb' 40 24 = BitVec.allOnes 24) (hz : o.mask.extractLsb' 12 4 = BitVec.allOnes 4) :=
    formatP_fields hop (unused_field hm 40 24 hhi (by cases o <;> decide)) (unused_field hm 12 4 hz (by cases o <;> decide))
  have noK := fieldK_unused hm
  have noTM := fieldTM_unused hm
  have noRA := fieldRA_unused hm
  have noRB := fieldRB_unused hm
  cases o with
  | fqmul => exact hS (by decide) (by decide)
  | barrett =>
    have h := hS (by decide) (by decide)
    rwa [fieldB_unused hm (by decide)] at h
  | ntt | intt | red =>
    have h := hP (by decide) (by decide)
    rwa [noK (by decide), noTM (by decide), noRA (by decide), noRB (by decide)] at h
  | addr | subr =>
    have h := hP (by decide) (by decide)
    rwa [noK (by decide), noTM (by decide), noRB (by decide)] at h
  | addaddr =>
    have h := hP (by decide) (by decide)
    rwa [noK (by decide), noTM (by decide)] at h
  | vntt | vintt =>
    have h := hP (by decide) (by decide)
    rwa [noTM (by decide), noRA (by decide), noRB (by decide)] at h
  | vaddr =>
    have h := hP (by decide) (by decide)
    rwa [noTM (by decide), noRB (by decide)] at h
  | vacc => exact hP (by decide) (by decide)

theorem fieldRD_lt (w : Command) : fieldRD w < 256 := (w.extractLsb' 16 8).isLt

theorem fieldRA_lt (w : Command) : fieldRA w < 256 := (w.extractLsb' 24 8).isLt

theorem fieldRB_lt (w : Command) : fieldRB w < 256 := (w.extractLsb' 32 8).isLt

/-- What a row reads of a word is well-formed if the length is: every slot is read from eight bits. -/
theorem build_wf (w : Command) {o : Opcode} (hk : o.isVector = true → vecLenLegal (fieldK w) = true) : (o.build w).wf = true := by
  cases o <;> simp [Opcode.isVector] at hk <;>
    simp [Opcode.build, Instr.wf, slotFits_iff, fieldRD_lt, fieldRA_lt, fieldRB_lt, hk]

/-- Settles O6: a word that decodes passes its row's mask and length check, so it is the word of what the row reads. -/
theorem encodeOfDecodedWord : Obligations.EncodeOfDecodedWord := by
  intro w i h
  unfold decode at h
  cases ho : Opcode.ofByte (fieldOP w) with
  | none => simp [ho] at h
  | some o =>
    simp only [ho] at h
    split_ifs at h with hm hk
    injection h with h
    subst h
    exact ⟨build_wf w fun hv => by simpa [hv] using hk, encode_build (byte_of_ofByte ho).symm (not_not.1 hm)⟩

/-- Settles O8: the seven words and their texts, evaluated. -/
theorem workedEncodingsDecode : Obligations.WorkedEncodingsDecode := by
  unfold Obligations.WorkedEncodingsDecode
  decide

end Sys2Proof
end

section
/-! SUPPORT. The arithmetic units (files 40 and 41): residues and magnitudes of the Montgomery product, the Barrett reducer, the
butterflies and the base multiplication, for every int16 operand, then the statements about them. -/

namespace Sys2Proof.Machine

/-! ### The adder and the subtractor (40_modarith R108) -/

theorem add16_eq (a b : Word) : add16 a b = a + b := by
  rw [add16, toWord, BitVec.ofInt_add, BitVec.ofInt_toInt, BitVec.ofInt_toInt]

/-- What an intermediate overflow loses, the last narrowing loses as well. -/
theorem add16_add16_toInt (a b c : Word) : (add16 (add16 a b) c).toInt = s16 (a.toInt + b.toInt + c.toInt) := by
  rw [add16_toInt, add16_toInt, s16_eq, s16_eq, s16_eq]
  omega

/-- Settles O23: both units narrow the exact value, and addition of 16-bit words is associative. -/
theorem addersWrapModulo65536 : Obligations.AddersWrapModulo65536 := fun a b c =>
  ⟨add16_toInt a b, sub16_toInt a b, add16_toInt a b ▸ s16_congr _, sub16_toInt a b ▸ s16_congr _, add16_exact, sub16_exact,
    add16_add16_toInt a b c, by simp only [add16_eq, add_assoc]⟩

/-! ### The Montgomery multiplier (40_modarith R102) -/

theorem word_abs (w : Word) : |w.toInt| ≤ 32768 := by
  obtain ⟨hl, hu⟩ := word_range w
  exact abs_le.2 ⟨hl, by omega⟩

theorem abs_mul_le {x y A B : Int} (hx : |x| ≤ A) (hy : |y| ≤ B) : |x * y| ≤ A * B := by
  rw [abs_mul]
  exact mul_le_mul hx hy (abs_nonneg y) ((abs_nonneg x).trans hx)

/-- The product is at most a·b / 2^16 and half of Q away from zero. -/
theorem fqmulInt_abs (a b : Int) : |fqmulInt a b| ≤ |a * b| / 65536 + 1665 := by
  obtain ⟨hl, hu⟩ := fqmulInt_bounds a b
  have h1 := le_abs_self (a * b)
  have h2 := neg_abs_le (a * b)
  generalize |a * b| = m at *
  generalize a * b = p at *
  generalize fqmulInt a b = f at *
  rw [abs_le]
  omega

theorem fqmulInt_lt {a b : Int} (h : |a * b| < 109084672) : |fqmulInt a b| < 3329 := by
  obtain ⟨hl, hu⟩ := fqmulInt_bounds a b
  rw [abs_lt] at h ⊢
  generalize a * b = p at *
  omega

theorem abs_word_mul_le (a b : Word) : |a.toInt * b.toInt| ≤ 1073741824 := abs_mul_le (word_abs a) (word_abs b)

/-- Storing the product narrows nothing (R102 item 2). -/
theorem fqmul_toInt (a b : Word) : (fqmul a b).toInt = fqmulInt a.toInt b.toInt := by
  have h := fqmulInt_abs a.toInt b.toInt
  have h' := abs_word_mul_le a b
  have := abs_le.1 (h.trans (show |a.toInt * b.toInt| / 65536 + 1665 ≤ 18049 by omega))
  rw [fqmul, toInt_toWord, s16_of_range] <;> omega

theorem fqmul_abs (a b : Word) : |(fqmul a b).toInt| ≤ |a.toInt * b.toInt| / 65536 + 1665 := fqmul_toInt a b ▸ fqmulInt_abs _ _

/-- From a bound of each operand, a bound of the product. -/
theorem fqmul_abs_le {a b : Word} {A B : Int} (ha : |a.toInt| ≤ A) (hb : |b.toInt| ≤ B) :
    |(fqmul a b).toInt| ≤ A * B / 65536 + 1665 :=
  (fqmul_abs a b).trans (Int.add_le_add_right (Int.ediv_le_ediv (by decide) (abs_mul_le ha hb)) _)

/-- Below 2^15·Q the product is in (-Q, Q) (R102 item 3). -/
theorem fqmul_lt {a b : Word} (h : |a.toInt * b.toInt| < 109084672) : |(fqmul a b).toInt| < 3329 := fqmul_toInt a b ▸ fqmulInt_lt h

/-- A factor in the centred range keeps every product in (-Q, Q). -/
theorem fqmul_lt_of_centred (a : Word) {z : Word} (hz : |z.toInt| ≤ 1664) : |(fqmul a z).toInt| < 3329 :=
  fqmul_lt ((abs_mul_le (word_abs a) hz).trans_lt (by decide))

theorem fqmul_mul_congr (a b : Word) : (fqmul a b).toInt * 65536 ≡ a.toInt * b.toInt [ZMOD 3329] := by
  rw [fqmul_toInt, fqmulInt_mul, Int.modEq_iff_dvd]
  exact ⟨s16 (lo16 (a.toInt * b.toInt) * 62209), by ring⟩

/-- 169 is the reciprocal of R modulo Q. -/
theorem congr_of_mul_R {x y : Int} (h : x * 65536 ≡ y [ZMOD 3329]) : x ≡ y * 169 [ZMOD 3329] := by
  unfold Int.ModEq at h ⊢
  omega

theorem fqmul_congr (a b : Word) : (fqmul a b).toInt ≡ a.toInt * b.toInt * 169 [ZMOD 3329] := congr_of_mul_R (fqmul_mul_congr a b)

theorem fqmul_comm (a b : Word) : fqmul a b = fqmul b a := by
  rw [fqmul, fqmul, show fqmulInt a.toInt b.toInt = fqmulInt b.toInt a.toInt by unfold fqmulInt; rw [Int.mul_comm]]

theorem zero_fqmul (b : Word) : fqmul 0 b = 0 := by
  rw [fqmul, toInt_zero, fqmulInt, Int.zero_mul]
  decide

/-- Settles O24: residue and size of the product are those of a·b / 2^16, up to half of Q. -/
theorem fqmulIsMontgomeryProduct : Obligations.FqmulIsMontgomeryProduct := by
  intro a b
  refine ⟨fqmul_mul_congr a b, fqmul_congr a b, fqmul_toInt a b, fqmul_abs a b, ?_, fun h => abs_lt.1 (fqmul_lt h), fqmul_comm a b,
    zero_fqmul b, ?_⟩
  · have := abs_word_mul_le a b
    exact (fqmul_abs a b).trans (by omega)
  · have h := fqmul_congr a (toWord (-1044))
    rw [toInt_toWord, show s16 (-1044) = -1044 by decide] at h
    unfold Int.ModEq at h ⊢
    omega

/-! ### The Barrett reducer (40_modarith R105) -/

theorem barrett_toInt (a : Word) : (barrett a).toInt = cmod a.toInt := by
  have hr := word_range a
  have hb : -1664 ≤ barrettInt a.toInt ∧ barrettInt a.toInt ≤ 1664 := by
    rw [barrettInt_eq]
    omega
  rw [barrett, toInt_toWord, s16_of_range (by omega) (by omega)]
  refine eq_cmod ?_ hb.1 hb.2
  rw [barrettInt_eq, Int.modEq_iff_dvd]
  exact ⟨(20159 * a.toInt + 33554432) / 67108864, by ring⟩

theorem barrett_congr (a : Word) : (barrett a).toInt ≡ a.toInt [ZMOD 3329] := barrett_toInt a ▸ cmod_congr _

theorem barrett_abs (a : Word) : |(barrett a).toInt| ≤ 1664 := abs_le.2 (barrett_toInt a ▸ cmod_range _)

theorem barrett_eq_of_congr {a b : Word} (h : a.toInt ≡ b.toInt [ZMOD 3329]) : barrett a = barrett b := by
  obtain ⟨hl, hu⟩ := abs_le.1 (barrett_abs a)
  exact BitVec.eq_of_toInt_eq ((eq_cmod ((barrett_congr a).trans h) hl hu).trans (barrett_toInt b).symm)

/-- Settles O25: the reducer's result is the one centred representative. -/
theorem barrettGivesCentredResidue : Obligations.BarrettGivesCentredResidue := fun a _ =>
  ⟨barrett_congr a, (abs_le.1 (barrett_abs a)).1, (abs_le.1 (barrett_abs a)).2, barrett_toInt a, barrett_eq_of_congr,
    barrett_eq_of_congr (barrett_congr a)⟩

/-- Settles O35: the reducer sees the wrapped sum, which is the exact one less a multiple of 2^16. -/
theorem sumsWithinRangeAreExact : Obligations.SumsWithinRangeAreExact := by
  intro c a b
  have hc := word_range c
  have ha := word_range a
  refine ⟨fun hl hu => ?_, fun hl hu => ?_, fun hl hu => ?_, fun h => ?_, fun h => ?_⟩
  · rw [barrett_toInt, add16_exact hl hu]
  · rw [barrett_toInt, sub16_exact hl hu]
  · rw [barrett_toInt, add16_add16_toInt, s16_of_range hl hu]
  · rw [barrett_toInt, add16_toInt, show s16 (c.toInt + a.toInt) = c.toInt + a.toInt - 65536 by rw [s16_eq]; omega]
  · rw [barrett_toInt, add16_toInt, show s16 (c.toInt + a.toInt) = c.toInt + a.toInt + 65536 by rw [s16_eq]; omega]

/-! ### The butterflies (41_butterfly_layout R120, R121) -/

theorem add16_toInt_of_abs {a b : Word} {A B : Int} (ha : |a.toInt| ≤ A) (hb : |b.toInt| ≤ B) (h : A + B ≤ 32767) :
    (add16 a b).toInt = a.toInt + b.toInt := by
  rw [abs_le] at ha hb
  exact add16_exact (by omega) (by omega)

theorem sub16_toInt_of_abs {a b : Word} {A B : Int} (ha : |a.toInt| ≤ A) (hb : |b.toInt| ≤ B) (h : A + B ≤ 32767) :
    (sub16 a b).toInt = a.toInt - b.toInt := by
  rw [abs_le] at ha hb
  exact sub16_exact (by omega) (by omega)

theorem add16_abs {a b : Word} {A B : Int} (ha : |a.toInt| ≤ A) (hb : |b.toInt| ≤ B) (h : A + B ≤ 32767) :
    |(add16 a b).toInt| ≤ A + B := by
  rw [add16_toInt_of_abs ha hb h]
  exact (abs_add_le _ _).trans (add_le_add ha hb)

theorem sub16_abs {a b : Word} {A B : Int} (ha : |a.toInt| ≤ A) (hb : |b.toInt| ≤ B) (h : A + B ≤ 32767) :
    |(sub16 a b).toInt| ≤ A + B := by
  rw [sub16_toInt_of_abs ha hb h]
  exact (abs_sub _ _).trans (add_le_add ha hb)

/-- Both outputs of the forward butterfly grow by at most Q - 1, as long as no addition overflows (R120). -/
theorem bflyCt_abs {x y z : Word} {B : Int} (hx : |x.toInt| ≤ B) (hB : B + 3328 ≤ 32767)
    (ht : |(fqmul y z).toInt| < 3329) :
    |(bflyCt x y z).1.toInt| ≤ B + 3328 ∧ |(bflyCt x y z).2.toInt| ≤ B + 3328 :=
  ⟨add16_abs hx (Int.le_of_lt_add_one ht) hB, sub16_abs hx (Int.le_of_lt_add_one ht) hB⟩

theorem constF_toInt : constF.toInt = 1441 := by decide

theorem constZF_toInt : constZF.toInt = -1397 := by decide

/-- Both outputs of the last inverse layer's butterfly are in (-Q, Q), whatever the operands (R121). -/
theorem bflyGsF_abs (x y : Word) : |(bflyGsF x y).1.toInt| < 3329 ∧ |(bflyGsF x y).2.toInt| < 3329 :=
  ⟨fqmul_lt_of_centred _ (by rw [constF_toInt]; decide), fqmul_lt_of_centred _ (by rw [constZF_toInt]; decide)⟩

/-- Settles O26: what a butterfly adds or multiplies stays where neither can overflow. -/
theorem butterfliesKeepTheirBounds : Obligations.ButterfliesKeepTheirBounds := by
  refine ⟨fun x y z B hx hB hyz => ?_, fun x y z _ _ hz => ?_⟩
  · obtain ⟨hlo, hhi⟩ := bflyCt_abs hx (by omega) (fqmul_lt hyz)
    exact ⟨by omega, by omega⟩
  · exact ⟨fqmul_lt_of_centred _ hz, fqmul_lt_of_centred _ hz, barrett_abs _, bflyGsF_abs x y⟩

/-! ### The base multiplication (45_polyvecops R173) -/

/-- Both components are sums of two products that stay exact: the inner product a1·b1 is within the bound of the others after its
second factor (R177). -/
theorem basemul_toInt {a0 a1 b0 b1 z : Word} {M : Int} (h00 : |(fqmul a0 b0).toInt| ≤ M) (h01 : |(fqmul a0 b1).toInt| ≤ M)
    (h10 : |(fqmul a1 b0).toInt| ≤ M) (h11 : |(fqmul a1 b1).toInt| ≤ M) (hz : |z.toInt| ≤ 1664) (hM : 1709 ≤ M)
    (hM' : M ≤ 16383) :
    ((basemul a0 a1 b0 b1 z).1.toInt = (fqmul (fqmul a1 b1) z).toInt + (fqmul a0 b0).toInt ∧
      |(basemul a0 a1 b0 b1 z).1.toInt| ≤ M + M) ∧
    (basemul a0 a1 b0 b1 z).2.toInt = (fqmul a0 b1).toInt + (fqmul a1 b0).toInt ∧
      |(basemul a0 a1 b0 b1 z).2.toInt| ≤ M + M := by
  have h11z : |(fqmul (fqmul a1 b1) z).toInt| ≤ M := (fqmul_abs_le h11 hz).trans (by omega)
  exact ⟨⟨add16_toInt_of_abs h11z h00 (by omega), add16_abs h11z h00 (by omega)⟩,
    add16_toInt_of_abs h01 h10 (by omega), add16_abs h01 h10 (by omega)⟩

theorem fqmul_fqmul_congr {a b z : Word} {zeta : Int} (hz : z.toInt ≡ 65536 * zeta [ZMOD 3329]) :
    (fqmul (fqmul a b) z).toInt * 65536 ≡ zeta * (a.toInt * b.toInt) [ZMOD 3329] :=
  calc (fqmul (fqmul a b) z).toInt * 65536
    _ ≡ (fqmul a b).toInt * z.toInt [ZMOD 3329] := fqmul_mul_congr _ _
    _ ≡ (fqmul a b).toInt * (65536 * zeta) [ZMOD 3329] := hz.mul_left _
    _ = zeta * ((fqmul a b).toInt * 65536) := by ring
    _ ≡ zeta * (a.toInt * b.toInt) [ZMOD 3329] := (fqmul_mul_congr a b).mul_left _

/-- Settles O27: within the bound of R177 for two products no sum wraps, and each product carries one factor R^-1. -/
theorem basemulMultipliesModuloQuadratic : Obligations.BasemulMultipliesModuloQuadratic := by
  intro a0 a1 b0 b1 z zeta hz hzb hw
  have hM {a b : Word} (ha : a ∈ [a0, a1, b0, b1]) (hb : b ∈ [a0, a1, b0, b1]) : |(fqmul a b).toInt| ≤ 8191 :=
    (fqmul_abs_le (hw a ha) (hw b hb)).trans (by decide)
  obtain ⟨⟨h1, -⟩, h2, -⟩ := basemul_toInt (hM (a := a0) (b := b0) (by simp) (by simp)) (hM (a := a0) (b := b1) (by simp) (by simp))
    (hM (a := a1) (b := b0) (by simp) (by simp)) (hM (a := a1) (b := b1) (by simp) (by simp)) hzb (by decide) (by decide)
  rw [h1, h2, Int.add_mul, Int.add_mul]
  refine ⟨?_, (fqmul_mul_congr a0 b1).add (fqmul_mul_congr a1 b0)⟩
  rw [add_comm (a0.toInt * b0.toInt)]
  exact (fqmul_fqmul_congr hz).add (fqmul_mul_congr a0 b0)

end Sys2Proof.Machine
end

section
/-! SUPPORT. The layers of the transforms (42_ntt_forward R140, 43_ntt_inverse R150): the blocks of both directions as one loop over a
butterfly, its words by index, and the magnitudes after each layer; then the constant tables they read. -/

namespace Sys2Proof.Machine

/-! ### The loop over the blocks of a layer -/

/-- The blocks of a layer of stride `len` of the butterfly `f`, one constant per block. -/
def blocks (f : Word → Word → Word → Word × Word) (len : Nat) : List Word → Poly → Poly
  | [], r => r
  | z :: zs, r =>
    List.zipWith (fun a b => (f a b z).1) (r.take len) ((r.drop len).take len)
      ++ List.zipWith (fun a b => (f a b z).2) (r.take len) ((r.drop len).take len) ++ blocks f len zs (r.drop (2 * len))

theorem ctBlocks_eq_blocks (len : Nat) (zs : List Word) (r : Poly) : ctBlocks len zs r = blocks bflyCt len zs r := by
  induction zs generalizing r with
  | nil => rfl
  | cons z zs ih => rw [ctBlocks, blocks, ih]

theorem gsBlocks_eq_blocks (len : Nat) (zs : List Word) (r : Poly) : gsBlocks len zs r = blocks bflyGsR len zs r := by
  induction zs generalizing r with
  | nil => rfl
  | cons z zs ih => rw [gsBlocks, blocks, ih]

/-- Word j of a layer of the butterfly `f`, from the words before it: `z b` is the constant of block b. -/
def blockAt (f : Word → Word → Word → Word × Word) (len : Nat) (z : Nat → Word) (r : Nat → Word) (j : Nat) : Word :=
  if j / len % 2 = 0 then (f (r j) (r (j + len)) (z (j / (2 * len)))).1 else (f (r (j - len)) (r j) (z (j / (2 * len)))).2

theorem zipWith_getD (f : Word → Word → Word) {x y : List Word} {i : Nat} (hx : i < x.length) (hy : i < y.length) :
    (List.zipWith f x y).getD i 0 = f (x.getD i 0) (y.getD i 0) := by simp [List.getD, hx, hy]

theorem take_getD {x : List Word} {n i : Nat} (h : i < n) : (x.take n).getD i 0 = x.getD i 0 := by simp [List.getD, h]

theorem drop_getD (x : List Word) (n i : Nat) : (x.drop n).getD i 0 = x.getD (n + i) 0 := by simp [List.getD]

/-- The words of a whole number of blocks, by index. -/
theorem blocks_getD (f : Word → Word → Word → Word × Word) {len : Nat} (hlen : 0 < len) (zs : List Word) {r : Poly}
    (h : r.length = 2 * len * zs.length) {j : Nat} (hj : j < r.length) :
    (blocks f len zs r).getD j 0 = blockAt f len (fun b => zs.getD b 0) (fun i => r.getD i 0) j := by
  induction zs generalizing r j with
  | nil => simp at h; simp [h] at hj
  | cons z zs ih =>
    rw [List.length_cons, Nat.mul_succ] at h
    have hx : (r.take len).length = len := by rw [List.length_take]; omega
    have hy : ((r.drop len).take len).length = len := by rw [List.length_take, List.length_drop]; omega
    have hlo : (List.zipWith (fun a b => (f a b z).1) (r.take len) ((r.drop len).take len)).length = len := by simp [hx, hy]
    have hhi : (List.zipWith (fun a b => (f a b z).2) (r.take len) ((r.drop len).take len)).length = len := by simp [hx, hy]
    unfold blocks blockAt
    rcases Nat.lt_or_ge j (2 * len) with h2 | h2
    · rw [List.getD_append _ _ _ _ (by rw [List.length_append]; omega), Nat.div_eq_of_lt h2]
      rcases Nat.lt_or_ge j len with h1 | h1
      · rw [List.getD_append _ _ _ _ (by omega), zipWith_getD _ (by omega) (by omega), take_getD h1, take_getD h1, drop_getD,
          Nat.div_eq_of_lt h1, Nat.add_comm]
        rfl
      · have hq : j / len = 1 := Nat.div_eq_of_lt_le (by omega) (by omega)
        rw [List.getD_append_right _ _ _ _ (by omega), hlo, zipWith_getD _ (by omega) (by omega), take_getD (by omega),
          take_getD (by omega), drop_getD, hq, Nat.add_sub_cancel' h1]
        rfl
    · obtain ⟨i, rfl⟩ := Nat.exists_eq_add_of_le h2
      have hd : (r.drop (2 * len)).length = 2 * len * zs.length := by rw [List.length_drop]; omega
      have hq : (2 * len + i) / len = i / len + 2 := by rw [Nat.add_comm, Nat.mul_comm, Nat.add_mul_div_left _ _ hlen]
      have hp : (2 * len + i) / (2 * len) = i / (2 * len) + 1 := by rw [Nat.add_comm, Nat.add_div_right _ (by omega)]
      rw [List.getD_append_right _ _ _ _ (by rw [List.length_append]; omega), List.length_append, hlo, hhi,
        show 2 * len + i - (len + len) = i by omega, ih hd (by omega), blockAt, hq, hp, Nat.add_mod_right]
      simp only [drop_getD, List.getD_cons_succ, Nat.add_assoc]
      split_ifs with h0
      · rfl
      · have hi : len ≤ i := Nat.le_of_not_lt fun hlt => h0 (by rw [Nat.div_eq_of_lt hlt])
        rw [Nat.add_sub_assoc hi]

/-- The strides of both transforms. -/
def strides : List Nat := [2, 4, 8, 16, 32, 64, 128]

/-- The high partner of a low word is among the 256. -/
theorem partner_lt {len j : Nat} (hl : len ∈ strides) (hj : j < 256) (he : j / len % 2 = 0) : j + len < 256 := by
  simp only [strides, List.mem_cons, List.not_mem_nil, or_false] at hl
  rcases hl with rfl | rfl | rfl | rfl | rfl | rfl | rfl <;> omega

theorem nttStrides_subset : ∀ len ∈ nttStrides, len ∈ strides := by decide

theorem inttStrides_subset : ∀ len ∈ inttStrides, len ∈ strides := by decide

theorem strides_pos {len : Nat} (hl : len ∈ strides) : 0 < len := by revert len; decide

theorem strides_mul {len : Nat} (hl : len ∈ strides) : 2 * len * (128 / len) = 256 := by revert len; decide

theorem block_lt {len j : Nat} (hl : len ∈ strides) (hj : j < 256) : j / (2 * len) < 128 / len :=
  Nat.div_lt_of_lt_mul (by rwa [strides_mul hl])

/-- A layer looks at words 0 to 255 and at the constants of its 128 / len blocks only. -/
theorem blockAt_congr (f : Word → Word → Word → Word × Word) {len : Nat} (hl : len ∈ strides) {z z' r r' : Nat → Word}
    (hz : ∀ b < 128 / len, z b = z' b) (hr : ∀ i < 256, r i = r' i) {j : Nat} (hj : j < 256) :
    blockAt f len z r j = blockAt f len z' r' j := by
  unfold blockAt
  rw [hz _ (block_lt hl hj), hr j hj]
  split_ifs with he
  · rw [hr _ (partner_lt hl hj he)]
  · rw [hr _ (by omega)]

theorem zetaRun_getD (k : Nat) {n i : Nat} (h : i < n) : (zetaRun k n).getD i 0 = zeta (k + i) := by
  simp [zetaRun, List.getD, h]

theorem zetaInvRun_getD (k : Nat) {n i : Nat} (h : i < n) : (zetaInvRun k n).getD i 0 = zetaInv (k + i) := by
  simp [zetaInvRun, List.getD, h]

theorem ctLayerAt_eq (len : Nat) (r : Nat → Word) (j : Nat) :
    ctLayerAt len r j = blockAt bflyCt len (fun b => zeta (128 / len + b)) r j := rfl

theorem gsLayerAt_eq (len : Nat) (r : Nat → Word) (j : Nat) :
    gsLayerAt len r j = blockAt bflyGsR len (fun b => zetaInv (128 - 256 / len + b)) r j := rfl

theorem ctLayerAt_congr {len : Nat} (hl : len ∈ strides) {r r' : Nat → Word} (hr : ∀ i < 256, r i = r' i) {j : Nat} (hj : j < 256) :
    ctLayerAt len r j = ctLayerAt len r' j := by
  rw [ctLayerAt_eq, ctLayerAt_eq]
  exact blockAt_congr bflyCt hl (fun _ _ => rfl) hr hj

theorem gsLayerAt_congr {len : Nat} (hl : len ∈ strides) {r r' : Nat → Word} (hr : ∀ i < 256, r i = r' i) {j : Nat} (hj : j < 256) :
    gsLayerAt len r j = gsLayerAt len r' j := by
  rw [gsLayerAt_eq, gsLayerAt_eq]
  exact blockAt_congr bflyGsR hl (fun _ _ => rfl) hr hj

theorem gsLastAt_congr {r r' : Nat → Word} (hr : ∀ i < 256, r i = r' i) {j : Nat} (hj : j < 256) : gsLastAt r j = gsLastAt r' j := by
  unfold gsLastAt
  rw [hr j hj, hr (j - 128) (by omega)]
  split_ifs with h1
  · rw [hr _ (by omega)]
  · rfl

/-- The forward layer, word by word (R140, R142). -/
theorem nttLayer_getD {len : Nat} (hl : len ∈ strides) {r : Poly} (h : r.length = 256) {j : Nat} (hj : j < 256) :
    (nttLayer r len).getD j 0 = ctLayerAt len (fun i => r.getD i 0) j := by
  rw [nttLayer, ctBlocks_eq_blocks, blocks_getD _ (strides_pos hl) _ (by rw [zetaRun_length, strides_mul hl, h]) (by omega),
    ctLayerAt_eq]
  exact blockAt_congr _ hl (fun b hb => zetaRun_getD _ hb) (fun _ _ => rfl) hj

/-- The inverse layer, word by word (R150, R152). -/
theorem inttLayer_getD {len : Nat} (hl : len ∈ strides) {r : Poly} (h : r.length = 256) {j : Nat} (hj : j < 256) :
    (inttLayer r len).getD j 0 = gsLayerAt len (fun i => r.getD i 0) j := by
  rw [inttLayer, gsBlocks_eq_blocks, blocks_getD _ (strides_pos hl) _ (by rw [zetaInvRun_length, strides_mul hl, h]) (by omega),
    gsLayerAt_eq]
  exact blockAt_congr _ hl (fun b hb => zetaInvRun_getD _ hb) (fun _ _ => rfl) hj

/-- The last inverse layer, word by word (R153). -/
theorem inttLast_getD {r : Poly} (h : r.length = 256) {j : Nat} (hj : j < 256) :
    (inttLast r).getD j 0 = gsLastAt (fun i => r.getD i 0) j := by
  unfold inttLast gsLastAt
  have hx : (r.take 128).length = 128 := by simp [h]
  have hy : (r.drop 128).length = 128 := by simp [h]
  split_ifs with h1
  · rw [List.getD_append _ _ _ _ (by simpa [hx, hy] using h1), zipWith_getD _ (by omega) (by omega), take_getD h1, drop_getD,
      Nat.add_comm 128]
    rfl
  · rw [List.getD_append_right _ _ _ _ (by simpa [hx, hy] using h1), List.length_zipWith, hx, hy, Nat.min_self,
      zipWith_getD _ (by omega) (by omega), take_getD (by omega), drop_getD, Nat.add_sub_cancel' (Nat.le_of_not_lt h1)]
    rfl

/-- Layers in turn, word by word: what holds of one layer holds of any number of them. -/
theorem layers_getD {layer : Poly → Nat → Poly} {at' : Nat → (Nat → Word) → Nat → Word}
    (hlen : ∀ (r : Poly) len, r.length = 256 → (layer r len).length = 256)
    (hget : ∀ len ∈ strides, ∀ r : Poly, r.length = 256 → ∀ j < 256, (layer r len).getD j 0 = at' len (fun i => r.getD i 0) j)
    (hcongr : ∀ len ∈ strides, ∀ r r' : Nat → Word, (∀ i < 256, r i = r' i) → ∀ j < 256, at' len r j = at' len r' j)
    (ls : List Nat) (hls : ∀ len ∈ ls, len ∈ strides) {r : Poly} (h : r.length = 256) {g : Nat → Word}
    (hg : ∀ i < 256, r.getD i 0 = g i) :
    ∀ j < 256, (ls.foldl layer r).getD j 0 = ls.foldl (fun r len => at' len r) g j := by
  induction ls generalizing r g with
  | nil => exact hg
  | cons len ls ih =>
    refine ih (fun l hl => hls l (by simp [hl])) (hlen r len h) fun j hj => ?_
    rw [hget len (hls len (by simp)) r h j hj]
    exact hcongr len (hls len (by simp)) _ _ hg j hj

theorem nttLayers_getD (ls : List Nat) (hls : ∀ len ∈ ls, len ∈ strides) {r : Poly} (h : r.length = 256) {g : Nat → Word}
    (hg : ∀ i < 256, r.getD i 0 = g i) :
    ∀ j < 256, (ls.foldl nttLayer r).getD j 0 = ls.foldl (fun r len => ctLayerAt len r) g j :=
  layers_getD (fun _ len h => nttLayer_length h len) (fun _ hl _ h _ hj => nttLayer_getD hl h hj)
    (fun _ hl _ _ hr _ hj => ctLayerAt_congr hl hr hj) ls hls h hg

theorem inttLayers_getD (ls : List Nat) (hls : ∀ len ∈ ls, len ∈ strides) {r : Poly} (h : r.length = 256) {g : Nat → Word}
    (hg : ∀ i < 256, r.getD i 0 = g i) :
    ∀ j < 256, (ls.foldl inttLayer r).getD j 0 = ls.foldl (fun r len => gsLayerAt len r) g j :=
  layers_getD (fun _ len h => inttLayer_length h len) (fun _ hl _ h _ hj => inttLayer_getD hl h hj)
    (fun _ hl _ _ hr _ hj => gsLayerAt_congr hl hr hj) ls hls h hg

/-- The forward transform in the index form of R140 and R142. -/
theorem nttPoly_getD {r : Poly} (h : r.length = 256) {g : Nat → Word} (hg : ∀ i < 256, r.getD i 0 = g i) {j : Nat} (hj : j < 256) :
    (nttPoly r).getD j 0 = [128, 64, 32, 16, 8, 4, 2].foldl (fun r len => ctLayerAt len r) g j :=
  nttLayers_getD nttStrides nttStrides_subset h hg j hj

/-- The inverse transform in the index form of R150, R152 and R153. -/
theorem inttPoly_getD {r : Poly} (h : r.length = 256) {g : Nat → Word} (hg : ∀ i < 256, r.getD i 0 = g i) {j : Nat} (hj : j < 256) :
    (inttPoly r).getD j 0 = gsLastAt ([2, 4, 8, 16, 32, 64].foldl (fun r len => gsLayerAt len r) g) j := by
  rw [inttPoly, inttLast_getD (inttLayers_length _ h) hj]
  exact gsLastAt_congr (inttLayers_getD inttStrides inttStrides_subset h hg) hj

/-! ### Magnitudes (42_ntt_forward R144, 43_ntt_inverse R155) -/

theorem within_iff {B : Int} {p : Poly} : Within B p ↔ ∀ i < 256, |coeff p i| ≤ B := by simp only [Within, abs_le]

theorem table_abs {t : List Int} (h : ∀ x ∈ t, |s16 x| ≤ 1664) (k : Nat) : |(toWord (t.getD k 0)).toInt| ≤ 1664 := by
  rw [toInt_toWord]
  rcases Nat.lt_or_ge k t.length with hk | hk
  · rw [List.getD_eq_getElem _ _ hk]
    exact h _ (List.getElem_mem hk)
  · rw [List.getD_eq_default _ _ hk]
    decide

/-- Every entry of both tables is in the centred range. -/
theorem zeta_abs (k : Nat) : |(zeta k).toInt| ≤ 1664 := table_abs (by decide +kernel) k

theorem zetaInv_abs (k : Nat) : |(zetaInv k).toInt| ≤ 1664 := table_abs (by decide +kernel) k

theorem nttLayer_within {r : Poly} (h : r.length = 256) {B : Int} (hB : Within B r) (hB' : B + 3328 ≤ 32767) {len : Nat}
    (hl : len ∈ strides) : Within (B + 3328) (nttLayer r len) := by
  rw [within_iff] at hB ⊢
  intro j hj
  rw [coeff, nttLayer_getD hl h hj, ctLayerAt_eq, blockAt]
  split_ifs with he
  · exact (bflyCt_abs (hB j hj) hB' (fqmul_lt_of_centred _ (zeta_abs _))).1
  · exact (bflyCt_abs (hB (j - len) (by omega)) hB' (fqmul_lt_of_centred _ (zeta_abs _))).2

/-- Each forward layer adds at most Q - 1. -/
theorem nttLayers_within (ls : List Nat) (hls : ∀ len ∈ ls, len ∈ strides) {r : Poly} (h : r.length = 256) {B : Int}
    (hB : Within B r) (hB' : B + ls.length * 3328 ≤ 32767) : Within (B + ls.length * 3328) (ls.foldl nttLayer r) := by
  induction ls generalizing r B with
  | nil => simpa using hB
  | cons len ls ih =>
    rw [List.length_cons, Nat.cast_succ] at hB' ⊢
    rw [show B + (ls.length + 1 : Int) * 3328 = B + 3328 + ls.length * 3328 by ring] at hB' ⊢
    exact ih (fun l hl => hls l (by simp [hl])) (nttLayer_length h len)
      (nttLayer_within h hB (by omega) (hls len (by simp))) hB'

theorem nttPoly_within {r : Poly} (h : r.length = 256) {B : Int} (hB : Within B r) (hB' : B ≤ 9464) :
    Within (B + 7 * 3328) (nttPoly r) :=
  nttLayers_within nttStrides nttStrides_subset h hB (by show B + 7 * 3328 ≤ 32767; omega)

/-- Settles O38: the bound grows by Q - 1 with each layer. -/
theorem nttWordsGrowByQPerLayer : Obligations.NttWordsGrowByQPerLayer := by
  refine ⟨fun p B n hp hB hn hb => ?_, fun p B hp hB hb => nttPoly_within hp hB hb, fun p hp hB => ?_⟩
  · have hlen : (nttStrides.take n).length = n := by
      rw [List.length_take, show nttStrides.length = 7 from rfl]
      omega
    have h := nttLayers_within (nttStrides.take n) (fun l hl => nttStrides_subset l (List.mem_of_mem_take hl)) hp hB
    rw [hlen] at h
    exact h hb
  · rw [show (26624 : Int) = 3328 + 7 * 3328 by norm_num]
    exact nttPoly_within hp hB (by decide)

/-- A layer of the inverse transform leaves every word in (-Q, Q) and the reduced ones in the centred range, whatever it starts from. -/
theorem inttLayer_bounds {r : Poly} (h : r.length = 256) {len : Nat} (hl : len ∈ strides) {j : Nat} (hj : j < 256) :
    |coeff (inttLayer r len) j| ≤ 3328 ∧ (j / len % 2 = 0 → |coeff (inttLayer r len) j| ≤ 1664) := by
  rw [coeff, inttLayer_getD hl h hj, gsLayerAt_eq, blockAt]
  split_ifs with he
  · have hb := barrett_abs (add16 (r.getD j 0) (r.getD (j + len) 0))
    exact ⟨hb.trans (by decide), fun _ => hb⟩
  · exact ⟨Int.le_of_lt_add_one (fqmul_lt_of_centred _ (zetaInv_abs _)), fun h0 => absurd h0 he⟩

theorem inttLast_within {r : Poly} (h : r.length = 256) : Within 3328 (inttLast r) := by
  refine within_iff.2 fun j hj => Int.le_of_lt_add_one ?_
  rw [coeff, inttLast_getD h hj, gsLastAt]
  split_ifs
  · exact (bflyGsF_abs _ _).1
  · exact (bflyGsF_abs _ _).2

theorem inttPoly_within {r : Poly} (h : r.length = 256) : Within 3328 (inttPoly r) := inttLast_within (inttLayers_length _ h)

/-- One more layer of the inverse transform: layer n has stride 2^n. -/
theorem inttPrefix_succ (p : Poly) {n : Nat} (hn : n < 6) : inttPrefix (n + 1) p = inttLayer (inttPrefix n p) (2 ^ (n + 1)) := by
  have h : inttStrides.take (n + 1) = inttStrides.take n ++ [2 ^ (n + 1)] := by revert n; decide
  rw [inttPrefix, h, List.foldl_append]
  rfl

/-- Settles O39: the bounds are those of the layer made last. -/
theorem inttWordsStayBelowQ : Obligations.InttWordsStayBelowQ := by
  intro p hp _
  refine ⟨fun n h1 h6 => ?_, inttPoly_within hp⟩
  obtain ⟨m, rfl⟩ := Nat.exists_eq_add_of_le' h1
  have hl : 2 ^ (m + 1) ∈ strides := (by decide : ∀ m < 6, 2 ^ (m + 1) ∈ strides) m h6
  have hb := fun j hj => inttLayer_bounds (r := inttPrefix m p) (inttLayers_length _ hp) hl (j := j) hj
  rw [inttPrefix_succ p h6]
  exact ⟨within_iff.2 fun j hj => (hb j hj).1, fun j hj he => abs_le.1 ((hb j hj).2 he)⟩

/-! ### The constant tables (10_state R25, R26; 45_polyvecops R175) -/

/-- Settles O28: every entry evaluated. -/
theorem tablesHoldPowersOfTheRoot : Obligations.TablesHoldPowersOfTheRoot := by
  unfold Obligations.TablesHoldPowersOfTheRoot
  refine ⟨?_, ?_, ?_, ?_, ?_, ?_, ?_, ?_, ?_, ?_, ?_, ?_⟩ <;> decide +kernel

/-- Settles O29: every pair evaluated. -/
theorem pairConstantsAreTheRoots : Obligations.PairConstantsAreTheRoots := by
  unfold Obligations.PairConstantsAreTheRoots
  refine ⟨?_, ?_, ?_⟩ <;> decide +kernel

end Sys2Proof.Machine
end

section
/-! SUPPORT. What the commands leave in memory (files 40 and 42 to 45): each completes when its slots are in range, and the words of
the slots it writes are those of its rule; then that those words depend on the slots it reads only. -/

namespace Sys2Proof.Machine

/-! ### Completion -/

theorem responseWord_ok (v : Word) : responseWord .ok v = 0#16 ++ v := by
  have h : (0#12 ++ statusCode .ok : BitVec 16) = 0#16 := by decide
  rw [← h]
  rfl

theorem responseWord_ok_zero : responseWord .ok 0 = 0 := by decide

/-- An admitted command without a result completes: its rule is what happened to memory and ghosts, and the response is 0. -/
theorem exec_completes {i : Instr} {s : State} (ha : admission s.cfg.nslot i = .ok) (hr : resultOf i = 0) :
    ∃ t, exec i s = .next t ∧ s.SameBut t (footprint i).writes ∧ s.Answered t 0 ∧ t.cm = (ruleOf i s).cm ∧
      t.ghost = (ruleOf i s).ghost := by
  obtain ⟨t, ht, hsame, hans, -, -⟩ := exec_spec i s
  rw [exec_ok ha] at ht
  injection ht with ht
  rw [if_pos ha] at hsame
  rw [ha, hr, responseWord_ok_zero] at hans
  exact ⟨t, by rw [exec_ok ha, ht], hsame, hans, by rw [← ht]; rfl, by rw [← ht]; rfl⟩

theorem admission_ntt {n d : Nat} (h : d < n) : admission n (.ntt d) = .ok :=
  admission_ok.2 ⟨rfl, by simpa [slotsInRange, slotOperands] using h, rfl⟩

theorem admission_intt {n d : Nat} (h : d < n) : admission n (.intt d) = .ok :=
  admission_ok.2 ⟨rfl, by simpa [slotsInRange, slotOperands] using h, rfl⟩

theorem admission_red {n d : Nat} (h : d < n) : admission n (.red d) = .ok :=
  admission_ok.2 ⟨rfl, by simpa [slotsInRange, slotOperands] using h, rfl⟩

theorem admission_addr {n d a : Nat} (hd : d < n) (ha : a < n) : admission n (.addr d a) = .ok :=
  admission_ok.2 ⟨rfl, by simpa [slotsInRange, slotOperands] using ⟨hd, ha⟩, rfl⟩

theorem admission_subr {n d a : Nat} (hd : d < n) (ha : a < n) : admission n (.subr d a) = .ok :=
  admission_ok.2 ⟨rfl, by simpa [slotsInRange, slotOperands] using ⟨hd, ha⟩, rfl⟩

theorem admission_addaddr {n d a b : Nat} (hd : d < n) (ha : a < n) (hb : b < n) : admission n (.addaddr d a b) = .ok :=
  admission_ok.2 ⟨rfl, by simpa [slotsInRange, slotOperands] using ⟨hd, ha, hb⟩, rfl⟩

theorem admission_vntt {n k d : Nat} (hk : k = 2 ∨ k = 3 ∨ k = 4) (h : d + k ≤ n) : admission n (.vntt k d) = .ok :=
  admission_ok.2 ⟨(vecLenLegal_iff k).2 hk, by simpa [slotsInRange, slotOperands] using h, rfl⟩

theorem admission_vintt {n k d : Nat} (hk : k = 2 ∨ k = 3 ∨ k = 4) (h : d + k ≤ n) : admission n (.vintt k d) = .ok :=
  admission_ok.2 ⟨(vecLenLegal_iff k).2 hk, by simpa [slotsInRange, slotOperands] using h, rfl⟩

/-- Ranges of VADDR that do not overlap in the forbidden way are identical or disjoint (20_memory R62). -/
theorem overlaps_vaddr_eq_false {k d a : Nat} : overlaps (.vaddr k d a) = false ↔ d = a ∨ d + k ≤ a ∨ a + k ≤ d := by
  rw [← Bool.not_eq_true, overlaps_vaddr]
  omega

theorem admission_vaddr {n k d a : Nat} (hk : k = 2 ∨ k = 3 ∨ k = 4) (hd : d + k ≤ n) (ha : a + k ≤ n)
    (ho : d = a ∨ d + k ≤ a ∨ a + k ≤ d) : admission n (.vaddr k d a) = .ok :=
  admission_ok.2 ⟨(vecLenLegal_iff k).2 hk, by simpa [slotsInRange, slotOperands] using ⟨hd, ha⟩, overlaps_vaddr_eq_false.2 ho⟩

theorem admission_vacc {n k d a b : Nat} {tm : Bool} (hk : k = 2 ∨ k = 3 ∨ k = 4) (hd : d < n) (ha : a + k ≤ n) (hb : b + k ≤ n)
    (hda : ¬(a ≤ d ∧ d < a + k)) (hdb : ¬(b ≤ d ∧ d < b + k)) : admission n (.vacc k tm d a b) = .ok := by
  refine admission_ok.2 ⟨(vecLenLegal_iff k).2 hk, by simpa [slotsInRange, slotOperands] using ⟨hd, ha, hb⟩, ?_⟩
  rw [← Bool.not_eq_true, overlaps_vacc]
  exact not_or.2 ⟨hda, hdb⟩

/-- A word of a slot, by its address. -/
theorem slotAt_word (s : State) (j n : Nat) {i : Nat} (h : i < 256) : (s.slotAt j n).getD i 0 = s.wordAt j (256 * n + i) :=
  slotAt_getD s j n h 0

/-- A word of a slot whose words are known, by its address. -/
theorem read_of_holds {t u : State} (hcm : t.cm = u.cm) {n : Nat} {p : Poly} (h : u.Holds n p) {i : Nat} (hi : i < 256) :
    t.cm.read (256 * n + i) = some (p.getD i 0) := by
  rw [hcm]
  exact h i hi

/-! ### The scalar commands (40_modarith R103, R106) -/

/-- Settles O30: the rule of a scalar command is to do nothing. -/
theorem scalarCommandsAnswerTheirResult : Obligations.ScalarCommandsAnswerTheirResult := by
  intro s a b
  have hbar : toWord (cmod a.toInt) = barrett a := by
    rw [← barrett_toInt]
    exact BitVec.ofInt_toInt
  refine ⟨⟨_, rfl, ⟨fun _ _ => rfl, fun _ _ => rfl, rfl, rfl, rfl⟩, rfl, rfl, ?_⟩,
    _, rfl, ⟨fun _ _ => rfl, fun _ _ => rfl, rfl, rfl, rfl⟩, rfl, rfl, ?_⟩
  · rw [State.Answered, respond_out, responseWord_ok]
    rfl
  · rw [State.Answered, respond_out, responseWord_ok, hbar]

/-! ### The coefficient-wise commands (44_polyops) -/

theorem barrett_barrett (a : Word) : barrett (barrett a) = barrett a := barrett_eq_of_congr (barrett_congr a)

/-- Settles O31: each word becomes its residue, which a second reduction leaves. -/
theorem redReducesEveryWord : Obligations.RedReducesEveryWord := by
  intro s d hd
  obtain ⟨t, ht, hsame, hans, hcm, hgh⟩ := exec_completes (i := .red d) (admission_red hd) rfl
  obtain ⟨-, hholds, hghost, -, -⟩ := doRed_spec s d
  have hword (i : Nat) (hi : i < 256) : t.cm.read (256 * d + i) = some (barrett (s.wordAt 0 (256 * d + i))) := by
    rw [read_of_holds hcm hholds hi, redPoly_getD (slotAt_length s 0 d) hi, slotAt_word s 0 d hi]
  have hg : t.ghostOf d = (s.ghostOf d).afterRed := by
    rw [← hghost, State.ghostOf, hgh]
    rfl
  obtain ⟨u, hu, husame, -, hucm, -⟩ := exec_completes (i := .red d) (s := t) (admission_red (hsame.cfg ▸ hd)) rfl
  refine ⟨t, ht, hsame, hans, fun i hi => ⟨_, hword i hi, barrett_toInt _⟩, by rw [hg]; rfl, by rw [hg]; rfl, u, hu, fun a => ?_⟩
  by_cases ha : a / 256 = d
  · have hi : a % 256 < 256 := Nat.mod_lt a (by decide)
    rw [← Nat.div_add_mod a 256, ha, hword _ hi, read_of_holds hucm (doRed_spec t d).2.1 hi, redPoly_getD (slotAt_length t 0 d) hi,
      slotAt_word t 0 d hi, wordAt_of_read (hword _ hi), barrett_barrett]
  · exact husame.words a (by simpa [footprint] using ha)

/-- Settles O32: the rule of ADDR, word by word. -/
theorem addrAddsAndReduces : Obligations.AddrAddsAndReduces := by
  intro s d a hd ha
  obtain ⟨t, ht, hsame, hans, hcm, -⟩ := exec_completes (i := .addr d a) (admission_addr hd ha) rfl
  refine ⟨t, ht, hsame, hans, fun i hi => ⟨_, read_of_holds hcm (doAddr_spec s d a).2.1 hi, ?_⟩⟩
  rw [addrPoly_getD (slotAt_length s 0 d) (slotAt_length s 1 a) hi, slotAt_word s 0 d hi, slotAt_word s 1 a hi, barrett_toInt,
    add16_toInt]

/-- Settles O33: the rule of ADDADDR, word by word; an intermediate overflow is lost in the last narrowing. -/
theorem addaddrAddsThreeAndReduces : Obligations.AddaddrAddsThreeAndReduces := by
  intro s d a b hd ha hb
  obtain ⟨t, ht, hsame, hans, hcm, -⟩ := exec_completes (i := .addaddr d a b) (admission_addaddr hd ha hb) rfl
  refine ⟨t, ht, hsame, hans, fun i hi => ⟨_, read_of_holds hcm (doAddaddr_spec s d a b).2.1 hi, ?_⟩⟩
  rw [addaddrPoly_getD (slotAt_length s 0 d) (slotAt_length s 1 a) (slotAt_length s 2 b) hi, slotAt_word s 0 d hi,
    slotAt_word s 1 a hi, slotAt_word s 2 b hi, barrett_toInt, add16_add16_toInt]

/-- Settles O34: the rule of SUBR, word by word; a written word reads the same twice, and its difference from itself is 0. -/
theorem subrSubtractsAndReduces : Obligations.SubrSubtractsAndReduces := by
  intro s d a hd ha
  obtain ⟨t, ht, hsame, hans, hcm, -⟩ := exec_completes (i := .subr d a) (admission_subr hd ha) rfl
  have hword (i : Nat) (hi : i < 256) :
      t.cm.read (256 * d + i) = some (barrett (sub16 (s.wordAt 0 (256 * d + i)) (s.wordAt 1 (256 * a + i)))) := by
    rw [read_of_holds hcm (doSubr_spec s d a).2.1 hi, subrPoly_getD (slotAt_length s 0 d) (slotAt_length s 1 a) hi,
      slotAt_word s 0 d hi, slotAt_word s 1 a hi]
  refine ⟨t, ht, hsame, hans, fun i hi => ⟨_, hword i hi, ?_⟩, fun hda hw i hi => ?_⟩
  · rw [barrett_toInt, sub16_toInt]
  · obtain ⟨v, hv⟩ := Option.isSome_iff_exists.1 (hw i hi)
    rw [wordAddr_eq] at hv
    have hzero : barrett (sub16 v v) = 0 := by
      rw [sub16, Int.sub_self]
      decide
    rw [hword i hi, ← hda, wordAt_of_read hv, wordAt_of_read hv, hzero]

/-! ### The transforms -/

/-- Settles O36: the rule of NTT in index form. -/
theorem nttTransformsItsSlot : Obligations.NttTransformsItsSlot := by
  intro s d hd
  obtain ⟨t, ht, hsame, hans, hcm, -⟩ := exec_completes (i := .ntt d) (admission_ntt hd) rfl
  refine ⟨t, ht, hsame, hans, fun i hi => ?_⟩
  rw [read_of_holds hcm (doNtt_spec s d).2.1 hi, nttPoly_getD (slotAt_length s 0 d) (fun j => slotAt_word s 0 d) hi]

/-- Settles O37: the rule of INTT in index form. -/
theorem inttTransformsItsSlot : Obligations.InttTransformsItsSlot := by
  intro s d hd
  obtain ⟨t, ht, hsame, hans, hcm, -⟩ := exec_completes (i := .intt d) (admission_intt hd) rfl
  refine ⟨t, ht, hsame, hans, fun i hi => ?_⟩
  rw [read_of_holds hcm (doIntt_spec s d).2.1 hi, inttPoly_getD (slotAt_length s 0 d) (fun j => slotAt_word s 0 d) hi]

/-! ### The vector commands (45_polyvecops) -/

/-- Settles O48: the rule of VNTT, element by element. -/
theorem vnttTransformsEachElement : Obligations.VnttTransformsEachElement := by
  intro s k d hk hd
  obtain ⟨t, ht, hsame, hans, hcm, -⟩ := exec_completes (i := .vntt k d) (admission_vntt hk hd) rfl
  refine ⟨t, ht, hsame, hans, fun e he i hi => ?_⟩
  have hl := slotAt_length s (2 * e) (d + e)
  rw [read_of_holds hcm ((doVntt_spec s k d).2.2.2 e he) hi, redPoly_getD (nttPoly_length hl) hi,
    nttPoly_getD hl (fun j => slotAt_word s (2 * e) (d + e)) hi]

/-- Settles O49: the rule of VINTT, element by element. -/
theorem vinttTransformsEachElement : Obligations.VinttTransformsEachElement := by
  intro s k d hk hd
  obtain ⟨t, ht, hsame, hans, hcm, -⟩ := exec_completes (i := .vintt k d) (admission_vintt hk hd) rfl
  refine ⟨t, ht, hsame, hans, fun e he i hi => ?_⟩
  rw [read_of_holds hcm ((doVintt_spec s k d).2.2.2 e he) hi,
    inttPoly_getD (slotAt_length s e (d + e)) (fun j => slotAt_word s e (d + e)) hi]

/-- Settles O50: the rule of VADDR, element by element. -/
theorem vaddrAddsEachElement : Obligations.VaddrAddsEachElement := by
  intro s k d a hk hd ha ho
  obtain ⟨t, ht, hsame, hans, hcm, -⟩ := exec_completes (i := .vaddr k d a) (admission_vaddr hk hd ha ho) rfl
  refine ⟨t, ht, hsame, hans, fun e he i hi => ⟨_, read_of_holds hcm ((doVaddr_spec s k d a).2.2.2 ho e he) hi, ?_⟩⟩
  rw [addrPoly_getD (slotAt_length s (2 * e) (d + e)) (slotAt_length s (2 * e + 1) (a + e)) hi, slotAt_word s _ _ hi,
    slotAt_word s _ _ hi, barrett_toInt, add16_toInt]

theorem toWord_neg (x : Int) : toWord (-x) = -toWord x := BitVec.ofInt_neg

/-- The two sums of a pair in the index form of R174. -/
theorem vaccSums_vaccOperands (s : State) (k a b : Nat) {p : Nat} (hp : p < 128) :
    vaccSums (s.vaccOperands k a b) p =
      innerSumsAt k (fun e i => s.wordAt (2 * e) (256 * (a + e) + i)) (fun e i => s.wordAt (2 * e + 1) (256 * (b + e) + i)) p := by
  have hz : pairZeta p = if p % 2 = 0 then toWord (zetaTable.getD (64 + p / 2) 0) else toWord (-zetaTable.getD (64 + p / 2) 0) := by
    rw [toWord_neg]
    rfl
  have h0 : 2 * p < 256 := by omega
  have h1 : 2 * p + 1 < 256 := by omega
  simp only [vaccSums, State.vaccOperands, innerSumsAt, List.foldl_map, basemul, hz, slotAt_word s _ _ h0, slotAt_word s _ _ h1]

/-- Settles O51: the rule of VACC, pair by pair. -/
theorem vaccWritesTheInnerProduct : Obligations.VaccWritesTheInnerProduct := by
  intro s k d a b tm hk hd ha hb hda hdb
  obtain ⟨t, ht, hsame, hans, hcm, -⟩ := exec_completes (i := .vacc k tm d a b) (admission_vacc hk hd ha hb hda hdb) rfl
  refine ⟨t, ht, hsame, hans, fun p hp => ?_⟩
  have hword (e : Nat) (he : e < 2) := read_of_holds hcm (doVacc_spec s k tm d a b).2.1 (i := 2 * p + e) (by omega)
  rw [← vaccSums_vaccOperands s k a b hp]
  refine ⟨(hword 0 (by decide)).trans ?_, (hword 1 (by decide)).trans ?_⟩
  · rw [vaccPoly_getD _ tm hp (by decide)]
    rfl
  · rw [vaccPoly_getD _ tm hp (by decide)]
    rfl

/-! ### Commands read their footprint only (20_memory R63) -/

/-- An admitted VADDR has identical or disjoint ranges. -/
theorem ranges_of_admission {n k d a : Nat} (h : admission n (.vaddr k d a) = .ok) : d = a ∨ d + k ≤ a ∨ a + k ≤ d :=
  overlaps_vaddr_eq_false.1 (admission_ok.1 h).2.2

/-- Two states whose slots in a command's footprint read alike get the same words. -/
theorem ruleOf_words {n : Nat} {i : Instr} (ha : admission n i = .ok) {s s' : State}
    (hr : ∀ m ∈ (footprint i).reads, ∀ j, s.slotAt j m = s'.slotAt j m) :
    ∀ m ∈ (footprint i).writes, ∃ p, (ruleOf i s).Holds m p ∧ (ruleOf i s').Holds m p := by
  cases i with
  | fqmul a b => simp [footprint]
  | barrett a => simp [footprint]
  | ntt d =>
    simp only [footprint, List.mem_singleton, forall_eq] at hr ⊢
    exact ⟨_, (doNtt_spec s d).2.1, hr 0 ▸ (doNtt_spec s' d).2.1⟩
  | intt d =>
    simp only [footprint, List.mem_singleton, forall_eq] at hr ⊢
    exact ⟨_, (doIntt_spec s d).2.1, hr 0 ▸ (doIntt_spec s' d).2.1⟩
  | red d =>
    simp only [footprint, List.mem_singleton, forall_eq] at hr ⊢
    exact ⟨_, (doRed_spec s d).2.1, hr 0 ▸ (doRed_spec s' d).2.1⟩
  | addr d a =>
    simp only [footprint, List.mem_cons, List.not_mem_nil, or_false, forall_eq_or_imp, forall_eq] at hr ⊢
    exact ⟨_, (doAddr_spec s d a).2.1, hr.1 0 ▸ hr.2 1 ▸ (doAddr_spec s' d a).2.1⟩
  | addaddr d a b =>
    simp only [footprint, List.mem_cons, List.not_mem_nil, or_false, forall_eq_or_imp, forall_eq] at hr ⊢
    exact ⟨_, (doAddaddr_spec s d a b).2.1, hr.1 0 ▸ hr.2.1 1 ▸ hr.2.2 2 ▸ (doAddaddr_spec s' d a b).2.1⟩
  | subr d a =>
    simp only [footprint, List.mem_cons, List.not_mem_nil, or_false, forall_eq_or_imp, forall_eq] at hr ⊢
    exact ⟨_, (doSubr_spec s d a).2.1, hr.1 0 ▸ hr.2 1 ▸ (doSubr_spec s' d a).2.1⟩
  | vntt k d =>
    intro m hm
    have hm' := mem_slotRun.1 hm
    obtain ⟨e, rfl⟩ := Nat.exists_eq_add_of_le hm'.1
    exact ⟨_, (doVntt_spec s k d).2.2.2 e (by omega), hr _ hm (2 * e) ▸ (doVntt_spec s' k d).2.2.2 e (by omega)⟩
  | vintt k d =>
    intro m hm
    have hm' := mem_slotRun.1 hm
    obtain ⟨e, rfl⟩ := Nat.exists_eq_add_of_le hm'.1
    exact ⟨_, (doVintt_spec s k d).2.2.2 e (by omega), hr _ hm e ▸ (doVintt_spec s' k d).2.2.2 e (by omega)⟩
  | vaddr k d a =>
    intro m hm
    have hm' := mem_slotRun.1 hm
    obtain ⟨e, rfl⟩ := Nat.exists_eq_add_of_le hm'.1
    have hd := hr (d + e) (List.mem_append_left _ hm) (2 * e)
    have hsrc := hr (a + e) (List.mem_append_right _ (mem_slotRun.2 (by omega))) (2 * e + 1)
    exact ⟨_, (doVaddr_spec s k d a).2.2.2 (ranges_of_admission ha) e (by omega),
      hd ▸ hsrc ▸ (doVaddr_spec s' k d a).2.2.2 (ranges_of_admission ha) e (by omega)⟩
  | vacc k tm d a b =>
    simp only [footprint, List.mem_singleton, forall_eq] at hr ⊢
    have hops : s.vaccOperands k a b = s'.vaccOperands k a b := List.map_congr_left fun e he => by
      have he := List.mem_range.1 he
      rw [hr (a + e) (List.mem_append_left _ (mem_slotRun.2 (by omega))) (2 * e),
        hr (b + e) (List.mem_append_right _ (mem_slotRun.2 (by omega))) (2 * e + 1)]
    exact ⟨_, (doVacc_spec s k tm d a b).2.1, hops ▸ (doVacc_spec s' k tm d a b).2.1⟩

/-- Settles O55: response and reads are the word's, and the words written are those `ruleOf_words` compares. -/
theorem commandsReadOnlyTheirFootprint : Obligations.CommandsReadOnlyTheirFootprint := by
  intro i s s' hcfg htick hout hr
  obtain ⟨t, ht, -, hans, hreads, -⟩ := exec_spec i s
  obtain ⟨t', ht', -, hans', hreads', -⟩ := exec_spec i s'
  refine ⟨t, t', ht, ht', by rw [hans, hans', hcfg, hout], by rw [hreads, hreads', hcfg, htick], fun ha m hm x hx => ?_⟩
  obtain ⟨p, hp, hp'⟩ := ruleOf_words ha (s := s) (s' := s')
    (fun m hm j => slotAt_congr (fun x hx => (wordAddr_eq m x) ▸ hr m hm x hx) (by rw [htick])) m hm
  rw [exec_ok ha] at ht
  rw [exec_ok (hcfg ▸ ha)] at ht'
  injection ht with ht
  injection ht' with ht'
  rw [← ht, ← ht']
  exact (hp x hx).trans (hp' x hx).symm

end Sys2Proof.Machine
end

section
/-! SUPPORT. The ghost records of the slots (10_state R28 to R30): what each command records, that the recorded bounds stay true, that
no word depends on them, and that commands on disjoint slots commute in words and records. -/

namespace Sys2Proof.Machine

/-! ### Recorded bounds -/

theorem boundWithin_eq_some {need c : Nat} {gives : Nat → Nat} {b : Option Nat} :
    boundWithin need gives b = some c ↔ ∃ x, b = some x ∧ x ≤ need ∧ gives x = c := by
  cases b with
  | none => simp [boundWithin]
  | some x => simp [boundWithin]

theorem boundWithin_of_le {need x : Nat} (gives : Nat → Nat) (h : x ≤ need) : boundWithin need gives (some x) = some (gives x) :=
  boundWithin_eq_some.2 ⟨x, rfl, h, rfl⟩

theorem within_of_boundsTrue {s : State} (h : s.BoundsTrue) {n b : Nat} (hb : (s.ghostOf n).bound = some b) (j : Nat) :
    Within b (s.slotAt j n) := fun i hi => by
  obtain ⟨v, hv, hle⟩ := h n b hb i hi
  rw [coeff, slotAt_getD s j n hi, wordAt_of_read hv]
  omega

/-- Storing a slot keeps the recorded bounds true if the bound recorded with it is. -/
theorem storeSlot_boundsTrue {s : State} (h : s.BoundsTrue) (d n : Nat) (g : Ghost) {p : Poly} (hp : p.length = 256)
    (hg : ∀ b : Nat, g.bound = some b → Within b p) : (((s.setSlot d p).setGhost d g).advance n).BoundsTrue := by
  obtain ⟨hsame, hholds, hghost, -, -⟩ := storeSlot_spec s d n g hp
  intro m b hb i hi
  by_cases hm : m = d
  · subst hm
    rw [hghost] at hb
    obtain ⟨hl, hu⟩ := hg b hb i hi
    rw [coeff] at hl hu
    exact ⟨_, hholds i hi, by omega⟩
  · have hmem : m ∉ [d] := by simpa using hm
    rw [hsame.ghosts m hmem] at hb
    rw [sameBut_slot hsame hmem i hi]
    exact h m b hb i hi

theorem within_of_abs {B : Int} {p : Poly} (h : ∀ i < 256, |(p.getD i 0).toInt| ≤ B) : Within B p := within_iff.2 h

theorem redPoly_within {p : Poly} (hp : p.length = 256) : Within 1664 (redPoly p) :=
  within_of_abs fun i hi => by rw [redPoly_getD hp hi]; exact barrett_abs _

theorem vaccFinish_abs (tm : Bool) (v : Word) : |(vaccFinish tm v).toInt| ≤ if tm then 3328 else 1664 := by
  cases tm with
  | false => exact barrett_abs v
  | true => exact Int.le_of_lt_add_one (fqmul_lt_of_centred _ (by decide))

theorem vaccPoly_within (ops : List (Poly × Poly)) (tm : Bool) : Within (if tm then 3328 else 1664) (vaccPoly ops tm) :=
  within_of_abs fun i hi => by
    have h := vaccPoly_getD ops tm (p := i / 2) (e := i % 2) (by omega) (Nat.mod_lt i (by decide))
    rw [Nat.div_add_mod] at h
    rw [h]
    exact vaccFinish_abs tm _

theorem doNtt_boundsTrue {s : State} (h : s.BoundsTrue) (d : Nat) : (doNtt d s).BoundsTrue := by
  have hl := slotAt_length s 0 d
  refine storeSlot_boundsTrue h d 1 _ (nttPoly_length hl) fun b hb => ?_
  obtain ⟨x, hx, hle, rfl⟩ := boundWithin_eq_some.1 hb
  have hw := nttPoly_within hl (within_of_boundsTrue h hx 0) (by omega)
  rwa [show ((x + 23296 : Nat) : Int) = x + 7 * 3328 by push_cast; ring]

theorem doIntt_boundsTrue {s : State} (h : s.BoundsTrue) (d : Nat) : (doIntt d s).BoundsTrue := by
  have hl := slotAt_length s 0 d
  refine storeSlot_boundsTrue h d 1 _ (inttPoly_length hl) fun b hb => ?_
  obtain ⟨x, -, -, rfl⟩ := boundWithin_eq_some.1 hb
  exact inttPoly_within hl

theorem doRed_boundsTrue {s : State} (h : s.BoundsTrue) (d : Nat) : (doRed d s).BoundsTrue := by
  have hl := slotAt_length s 0 d
  refine storeSlot_boundsTrue h d 1 _ (redPoly_length hl) fun b hb => ?_
  injection hb with hb
  exact hb ▸ redPoly_within hl

/-- The bound recorded after a sum is that of the reducer. -/
theorem afterSum_bound {gs : List Ghost} {b : Nat} (h : (Ghost.afterSum gs).bound = some b) : b = 1664 := by
  obtain ⟨x, -, -, hx⟩ := boundWithin_eq_some.1 h
  exact hx.symm

theorem doAddr_boundsTrue {s : State} (h : s.BoundsTrue) (d a : Nat) : (doAddr d a s).BoundsTrue := by
  have hd := slotAt_length s 0 d
  have ha := slotAt_length s 1 a
  refine storeSlot_boundsTrue h d 2 _ (addrPoly_length hd ha) fun b hb => ?_
  rw [afterSum_bound hb]
  exact within_of_abs fun i hi => by rw [addrPoly_getD hd ha hi]; exact barrett_abs _

theorem doSubr_boundsTrue {s : State} (h : s.BoundsTrue) (d a : Nat) : (doSubr d a s).BoundsTrue := by
  have hd := slotAt_length s 0 d
  have ha := slotAt_length s 1 a
  refine storeSlot_boundsTrue h d 2 _ (subrPoly_length hd ha) fun b hb => ?_
  rw [afterSum_bound hb]
  exact within_of_abs fun i hi => by rw [subrPoly_getD hd ha hi]; exact barrett_abs _

theorem doAddaddr_boundsTrue {s : State} (h : s.BoundsTrue) (d a b : Nat) : (doAddaddr d a b s).BoundsTrue := by
  have hd := slotAt_length s 0 d
  have ha := slotAt_length s 1 a
  have hb := slotAt_length s 2 b
  refine storeSlot_boundsTrue h d 3 _ (addaddrPoly_length hd ha hb) fun x hx => ?_
  rw [afterSum_bound hx]
  exact within_of_abs fun i hi => by rw [addaddrPoly_getD hd ha hb hi]; exact barrett_abs _

theorem doVacc_boundsTrue {s : State} (h : s.BoundsTrue) (k : Nat) (tm : Bool) (d a b : Nat) : (doVacc k tm d a b s).BoundsTrue := by
  refine storeSlot_boundsTrue h d (2 * k) _ (vaccPoly_length _ tm) fun x hx => ?_
  obtain ⟨y, -, -, rfl⟩ := boundWithin_eq_some.1 hx
  have hw := vaccPoly_within (s.vaccOperands k a b) tm
  cases tm <;> exact hw

theorem forElements_boundsTrue {f : Nat → State → State} (hf : ∀ e u, u.BoundsTrue → (f e u).BoundsTrue) (k : Nat) {s : State}
    (h : s.BoundsTrue) : (forElements k f s).BoundsTrue := by
  induction k with
  | zero => exact h
  | succ k ih =>
    rw [forElements_succ]
    exact hf k _ ih

theorem ruleOf_boundsTrue {s : State} (h : s.BoundsTrue) (i : Instr) : (ruleOf i s).BoundsTrue := by
  cases i with
  | fqmul a b => exact h
  | barrett a => exact h
  | ntt d => exact doNtt_boundsTrue h d
  | intt d => exact doIntt_boundsTrue h d
  | red d => exact doRed_boundsTrue h d
  | addr d a => exact doAddr_boundsTrue h d a
  | addaddr d a b => exact doAddaddr_boundsTrue h d a b
  | subr d a => exact doSubr_boundsTrue h d a
  | vntt k d => exact forElements_boundsTrue (fun e _ hu => doRed_boundsTrue (doNtt_boundsTrue hu (d + e)) (d + e)) k h
  | vintt k d => exact forElements_boundsTrue (fun e _ hu => doIntt_boundsTrue hu (d + e)) k h
  | vaddr k d a => exact forElements_boundsTrue (fun e _ hu => doAddr_boundsTrue hu (d + e) (a + e)) k h
  | vacc k tm d a b => exact doVacc_boundsTrue h k tm d a b

theorem hostWrite_ghostOf (s : State) (a : Nat) (v : Word) (n : Nat) :
    (hostWrite a v s).ghostOf n = if n = a / 256 then Ghost.unknown else s.ghostOf n := by
  unfold State.ghostOf
  rw [hostWrite_ghost, storeGet_storeDel]
  split_ifs <;> rfl

theorem hostWrite_boundsTrue {s : State} (h : s.BoundsTrue) (a : Nat) (v : Word) : (hostWrite a v s).BoundsTrue := by
  intro n b hb i hi
  rw [hostWrite_ghostOf] at hb
  split_ifs at hb with hn
  · simp [Ghost.unknown] at hb
  · have hne : wordAddr n i ≠ a := fun he => hn (by rw [← he, wordAddr_div hi])
    rw [hostWrite_cm, read_write_other _ _ hne]
    exact h n b hb i hi

theorem mark_boundsTrue {s : State} (h : s.BoundsTrue) (n : Nat) (tag : Option OrderTag) (scale : Option Int) :
    (s.setGhost n ⟨tag, scale, s.slotBound n⟩).BoundsTrue := by
  intro m b hb i hi
  rw [ghostOf_setGhost] at hb
  split_ifs at hb with hm
  · dsimp only at hb
    exact hm ▸ slotBound_eq_some hb i hi
  · exact h m b hb i hi

/-- Every part of a step keeps the recorded bounds true. -/
theorem boundsTrue_stepClosed : StepClosed State.BoundsTrue where
  model := fun _ _ _ _ h => h
  rule := fun _ i _ h => ruleOf_boundsTrue h i
  write := fun _ a v _ h => hostWrite_boundsTrue h a v
  mark := fun _ n tag scale _ _ h => mark_boundsTrue h n tag scale
  reset := fun _ _ => boundsTrue_of_no_ghost rfl

/-- Settles O4: each part of a step keeps the bounds true, so the step does. -/
theorem stepKeepsBoundsTrue : Obligations.StepKeepsBoundsTrue := fun _ _ h ht => boundsTrue_stepClosed.keeps_step h ht

/-! ### No word depends on a ghost record (10_state R28) -/

/-- The state with another ghost record. -/
def State.withGhost (s : State) (g : List (Nat × Ghost)) : State := { s with ghost := g }

theorem slotAt_withGhost (s : State) (g : List (Nat × Ghost)) (j n : Nat) : (s.withGhost g).slotAt j n = s.slotAt j n := rfl

/-- An operation that does the same whatever the ghost record, but for the ghost record it leaves. -/
def GhostFree (f : State → State) : Prop := ∀ (s : State) (g : List (Nat × Ghost)), ∃ g', f (s.withGhost g) = (f s).withGhost g'

theorem GhostFree.comp {f f' : State → State} (h : GhostFree f) (h' : GhostFree f') : GhostFree fun s => f' (f s) := fun s g => by
  obtain ⟨g₁, h₁⟩ := h s g
  obtain ⟨g₂, h₂⟩ := h' (f s) g₁
  exact ⟨g₂, (congrArg f' h₁).trans h₂⟩

theorem forElements_ghostFree {f : Nat → State → State} (h : ∀ e, GhostFree (f e)) (k : Nat) : GhostFree (forElements k f) := by
  induction k with
  | zero => exact fun _ g => ⟨g, rfl⟩
  | succ k ih =>
    rw [show forElements (k + 1) f = fun s => f k (forElements k f s) from funext fun s => forElements_succ k f s]
    exact ih.comp (h k)

/-- Storing the same words leaves the same state, whatever is recorded of them. -/
theorem storeSlot_withGhost (s : State) (g : List (Nat × Ghost)) (d n : Nat) (p : Poly) (r r' : Ghost) :
    ∃ g', (((s.withGhost g).setSlot d p).setGhost d r).advance n = (((s.setSlot d p).setGhost d r').advance n).withGhost g' :=
  ⟨_, rfl⟩

theorem doNtt_ghostFree (d : Nat) : GhostFree (doNtt d) := fun s g => by
  rw [doNtt, slotAt_withGhost]
  exact storeSlot_withGhost s g d 1 _ _ _

theorem doIntt_ghostFree (d : Nat) : GhostFree (doIntt d) := fun s g => by
  rw [doIntt, slotAt_withGhost]
  exact storeSlot_withGhost s g d 1 _ _ _

theorem doRed_ghostFree (d : Nat) : GhostFree (doRed d) := fun s g => by
  rw [doRed, slotAt_withGhost]
  exact storeSlot_withGhost s g d 1 _ _ _

theorem doAddr_ghostFree (d a : Nat) : GhostFree (doAddr d a) := fun s g => by
  rw [doAddr, slotAt_withGhost, slotAt_withGhost]
  exact storeSlot_withGhost s g d 2 _ _ _

theorem doSubr_ghostFree (d a : Nat) : GhostFree (doSubr d a) := fun s g => by
  rw [doSubr, slotAt_withGhost, slotAt_withGhost]
  exact storeSlot_withGhost s g d 2 _ _ _

theorem doAddaddr_ghostFree (d a b : Nat) : GhostFree (doAddaddr d a b) := fun s g => by
  rw [doAddaddr, slotAt_withGhost, slotAt_withGhost, slotAt_withGhost]
  exact storeSlot_withGhost s g d 3 _ _ _

theorem doVacc_ghostFree (k : Nat) (tm : Bool) (d a b : Nat) : GhostFree (doVacc k tm d a b) := fun s g => by
  rw [doVacc, show (s.withGhost g).vaccOperands k a b = s.vaccOperands k a b by simp only [State.vaccOperands, slotAt_withGhost]]
  exact storeSlot_withGhost s g d (2 * k) _ _ _

theorem ruleOf_ghostFree (i : Instr) : GhostFree (ruleOf i) := by
  cases i with
  | fqmul a b => exact fun _ g => ⟨g, rfl⟩
  | barrett a => exact fun _ g => ⟨g, rfl⟩
  | ntt d => exact doNtt_ghostFree d
  | intt d => exact doIntt_ghostFree d
  | red d => exact doRed_ghostFree d
  | addr d a => exact doAddr_ghostFree d a
  | addaddr d a b => exact doAddaddr_ghostFree d a b
  | subr d a => exact doSubr_ghostFree d a
  | vntt k d => exact forElements_ghostFree (fun e => (doNtt_ghostFree (d + e)).comp (doRed_ghostFree (d + e))) k
  | vintt k d => exact forElements_ghostFree (fun e => doIntt_ghostFree (d + e)) k
  | vaddr k d a => exact forElements_ghostFree (fun e => doAddr_ghostFree (d + e) (a + e)) k
  | vacc k tm d a b => exact doVacc_ghostFree k tm d a b

/-- Settles O58: admission looks at NSLOT only, and the rule leaves the same state but for the ghost record. -/
theorem ghostsDecideNothing : Obligations.GhostsDecideNothing := by
  intro i s g
  by_cases ha : admission s.cfg.nslot i = .ok
  · obtain ⟨g', hg'⟩ := ruleOf_ghostFree i s g
    refine ⟨_, _, exec_ok ha, exec_ok (s := s.withGhost g) ha, ?_⟩
    rw [hg']
    exact ⟨rfl, rfl, rfl, rfl⟩
  · exact ⟨_, _, exec_refused ha, exec_refused (s := s.withGhost g) ha, rfl, rfl, rfl, rfl⟩

/-! ### What is recorded (10_state R28, R29; 70_reset R213) -/

/-- What is recorded after an admitted command is what its rule records. -/
theorem ghostOf_of_exec {i : Instr} {s t : State} (ha : admission s.cfg.nslot i = .ok) (ht : exec i s = .next t) (n : Nat) :
    t.ghostOf n = (ruleOf i s).ghostOf n := by
  rw [exec_ok ha] at ht
  injection ht with ht
  rw [← ht]
  rfl

theorem common_eq_some {α : Type} [DecidableEq α] {v : α} {l : List (Option α)} (hne : l ≠ []) (h : ∀ x ∈ l, x = some v) :
    common l = some v := by
  cases l with
  | nil => exact absurd rfl hne
  | cons x xs =>
    have hx : x = some v := h x (by simp)
    subst hx
    exact if_pos (List.all_eq_true.2 fun y hy => decide_eq_true (h y (by simp [hy])))

theorem afterNtt_bound (g : Ghost) : g.afterNtt.bound = boundWithin 9464 (fun b => b + 23296) g.bound := rfl

theorem afterIntt_bound (g : Ghost) : g.afterIntt.bound = boundWithin 16383 (fun _ => 3328) g.bound := rfl

theorem afterVacc_bound (k : Nat) (tm : Bool) (as bs : List Ghost) :
    (Ghost.afterVacc k tm as bs).bound =
      boundWithin (vaccNeed k) (fun _ => if tm then 3328 else 1664) (maxBound ((as ++ bs).map Ghost.bound)) := rfl

theorem afterSum_tag_scale {gs : List Ghost} {x : OrderTag} {e : Int} (hne : gs ≠ []) (h : ∀ g ∈ gs, g.tag = some x ∧ g.scale = some e) :
    (Ghost.afterSum gs).tag = some x ∧ (Ghost.afterSum gs).scale = some e :=
  ⟨common_eq_some (by simpa using hne) (List.forall_mem_map.2 fun g hg => (h g hg).1),
    common_eq_some (by simpa using hne) (List.forall_mem_map.2 fun g hg => (h g hg).2)⟩

theorem afterSum_bound_of_le {gs : List Ghost} {b : Nat} (h : sumBound (gs.map Ghost.bound) = some b) (hb : b ≤ 32767) :
    (Ghost.afterSum gs).bound = some 1664 := by
  unfold Ghost.afterSum
  rw [h]
  exact boundWithin_of_le (fun _ => 1664) hb

/-- The largest of bounds that are all known and within `need`, from a start that is. -/
theorem maxBound_le {need : Nat} {bs : List (Option Nat)} (h : ∀ b ∈ bs, ∃ m, b = some m ∧ m ≤ need) :
    ∃ m, maxBound bs = some m ∧ m ≤ need := by
  have key : ∀ (bs : List (Option Nat)) (x : Nat), x ≤ need → (∀ b ∈ bs, ∃ m, b = some m ∧ m ≤ need) →
      ∃ m, bs.foldl (fun acc b => match acc, b with
        | some x, some y => some (max x y)
        | _, _ => none) (some x) = some m ∧ m ≤ need := by
    intro bs
    induction bs with
    | nil => exact fun x hx _ => ⟨x, rfl, hx⟩
    | cons b bs ih =>
      intro x hx hbs
      obtain ⟨y, rfl, hy⟩ := hbs b (by simp)
      exact ih (max x y) (Nat.max_le.2 ⟨hx, hy⟩) fun c hc => hbs c (by simp [hc])
  exact key bs 0 (Nat.zero_le _) h

/-- A property of what is recorded for every element of a vector. -/
theorem forall_mem_slotRun {b k : Nat} {s : State} {P : Ghost → Prop} (h : ∀ e < k, P (s.ghostOf (b + e))) :
    ∀ g ∈ (slotRun b k).map s.ghostOf, P g :=
  List.forall_mem_map.2 fun n hn => by
    have hn := mem_slotRun.1 hn
    obtain ⟨e, rfl⟩ := Nat.exists_eq_add_of_le hn.1
    exact h e (by omega)

theorem slotRun_map_ne_nil {α : Type} {b k : Nat} (hk : 0 < k) (f : Nat → α) : (slotRun b k).map f ≠ [] := by
  simp [slotRun, Nat.ne_of_gt hk]

theorem vecLen_pos {k : Nat} (h : vecLenLegal k = true) : 0 < k := by
  have := (vecLenLegal_iff k).1 h
  omega

theorem afterVacc_tag_scale {k : Nat} {tm : Bool} {as bs : List Ghost} {ea eb : Int} (ha : as ≠ []) (hb : bs ≠ [])
    (has : ∀ g ∈ as, g.tag = some .brev ∧ g.scale = some ea) (hbs : ∀ g ∈ bs, g.tag = some .brev ∧ g.scale = some eb) :
    (Ghost.afterVacc k tm as bs).tag = some .brev ∧
      (Ghost.afterVacc k tm as bs).scale = some (if tm then ea + eb else ea + eb - 1) := by
  have htag : common ((as ++ bs).map Ghost.tag) = some .brev :=
    common_eq_some (by simp [ha]) (List.forall_mem_map.2 fun g hg => (List.mem_append.1 hg).elim (fun h => (has g h).1)
      fun h => (hbs g h).1)
  have hea : common (as.map Ghost.scale) = some ea := common_eq_some (by simpa using ha) (List.forall_mem_map.2 fun g hg => (has g hg).2)
  have heb : common (bs.map Ghost.scale) = some eb := common_eq_some (by simpa using hb) (List.forall_mem_map.2 fun g hg => (hbs g hg).2)
  rw [Ghost.afterVacc, htag, hea, heb]
  exact ⟨rfl, rfl⟩

/-- What a mark does to a slot of which the host has written a word, and all are written (R36). -/
theorem mark_known {s : State} {d : Nat} (hd : d < s.cfg.nslot) (hh : storeGet s.hostWrote d = some ()) (hw : s.Written d)
    (tag : Option OrderTag) (scale : Option Int) :
    handle (.mark d tag scale) s = .next (s.setGhost d ⟨tag, scale, s.slotBound d⟩) := by
  rw [handle, markSlot_eq, if_pos hd, if_pos ((markable_iff s d).2 ⟨hh, hw⟩)]

theorem mark_unknown {s : State} {d : Nat} (hd : d < s.cfg.nslot) (h : storeGet s.hostWrote d = none ∨ ¬s.Written d)
    (tag : Option OrderTag) (scale : Option Int) : handle (.mark d tag scale) s = .next s := by
  have hm : ¬s.markable d = true := fun hm => by
    obtain ⟨hh, hw⟩ := (markable_iff s d).1 hm
    rcases h with h | h
    · rw [h] at hh
      cases hh
    · exact h hw
  rw [handle, markSlot_eq, if_pos hd, if_neg hm]

/-- Settles O59: the records of the specs of the rules, whose tags and scales are the tables'. -/
theorem tagsAndScalesFollowTheTables : Obligations.TagsAndScalesFollowTheTables := by
  intro s k d a b tm x ea eb
  refine ⟨fun t hd ht hx => ?_, fun t hd ht hx he => ?_, fun t hd ht => ?_, fun t i hi hd ha ht h => ?_, fun t hd ha hb ht h => ?_,
    fun t hadm ht e he hx => ?_, fun t hadm ht e he hx hs => ?_, fun t hadm ht e he h => ?_, fun t hadm ht h => ?_,
    fun hd => ⟨fun h => mark_unknown hd h _ _, fun hh hw => ⟨_, mark_known hd hh hw _ _, ?_⟩⟩⟩
  · rw [ghostOf_of_exec (admission_ntt hd) ht, ruleOf, (doNtt_spec s d).2.2.1]
    exact ⟨if_pos hx, rfl⟩
  · rw [ghostOf_of_exec (admission_intt hd) ht, ruleOf, (doIntt_spec s d).2.2.1]
    exact ⟨if_pos hx, by simp [Ghost.afterIntt, he]⟩
  · rw [ghostOf_of_exec (admission_red hd) ht, ruleOf, (doRed_spec s d).2.2.1]
    exact ⟨rfl, rfl⟩
  · have hsum : t.ghostOf d = Ghost.afterSum [s.ghostOf d, s.ghostOf a] := by
      simp only [List.mem_cons, List.not_mem_nil, or_false] at hi
      rcases hi with rfl | rfl
      · rw [ghostOf_of_exec (admission_addr hd ha) ht, ruleOf, (doAddr_spec s d a).2.2.1]
      · rw [ghostOf_of_exec (admission_subr hd ha) ht, ruleOf, (doSubr_spec s d a).2.2.1]
    rw [hsum]
    exact afterSum_tag_scale (by simp) (by simpa using h)
  · rw [ghostOf_of_exec (admission_addaddr hd ha hb) ht, ruleOf, (doAddaddr_spec s d a b).2.2.1]
    exact afterSum_tag_scale (by simp) (by simpa using h)
  · rw [ghostOf_of_exec hadm ht, ruleOf, doVntt_ghost s he]
    exact ⟨if_pos hx, rfl⟩
  · rw [ghostOf_of_exec hadm ht, ruleOf, doVintt_ghost s he]
    exact ⟨if_pos hx, by simp [Ghost.afterIntt, hs]⟩
  · rw [ghostOf_of_exec hadm ht, ruleOf, doVaddr_ghost s (ranges_of_admission hadm) he]
    exact afterSum_tag_scale (by simp) (by simpa using h)
  · have hk := vecLen_pos (admission_ok.1 hadm).1
    rw [ghostOf_of_exec hadm ht, ruleOf, (doVacc_spec s k tm d a b).2.2.1]
    exact afterVacc_tag_scale (slotRun_map_ne_nil hk _) (slotRun_map_ne_nil hk _)
      (forall_mem_slotRun fun e he => ⟨(h e he).1, (h e he).2.1⟩) (forall_mem_slotRun fun e he => ⟨(h e he).2.2.1, (h e he).2.2.2⟩)
  · rw [ghostOf_setGhost, if_pos rfl]
    dsimp only
    exact ⟨rfl, rfl, slotBound_isSome hw, fun n hn => by rw [ghostOf_setGhost, if_neg hn], rfl, rfl⟩

/-- Settles O60: the records of the specs of the rules, whose bounds are the table's. -/
theorem recordedBoundsFollowTheTable : Obligations.RecordedBoundsFollowTheTable := by
  intro s k d a b tm x y z need
  refine ⟨fun t hd ht hx hle => ?_, fun t hd ht hx hle => ?_, fun t hd ht => ?_, fun t i hi hd ha ht hx hy hle => ?_,
    fun t hd ha hb ht hx hy hz hle => ?_, fun t hadm ht e he => ?_, fun t hadm ht e he hx hle => ?_,
    fun t hadm ht e he hx hy hle => ?_, fun t hneed hadm ht h => ?_⟩
  · rw [ghostOf_of_exec (admission_ntt hd) ht, ruleOf, (doNtt_spec s d).2.2.1, afterNtt_bound, hx, boundWithin_of_le _ hle]
  · rw [ghostOf_of_exec (admission_intt hd) ht, ruleOf, (doIntt_spec s d).2.2.1, afterIntt_bound, hx, boundWithin_of_le _ hle]
  · rw [ghostOf_of_exec (admission_red hd) ht, ruleOf, (doRed_spec s d).2.2.1]
    rfl
  · have hsum : t.ghostOf d = Ghost.afterSum [s.ghostOf d, s.ghostOf a] := by
      simp only [List.mem_cons, List.not_mem_nil, or_false] at hi
      rcases hi with rfl | rfl
      · rw [ghostOf_of_exec (admission_addr hd ha) ht, ruleOf, (doAddr_spec s d a).2.2.1]
      · rw [ghostOf_of_exec (admission_subr hd ha) ht, ruleOf, (doSubr_spec s d a).2.2.1]
    rw [hsum]
    exact afterSum_bound_of_le (b := x + y) (by simp [sumBound, hx, hy]) hle
  · rw [ghostOf_of_exec (admission_addaddr hd ha hb) ht, ruleOf, (doAddaddr_spec s d a b).2.2.1]
    exact afterSum_bound_of_le (b := x + y + z) (by simp [sumBound, hx, hy, hz]) hle
  · rw [ghostOf_of_exec hadm ht, ruleOf, doVntt_ghost s he]
    rfl
  · rw [ghostOf_of_exec hadm ht, ruleOf, doVintt_ghost s he, afterIntt_bound, hx, boundWithin_of_le _ hle]
  · rw [ghostOf_of_exec hadm ht, ruleOf, doVaddr_ghost s (ranges_of_admission hadm) he]
    exact afterSum_bound_of_le (b := x + y) (by simp [sumBound, hx, hy]) hle
  · have hvn : vaccNeed k = need := by
      simp only [List.mem_cons, List.not_mem_nil, or_false, Prod.mk.injEq] at hneed
      rcases hneed with ⟨rfl, rfl⟩ | ⟨rfl, rfl⟩ | ⟨rfl, rfl⟩ <;> rfl
    have hslot (c : Nat) (hc : ∀ e < k, ∃ m, (s.ghostOf (c + e)).bound = some m ∧ m ≤ need) :=
      forall_mem_slotRun (P := fun g => ∃ m, g.bound = some m ∧ m ≤ need) hc
    have hmax : ∃ m, maxBound (((slotRun a k).map s.ghostOf ++ (slotRun b k).map s.ghostOf).map Ghost.bound) = some m ∧ m ≤ need :=
      maxBound_le (List.forall_mem_map.2 fun g hg => (List.mem_append.1 hg).elim (hslot a (fun e he => h e he (a + e) (by simp)) g)
        (hslot b (fun e he => h e he (b + e) (by simp)) g))
    obtain ⟨m, hm, hle⟩ := hmax
    rw [ghostOf_of_exec hadm ht, ruleOf, (doVacc_spec s k tm d a b).2.2.1, afterVacc_bound, hm, hvn, boundWithin_of_le _ hle]

/-! ### Disjoint commands commute (20_memory R59) -/

/-- Two states that know the same of the slots a command reads know the same afterwards of those it writes. -/
theorem ruleOf_ghosts {n : Nat} {i : Instr} (ha : admission n i = .ok) {s s' : State}
    (hr : ∀ m ∈ (footprint i).reads, s.ghostOf m = s'.ghostOf m) :
    ∀ m ∈ (footprint i).writes, (ruleOf i s).ghostOf m = (ruleOf i s').ghostOf m := by
  cases i with
  | fqmul a b => simp [footprint]
  | barrett a => simp [footprint]
  | ntt d =>
    simp only [footprint, List.mem_singleton, forall_eq] at hr ⊢
    rw [ruleOf, ruleOf, (doNtt_spec s d).2.2.1, (doNtt_spec s' d).2.2.1, hr]
  | intt d =>
    simp only [footprint, List.mem_singleton, forall_eq] at hr ⊢
    rw [ruleOf, ruleOf, (doIntt_spec s d).2.2.1, (doIntt_spec s' d).2.2.1, hr]
  | red d =>
    simp only [footprint, List.mem_singleton, forall_eq] at hr ⊢
    rw [ruleOf, ruleOf, (doRed_spec s d).2.2.1, (doRed_spec s' d).2.2.1, hr]
  | addr d a =>
    simp only [footprint, List.mem_cons, List.not_mem_nil, or_false, forall_eq_or_imp, forall_eq] at hr ⊢
    rw [ruleOf, ruleOf, (doAddr_spec s d a).2.2.1, (doAddr_spec s' d a).2.2.1, hr.1, hr.2]
  | addaddr d a b =>
    simp only [footprint, List.mem_cons, List.not_mem_nil, or_false, forall_eq_or_imp, forall_eq] at hr ⊢
    rw [ruleOf, ruleOf, (doAddaddr_spec s d a b).2.2.1, (doAddaddr_spec s' d a b).2.2.1, hr.1, hr.2.1, hr.2.2]
  | subr d a =>
    simp only [footprint, List.mem_cons, List.not_mem_nil, or_false, forall_eq_or_imp, forall_eq] at hr ⊢
    rw [ruleOf, ruleOf, (doSubr_spec s d a).2.2.1, (doSubr_spec s' d a).2.2.1, hr.1, hr.2]
  | vntt k d =>
    intro m hm
    have hm' := mem_slotRun.1 hm
    obtain ⟨e, rfl⟩ := Nat.exists_eq_add_of_le hm'.1
    rw [ruleOf, ruleOf, doVntt_ghost s (by omega), doVntt_ghost s' (by omega), hr _ hm]
  | vintt k d =>
    intro m hm
    have hm' := mem_slotRun.1 hm
    obtain ⟨e, rfl⟩ := Nat.exists_eq_add_of_le hm'.1
    rw [ruleOf, ruleOf, doVintt_ghost s (by omega), doVintt_ghost s' (by omega), hr _ hm]
  | vaddr k d a =>
    intro m hm
    have hm' := mem_slotRun.1 hm
    obtain ⟨e, rfl⟩ := Nat.exists_eq_add_of_le hm'.1
    have ho := ranges_of_admission ha
    rw [ruleOf, ruleOf, doVaddr_ghost s ho (by omega), doVaddr_ghost s' ho (by omega), hr _ (List.mem_append_left _ hm),
      hr (a + e) (List.mem_append_right _ (mem_slotRun.2 (by omega)))]
  | vacc k tm d a b =>
    simp only [footprint, List.mem_singleton, forall_eq] at hr ⊢
    have hmap (c : Nat) (hc : ∀ m ∈ slotRun c k, s.ghostOf m = s'.ghostOf m) :
        (slotRun c k).map s.ghostOf = (slotRun c k).map s'.ghostOf := List.map_congr_left hc
    rw [ruleOf, ruleOf, (doVacc_spec s k tm d a b).2.2.1, (doVacc_spec s' k tm d a b).2.2.1,
      hmap a fun m hm => hr m (List.mem_append_left _ hm), hmap b fun m hm => hr m (List.mem_append_right _ hm)]

/-- Two states that agree on the slots a command word reads agree afterwards on those it writes. -/
theorem runCommand_local {w : Command} {s s' t t' : State} (hc : s'.cfg = s.cfg)
    (hr : ∀ m ∈ (wordFootprint s.cfg.nslot w).reads, (∀ j, s.slotAt j m = s'.slotAt j m) ∧ s.ghostOf m = s'.ghostOf m)
    (ht : runCommand w s = .next t) (ht' : runCommand w s' = .next t') :
    ∀ m ∈ (wordFootprint s.cfg.nslot w).writes,
      (∀ x < 256, t.cm.read (wordAddr m x) = t'.cm.read (wordAddr m x)) ∧ t.ghostOf m = t'.ghostOf m := by
  unfold runCommand at ht ht'
  cases hd : decode w with
  | refused st =>
    rw [wordFootprint_of_refused hd]
    simp
  | instr i =>
    rw [wordFootprint_of_instr hd] at hr ⊢
    simp only [hd] at ht ht'
    by_cases ha : admission s.cfg.nslot i = .ok
    · rw [if_pos ha] at hr ⊢
      have ha' : admission s'.cfg.nslot i = .ok := hc ▸ ha
      rw [exec_ok ha] at ht
      rw [exec_ok ha'] at ht'
      injection ht with ht
      injection ht' with ht'
      subst ht ht'
      intro m hm
      obtain ⟨p, hp, hp'⟩ := ruleOf_words ha (fun m hm => (hr m hm).1) m hm
      exact ⟨fun x hx => (hp x hx).trans (hp' x hx).symm, ruleOf_ghosts ha (fun m hm => (hr m hm).2) m hm⟩
    · rw [if_neg ha]
      simp

/-- Footprints that do not collide: neither writes what the other reads or writes. -/
theorem disjoint_of_not_collide {f g : Footprint} (h : collide f g = false) :
    (∀ n ∈ f.writes, n ∉ g.reads ∧ n ∉ g.writes) ∧ ∀ n ∈ g.writes, n ∉ f.reads ∧ n ∉ f.writes := by
  simp only [collide, Bool.or_eq_false_iff, List.any_eq_false, Bool.or_eq_true, List.contains_iff_mem, not_or] at h
  exact ⟨h.1, fun n hn => ⟨h.2 n hn, fun hf => (h.1 n hf).2 hn⟩⟩

/-- What a command does after another that leaves its footprint alone is what it does before it: on the slots it writes the words and
the records are those of the other order. -/
theorem runCommand_after {w w' : Command} {s t t' u : State} (ht : runCommand w s = .next t) (ht' : runCommand w' s = .next t')
    (hu : runCommand w t' = .next u) (hw : ∀ n ∈ (wordFootprint s.cfg.nslot w).reads, s.Written n)
    (hdis : ∀ n ∈ (wordFootprint s.cfg.nslot w').writes, n ∉ (wordFootprint s.cfg.nslot w).reads) :
    ∀ m ∈ (wordFootprint s.cfg.nslot w).writes,
      (∀ x < 256, t.cm.read (wordAddr m x) = u.cm.read (wordAddr m x)) ∧ t.ghostOf m = u.ghostOf m := by
  obtain ⟨t'', ht'', hsame, -⟩ := runCommand_spec w' s
  rw [ht'] at ht''
  injection ht'' with ht''
  subst ht''
  refine runCommand_local hsame.cfg (fun m hm => ?_) ht hu
  have hm' : m ∉ (wordFootprint s.cfg.nslot w').writes := fun h => hdis m h hm
  exact ⟨fun j => (slotAt_of_sameBut hsame hm' (hw m hm) j j).symm, (hsame.ghosts m hm').symm⟩

/-- Settles O56: on the slots of either command both orders give what that command gives alone, elsewhere nothing changes, and equal
readings of canonical memories are equal memories. -/
theorem disjointCommandsCommute : Obligations.DisjointCommandsCommute := by
  intro w w' s hinv hcol hwr
  obtain ⟨hdis, hdis'⟩ := disjoint_of_not_collide hcol
  have hw : ∀ n ∈ (wordFootprint s.cfg.nslot w).reads, s.Written n := fun n hn => hwr n (List.mem_append_left _ hn)
  have hw' : ∀ n ∈ (wordFootprint s.cfg.nslot w').reads, s.Written n := fun n hn => hwr n (List.mem_append_right _ hn)
  obtain ⟨a, ha, hsa, hansa, -⟩ := runCommand_spec w s
  obtain ⟨b, hb, hsb, hansb, -⟩ := runCommand_spec w' s
  obtain ⟨t, ht, hst, hanst, -⟩ := runCommand_spec w' a
  obtain ⟨u, hu, hsu, hansu, -⟩ := runCommand_spec w b
  rw [hsa.cfg] at hst hanst
  rw [hsb.cfg] at hsu hansu
  have hkeep {x y : State} {v : Command} (hx : x.Inv) (hv : runCommand v x = .next y) : y.Inv :=
    ((inv_stepClosed x.cfg).keeps_runCommand ⟨hx, rfl⟩ hv).1
  have key (n : Nat) : (∀ x < 256, t.cm.read (wordAddr n x) = u.cm.read (wordAddr n x)) ∧ t.ghostOf n = u.ghostOf n := by
    by_cases h1 : n ∈ (wordFootprint s.cfg.nslot w).writes
    · have h := runCommand_after ha hb hu hw (fun m hm => (hdis' m hm).1) n h1
      have hn := (hdis n h1).2
      exact ⟨fun x hx => (sameBut_slot hst hn x hx).trans (h.1 x hx), (hst.ghosts n hn).trans h.2⟩
    · by_cases h2 : n ∈ (wordFootprint s.cfg.nslot w').writes
      · have h := runCommand_after hb ha ht hw' (fun m hm => (hdis m hm).1) n h2
        exact ⟨fun x hx => ((sameBut_slot hsu h1 x hx).trans (h.1 x hx)).symm, ((hsu.ghosts n h1).trans h.2).symm⟩
      · refine ⟨fun x hx => ?_, ?_⟩
        · rw [sameBut_slot hst h2 x hx, sameBut_slot hsa h1 x hx, sameBut_slot hsu h1 x hx, sameBut_slot hsb h2 x hx]
        · rw [hst.ghosts n h2, hsa.ghosts n h1, hsu.ghosts n h1, hsb.ghosts n h2]
  refine ⟨t, u, _, _, by rw [ha, andThen_next, ht], by rw [hb, andThen_next, hu], ?_, fun n => (key n).2,
    hanst.trans (by rw [hansa, List.append_assoc]; rfl), hansu.trans (by rw [hansb, List.append_assoc]; rfl)⟩
  refine eq_of_storeGet_eq (hkeep (hkeep hinv ha) ht).cm (hkeep (hkeep hinv hb) hu).cm fun x => ?_
  have h := (key (x / 256)).1 (x % 256) (Nat.mod_lt x (by decide))
  rwa [wordAddr_eq, Nat.div_add_mod] at h

end Sys2Proof.Machine
end

section
/-! SUPPORT. The lane datapath (41_butterfly_layout) computes the words of the scalar rules: vectors of lanes are words in order, a
vector pass is a pass over blocks of the words, a transposed tile is four blocks of stride 2, and a layer of stride below 128 splits
into the two halves. Each is said once for any butterfly, so that it serves both directions. -/

namespace Sys2Proof.Machine

/-! ### Lanes as words (R122, R124) -/

theorem ofLanes_cons (v : Lanes) (vs : List Lanes) : ofLanes (v :: vs) = v.l0 :: v.l1 :: v.l2 :: v.l3 :: ofLanes vs := rfl

theorem ofLanes_append (vs ws : List Lanes) : ofLanes (vs ++ ws) = ofLanes vs ++ ofLanes ws := List.flatMap_append

theorem ofLanes_length (vs : List Lanes) : (ofLanes vs).length = 4 * vs.length := by
  induction vs with
  | nil => rfl
  | cons v vs ih =>
    simp only [ofLanes_cons, List.length_cons, ih]
    omega

theorem ofLanes_take (n : Nat) (vs : List Lanes) : ofLanes (vs.take n) = (ofLanes vs).take (4 * n) := by
  induction n generalizing vs with
  | zero => rfl
  | succ n ih =>
    cases vs with
    | nil => rfl
    | cons v vs => simp only [List.take_succ_cons, ofLanes_cons, ih, Nat.mul_succ]

theorem ofLanes_drop (n : Nat) (vs : List Lanes) : ofLanes (vs.drop n) = (ofLanes vs).drop (4 * n) := by
  induction n generalizing vs with
  | zero => rfl
  | succ n ih =>
    cases vs with
    | nil => rfl
    | cons v vs => simp only [List.drop_succ_cons, ofLanes_cons, ih, Nat.mul_succ]

/-- Cutting words into vectors and laying them out again changes nothing, if no word is left over. -/
theorem ofLanes_toLanes (n : Nat) {r : Poly} (h : r.length = 4 * n) : ofLanes (toLanes r) = r ∧ (toLanes r).length = n := by
  induction n generalizing r with
  | zero =>
    rw [List.length_eq_zero_iff.1 h]
    exact ⟨rfl, rfl⟩
  | succ n ih =>
    match r, h with
    | a :: b :: c :: d :: r, h =>
      obtain ⟨hw, hl⟩ := ih (r := r) (by simp only [List.length_cons] at h; omega)
      exact ⟨by rw [toLanes, ofLanes_cons, hw], by rw [toLanes, List.length_cons, hl]⟩

/-- Settles O47: each word of the tile is followed through both interleaving stages. -/
theorem transposeIsAnInvolution : Obligations.TransposeIsAnInvolution := by
  intro t
  refine ⟨rfl, fun r hr l hl => ?_⟩
  interval_cases r <;> interval_cases l <;> rfl

/-! ### Vector passes as passes over the words (R127, R128) -/

/-- A butterfly in each lane. -/
def vbfly (f : Word → Word → Word → Word × Word) (x y z : Lanes) : Lanes × Lanes :=
  (⟨(f x.l0 y.l0 z.l0).1, (f x.l1 y.l1 z.l1).1, (f x.l2 y.l2 z.l2).1, (f x.l3 y.l3 z.l3).1⟩,
   ⟨(f x.l0 y.l0 z.l0).2, (f x.l1 y.l1 z.l1).2, (f x.l2 y.l2 z.l2).2, (f x.l3 y.l3 z.l3).2⟩)

theorem vbflyCt_eq (x y z : Lanes) : vbflyCt x y z = vbfly bflyCt x y z := rfl

theorem vbflyGsR_eq (x y z : Lanes) : vbflyGsR x y z = vbfly bflyGsR x y z := rfl

/-- The blocks of a lane-parallel layer of the butterfly `f`. -/
def laneBlocks (f : Word → Word → Word → Word × Word) (m : Nat) : List Word → List Lanes → List Lanes
  | [], r => r
  | z :: zs, r =>
    List.zipWith (fun a b => (vbfly f a b (broadcast z)).1) (r.take m) ((r.drop m).take m)
      ++ List.zipWith (fun a b => (vbfly f a b (broadcast z)).2) (r.take m) ((r.drop m).take m) ++ laneBlocks f m zs (r.drop (2 * m))

theorem laneCtBlocks_eq (m : Nat) (zs : List Word) (r : List Lanes) : laneCtBlocks m zs r = laneBlocks bflyCt m zs r := by
  induction zs generalizing r with
  | nil => rfl
  | cons z zs ih => simp only [laneCtBlocks, laneBlocks, ih, vbflyCt_eq]

theorem laneGsBlocks_eq (m : Nat) (zs : List Word) (r : List Lanes) : laneGsBlocks m zs r = laneBlocks bflyGsR m zs r := by
  induction zs generalizing r with
  | nil => rfl
  | cons z zs ih => simp only [laneGsBlocks, laneBlocks, ih, vbflyGsR_eq]

/-- An operation that does the same in each lane is the operation on the words. -/
theorem ofLanes_zipWith {F : Lanes → Lanes → Lanes} {g : Word → Word → Word}
    (h : ∀ a b, F a b = ⟨g a.l0 b.l0, g a.l1 b.l1, g a.l2 b.l2, g a.l3 b.l3⟩) (x y : List Lanes) :
    ofLanes (List.zipWith F x y) = List.zipWith g (ofLanes x) (ofLanes y) := by
  induction x generalizing y with
  | nil => rfl
  | cons a x ih =>
    cases y with
    | nil => rfl
    | cons b y => simp only [List.zipWith_cons_cons, ofLanes_cons, ih, h]

/-- A lane-parallel layer of stride m vectors is the layer of stride 4·m words (R128). -/
theorem ofLanes_laneBlocks (f : Word → Word → Word → Word × Word) (m : Nat) (zs : List Word) (r : List Lanes) :
    ofLanes (laneBlocks f m zs r) = blocks f (4 * m) zs (ofLanes r) := by
  induction zs generalizing r with
  | nil => rfl
  | cons z zs ih =>
    rw [laneBlocks, blocks, ofLanes_append, ofLanes_append, ih,
      ofLanes_zipWith (F := fun a b => (vbfly f a b (broadcast z)).1) (g := fun a b => (f a b z).1) (fun _ _ => rfl),
      ofLanes_zipWith (F := fun a b => (vbfly f a b (broadcast z)).2) (g := fun a b => (f a b z).2) (fun _ _ => rfl)]
    simp only [ofLanes_take, ofLanes_drop, Nat.mul_left_comm]

/-- The stride-2 layer of one tile (R143, R154). -/
def tileBfly (f : Word → Word → Word → Word × Word) (z : Lanes) (t : Tile) : Tile :=
  trn4 ⟨(vbfly f (trn4 t).v0 (trn4 t).v2 z).1, (vbfly f (trn4 t).v1 (trn4 t).v3 z).1, (vbfly f (trn4 t).v0 (trn4 t).v2 z).2,
    (vbfly f (trn4 t).v1 (trn4 t).v3 z).2⟩

theorem tileCt_eq : tileCt = tileBfly bflyCt := rfl

theorem tileGs_eq : tileGs = tileBfly bflyGsR := rfl

/-- The transposed butterflies of a tile are four blocks of stride 2, lane r of the constants for block r. -/
theorem ofLanes_eachTile (f : Word → Word → Word → Word × Word) (zs vs : List Lanes) (h : vs.length = 4 * zs.length) :
    ofLanes (eachTile (tileBfly f) zs vs) = blocks f 2 (ofLanes zs) (ofLanes vs) := by
  induction zs generalizing vs with
  | nil => rfl
  | cons z zs ih =>
    match vs, h with
    | a :: b :: c :: d :: vs, h =>
      rw [eachTile, ofLanes_cons z, ofLanes_cons, ofLanes_cons, ofLanes_cons, ofLanes_cons,
        ih vs (by simp only [List.length_cons] at h; omega)]
      rfl

/-! ### The two halves of a layer -/

theorem blocks_length (f : Word → Word → Word → Word × Word) (len : Nat) (zs : List Word) {r : Poly}
    (h : r.length = 2 * len * zs.length) : (blocks f len zs r).length = r.length := by
  induction zs generalizing r with
  | nil => rfl
  | cons z zs ih =>
    rw [List.length_cons, Nat.mul_succ] at h
    have hd : (r.drop (2 * len)).length = 2 * len * zs.length := by rw [List.length_drop]; omega
    simp only [blocks, List.length_append, List.length_zipWith, List.length_take, List.length_drop, ih hd]
    omega

/-- A whole number of blocks, then others. -/
theorem blocks_append (f : Word → Word → Word → Word × Word) (len : Nat) (zs zs' : List Word) {r r' : Poly}
    (h : r.length = 2 * len * zs.length) : blocks f len (zs ++ zs') (r ++ r') = blocks f len zs r ++ blocks f len zs' r' := by
  induction zs generalizing r with
  | nil =>
    rw [List.length_eq_zero_iff.1 h]
    rfl
  | cons z zs ih =>
    rw [List.length_cons, Nat.mul_succ] at h
    have hd : (r.drop (2 * len)).length = 2 * len * zs.length := by rw [List.length_drop]; omega
    rw [List.cons_append, blocks, blocks, List.drop_append_of_le_length (i := 2 * len) (by omega), ih hd,
      List.take_append_of_le_length (by omega), List.drop_append_of_le_length (i := len) (by omega), List.take_append_of_le_length (by rw [List.length_drop]; omega)]
    simp only [List.append_assoc]

/-- Consecutive entries of a constant table. -/
def tableRun (t : Nat → Word) (k n : Nat) : List Word := (List.range n).map fun i => t (k + i)

theorem tableRun_length (t : Nat → Word) (k n : Nat) : (tableRun t k n).length = n := by simp [tableRun]

theorem tableRun_add (t : Nat → Word) (k m n : Nat) : tableRun t k (m + n) = tableRun t k m ++ tableRun t (k + m) n := by
  simp [tableRun, List.range_add, Nat.add_assoc]

/-- A layer on all 256 words, its constants from entry `first len` of the table on. -/
def wholeLayer (f : Word → Word → Word → Word × Word) (t : Nat → Word) (first : Nat → Nat) (r : Poly) (len : Nat) : Poly :=
  blocks f len (tableRun t (first len) (128 / len)) r

/-- The same layer on half h of the words. -/
def halfLayer (f : Word → Word → Word → Word × Word) (t : Nat → Word) (first : Nat → Nat) (h : Nat) (r : Poly) (len : Nat) : Poly :=
  blocks f len (tableRun t (first len + h * (64 / len)) (64 / len)) r

/-- The first constant of the forward layer of stride `len` (R142). -/
def nttFirst (len : Nat) : Nat := 128 / len

/-- The first constant of the inverse layer of stride `len` (R152). -/
def inttFirst (len : Nat) : Nat := 128 - 256 / len

theorem nttLayer_eq_wholeLayer : nttLayer = wholeLayer bflyCt zeta nttFirst := by
  funext r len
  rw [nttLayer, ctBlocks_eq_blocks]
  rfl

theorem inttLayer_eq_wholeLayer : inttLayer = wholeLayer bflyGsR zetaInv inttFirst := by
  funext r len
  rw [inttLayer, gsBlocks_eq_blocks]
  rfl

/-- The strides a half holds whole blocks of. -/
def halfStrides : List Nat := [2, 4, 8, 16, 32, 64]

theorem halfStrides_mul {len : Nat} (hl : len ∈ halfStrides) : 2 * len * (64 / len) = 128 ∧ 128 / len = 64 / len + 64 / len := by
  revert len
  decide

variable {f : Word → Word → Word → Word × Word} {t : Nat → Word} {first : Nat → Nat}

theorem halfLayer_length {h len : Nat} (hl : len ∈ halfStrides) {r : Poly} (hr : r.length = 128) :
    (halfLayer f t first h r len).length = 128 := by
  rw [halfLayer, blocks_length _ _ _ (by rw [tableRun_length, (halfStrides_mul hl).1, hr]), hr]

theorem halfLayers_length {h : Nat} (ls : List Nat) (hls : ∀ len ∈ ls, len ∈ halfStrides) {r : Poly} (hr : r.length = 128) :
    (ls.foldl (halfLayer f t first h) r).length = 128 := by
  induction ls generalizing r with
  | nil => exact hr
  | cons len ls ih => exact ih (fun l hl => hls l (by simp [hl])) (halfLayer_length (hls len (by simp)) hr)

theorem wholeLayer_append {len : Nat} (hl : len ∈ halfStrides) {r r' : Poly} (hr : r.length = 128) :
    wholeLayer f t first (r ++ r') len = halfLayer f t first 0 r len ++ halfLayer f t first 1 r' len := by
  rw [wholeLayer, (halfStrides_mul hl).2, tableRun_add, blocks_append _ _ _ _ (by rw [tableRun_length, (halfStrides_mul hl).1, hr]),
    halfLayer, halfLayer, Nat.zero_mul, Nat.add_zero, Nat.one_mul]

/-- Layers of strides below 128 work on each half by itself. -/
theorem wholeLayers_append (ls : List Nat) (hls : ∀ len ∈ ls, len ∈ halfStrides) {r r' : Poly} (hr : r.length = 128) :
    ls.foldl (wholeLayer f t first) (r ++ r') =
      ls.foldl (halfLayer f t first 0) r ++ ls.foldl (halfLayer f t first 1) r' := by
  induction ls generalizing r r' with
  | nil => rfl
  | cons len ls ih =>
    have hl := hls len (by simp)
    rw [List.foldl_cons, wholeLayer_append hl hr, ih (fun l h => hls l (by simp [h])) (halfLayer_length hl hr), List.foldl_cons,
      List.foldl_cons]

/-- Lane-parallel layers of strides that are whole vectors. -/
theorem ofLanes_halfLayers {lane : List Lanes → Nat → List Lanes} {h : Nat}
    (hlane : ∀ vs len, lane vs len = laneBlocks f (len / 4) (tableRun t (first len + h * (64 / len)) (64 / len)) vs) (ls : List Nat)
    (hls : ∀ len ∈ ls, 4 * (len / 4) = len) (vs : List Lanes) :
    ofLanes (ls.foldl lane vs) = ls.foldl (halfLayer f t first h) (ofLanes vs) := by
  induction ls generalizing vs with
  | nil => rfl
  | cons len ls ih =>
    rw [List.foldl_cons, ih (fun l hl => hls l (by simp [hl])), hlane, ofLanes_laneBlocks, hls len (by simp), List.foldl_cons]
    rfl

/-! ### The forward schedule (42_ntt_forward R143) -/

theorem ofLanes_tileZetas (h : Nat) : ofLanes (tileZetas h) = tableRun zeta (64 + h * 32) 32 := by
  rw [Nat.mul_comm h]
  rfl

theorem halfLayer_ct_two (h : Nat) (r : Poly) :
    halfLayer bflyCt zeta nttFirst h r 2 = blocks bflyCt 2 (tableRun zeta (64 + h * 32) 32) r := rfl

/-- The six strides of a half: five on vectors, the last in tiles. -/
theorem ofLanes_halfNtt (h : Nat) {vs : List Lanes} (hv : vs.length = 32) :
    ofLanes (halfNtt h vs) = [64, 32, 16, 8, 4, 2].foldl (halfLayer bflyCt zeta nttFirst h) (ofLanes vs) := by
  have hlayers := ofLanes_halfLayers (lane := halfCtLayer h) (first := nttFirst) (fun _ _ => laneCtBlocks_eq _ _ _) [64, 32, 16, 8, 4] (by decide) vs
  have hlen : ([64, 32, 16, 8, 4].foldl (halfCtLayer h) vs).length = 32 := by
    have hl := ofLanes_length ([64, 32, 16, 8, 4].foldl (halfCtLayer h) vs)
    rw [hlayers, halfLayers_length _ (by decide) (by rw [ofLanes_length, hv])] at hl
    omega
  rw [halfNtt, tileCt_eq, ofLanes_eachTile _ _ _ (by rw [hlen]; rfl), hlayers, ofLanes_tileZetas, ← halfLayer_ct_two]
  simp only [List.foldl_cons, List.foldl_nil]

/-- Settles O45: the first layer works on vectors, the others on the two halves. -/
theorem mergedForwardScheduleEqualsScalar : Obligations.MergedForwardScheduleEqualsScalar := by
  intro p hp
  obtain ⟨hw, hl⟩ := ofLanes_toLanes 64 hp
  have hfirst : ofLanes (laneCtBlocks 32 [zeta 1] (toLanes p)) = nttLayer p 128 := by
    rw [laneCtBlocks_eq, ofLanes_laneBlocks, hw, nttLayer_eq_wholeLayer]
    rfl
  have hlen : (laneCtBlocks 32 [zeta 1] (toLanes p)).length = 64 := by
    have h := ofLanes_length (laneCtBlocks 32 [zeta 1] (toLanes p))
    rw [hfirst, nttLayer_length hp] at h
    omega
  have hn := nttLayer_length hp 128
  simp only [mergedNtt]
  rw [ofLanes_append, ofLanes_halfNtt 0 (by simp [hlen]), ofLanes_halfNtt 1 (by simp [hlen]), ofLanes_take, ofLanes_drop, hfirst,
    ← wholeLayers_append _ (by decide) (by simp [hn]), List.take_append_drop, ← nttLayer_eq_wholeLayer,
    nttPoly, nttStrides]
  simp only [List.foldl_cons, List.foldl_nil]

/-! ### The inverse schedule (43_ntt_inverse R154) -/

theorem ofLanes_tileInvZetas (h : Nat) : ofLanes (tileInvZetas h) = tableRun zetaInv (0 + h * 32) 32 := by
  rw [Nat.zero_add, Nat.mul_comm h]
  rfl

theorem halfLayer_gs_two (h : Nat) (r : Poly) :
    halfLayer bflyGsR zetaInv inttFirst h r 2 = blocks bflyGsR 2 (tableRun zetaInv (0 + h * 32) 32) r := rfl

/-- The six strides of a half: the first in tiles, five on vectors. -/
theorem ofLanes_halfIntt (h : Nat) {vs : List Lanes} (hv : vs.length = 32) :
    ofLanes (halfIntt h vs) = [2, 4, 8, 16, 32, 64].foldl (halfLayer bflyGsR zetaInv inttFirst h) (ofLanes vs) := by
  rw [halfIntt, ofLanes_halfLayers (lane := halfGsLayer h) (first := inttFirst) (fun _ _ => laneGsBlocks_eq _ _ _) [4, 8, 16, 32, 64] (by decide),
    tileGs_eq, ofLanes_eachTile _ _ _ (by rw [hv]; rfl), ofLanes_tileInvZetas, ← halfLayer_gs_two]
  simp only [List.foldl_cons, List.foldl_nil]

theorem ofLanes_laneGsLast (vs : List Lanes) : ofLanes (laneGsLast vs) = inttLast (ofLanes vs) := by
  unfold laneGsLast inttLast
  rw [ofLanes_append, ofLanes_zipWith (F := fun a b => (vbflyGsF a b).1) (g := fun a b => (bflyGsF a b).1) (fun _ _ => rfl),
    ofLanes_zipWith (F := fun a b => (vbflyGsF a b).2) (g := fun a b => (bflyGsF a b).2) (fun _ _ => rfl), ofLanes_take, ofLanes_drop]

/-- Settles O46: six layers on the two halves, then the last one on vectors. -/
theorem mergedInverseScheduleEqualsScalar : Obligations.MergedInverseScheduleEqualsScalar := by
  intro p hp
  obtain ⟨hw, hl⟩ := ofLanes_toLanes 64 hp
  simp only [mergedIntt]
  rw [ofLanes_laneGsLast, ofLanes_append, ofLanes_halfIntt 0 (by simp [hl]), ofLanes_halfIntt 1 (by simp [hl]), ofLanes_take,
    ofLanes_drop, hw, ← wholeLayers_append _ (by decide) (by simp [hp]), List.take_append_drop, ← inttLayer_eq_wholeLayer,
    inttPoly, inttStrides]

end Sys2Proof.Machine
end

section
/-! SUPPORT. The contracts of the transforms (42_ntt_forward R141, 43_ntt_inverse R151) in the integers modulo Q. Between the layers
each block of words is the polynomial modulo x^(block size) - ω for a power ω of 17, the root of the block; a layer splits a block into
the two with the square roots of ω. The inverse layers collect the inverse sum block by block, and the powers of the roots add up to
zero. -/

namespace Sys2Proof.Machine

open Finset

/-! ### Residues -/

theorem modEq_iff_cast {x y : Int} : x ≡ y [ZMOD 3329] ↔ (x : ZMod 3329) = y := (ZMod.intCast_eq_intCast_iff x y 3329).symm

/-- 169 is the reciprocal of R. -/
theorem R_mul_169 : (65536 * 169 : ZMod 3329) = 1 := by decide

theorem cast_fqmul (a b : Word) : ((fqmul a b).toInt : ZMod 3329) = a.toInt * (b.toInt * 169) := by
  rw [modEq_iff_cast.1 (fqmul_congr a b)]
  push_cast
  ring

theorem cast_barrett (a : Word) : ((barrett a).toInt : ZMod 3329) = a.toInt := modEq_iff_cast.1 (barrett_congr a)

/-- The constant a butterfly of the forward transform multiplies by (R142). -/
theorem cast_zeta {k : Nat} (hk : k < 128) : ((zeta k).toInt * 169 : ZMod 3329) = 17 ^ brv7 k := by
  obtain ⟨-, -, -, htab, -⟩ := tablesHoldPowersOfTheRoot
  have h : (zeta k).toInt ≡ 65536 * 17 ^ brv7 k [ZMOD 3329] := by
    have hr := cmod_range (65536 * 17 ^ brv7 k)
    rw [zeta, toInt_toWord, htab k hk, s16_of_range (by omega) (by omega)]
    exact cmod_congr _
  rw [modEq_iff_cast.1 h]
  push_cast
  rw [mul_right_comm, R_mul_169, one_mul]

theorem strides_blocks_le {len : Nat} (hl : len ∈ strides) : 128 / len ≤ 64 := by revert len; decide

/-- The constants the two directions use for one block are reciprocal (R25, R26). -/
theorem cast_zetaInv_mul {len b : Nat} (hl : len ∈ strides) (hb : b < 128 / len) :
    ((zetaInv (128 - 256 / len + b)).toInt * 169 : ZMod 3329) * 17 ^ brv7 (128 / len + b) = 1 := by
  obtain ⟨-, -, -, -, -, -, hprod, -⟩ := tablesHoldPowersOfTheRoot
  have hk : 128 / len + b < 128 := by
    have := strides_blocks_le hl
    omega
  have exact (t : List Int) (ht : ∀ x ∈ t, s16 x = x) (k : Nat) : (toWord (t.getD k 0)).toInt = t.getD k 0 := by
    rw [toInt_toWord]
    rcases Nat.lt_or_ge k t.length with hk | hk
    · rw [List.getD_eq_getElem _ _ hk]
      exact ht _ (List.getElem_mem hk)
    · rw [List.getD_eq_default _ _ hk]
      decide
  have h := modEq_iff_cast.1 (hprod len hl b hb)
  rw [← exact zetaInvTable (by decide +kernel), ← exact zetaTable (by decide +kernel)] at h
  rw [← cast_zeta hk]
  push_cast at h
  calc ((zetaInv (128 - 256 / len + b)).toInt * 169 : ZMod 3329) * ((zeta (128 / len + b)).toInt * 169)
    _ = ((zetaInv (128 - 256 / len + b)).toInt * (zeta (128 / len + b)).toInt) * (169 * 169) := by ring
    _ = 4294967296 * (169 * 169) := by rw [← h]; rfl
    _ = 1 := by decide

/-! ### The roots of the blocks -/

/-- The root ω of block b after n layers: the block holds the polynomial modulo x^(256/2^n) - ω. -/
def blockRoot (n b : Nat) : ZMod 3329 := 17 ^ (2 * brv7 b + 2 ^ (7 - n))

theorem pow_128_eq_neg_one : (17 : ZMod 3329) ^ 128 = -1 := by
  have h := modEq_iff_cast.1 (show (17 ^ 128 : Int) ≡ -1 [ZMOD 3329] by decide +kernel)
  rwa [Int.cast_pow, Int.cast_neg, Int.cast_one, Int.cast_ofNat] at h

theorem brv7_double : ∀ b < 64, 2 * brv7 (2 * b) = brv7 b ∧ brv7 (2 * b + 1) = brv7 (2 * b) + 64 := by decide

theorem brv7_block : ∀ n < 7, ∀ b < 2 ^ n, brv7 (2 ^ n + b) = 2 * brv7 (2 * b) + 2 ^ (6 - n) := by decide

theorem blocks_le {n b : Nat} (hn : n < 7) (hb : b < 2 ^ n) : b < 64 :=
  hb.trans_le (Nat.pow_le_pow_right (by decide) (by omega : n ≤ 6))

/-- The first half of a block takes the constant of the block as its root. -/
theorem blockRoot_even {n b : Nat} (hn : n < 7) (hb : b < 2 ^ n) : blockRoot (n + 1) (2 * b) = 17 ^ brv7 (2 ^ n + b) := by
  rw [blockRoot, brv7_block n hn b hb, show 7 - (n + 1) = 6 - n by omega]

/-- The second half takes its negation. -/
theorem blockRoot_odd {n b : Nat} (hn : n < 7) (hb : b < 2 ^ n) : blockRoot (n + 1) (2 * b + 1) = -17 ^ brv7 (2 ^ n + b) := by
  rw [← blockRoot_even hn hb, blockRoot, blockRoot, (brv7_double b (blocks_le hn hb)).2, Nat.mul_add, Nat.add_right_comm, pow_add,
    pow_128_eq_neg_one, mul_neg_one]

/-- Both are square roots of the root of the block. -/
theorem sq_eq_blockRoot {n b : Nat} (hn : n < 7) (hb : b < 2 ^ n) : ((17 : ZMod 3329) ^ brv7 (2 ^ n + b)) ^ 2 = blockRoot n b := by
  rw [← blockRoot_even hn hb, blockRoot, blockRoot, ← pow_mul, ← (brv7_double b (blocks_le hn hb)).1,
    show 7 - n = 7 - (n + 1) + 1 by omega, pow_succ]
  congr 1
  ring

theorem blockRoot_sq {n b : Nat} (hn : n < 7) (hb : b < 2 ^ (n + 1)) : blockRoot (n + 1) b ^ 2 = blockRoot n (b / 2) := by
  rw [pow_succ] at hb
  have hb2 : b / 2 < 2 ^ n := by omega
  rcases Nat.mod_two_eq_zero_or_one b with h | h
  · rw [show b = 2 * (b / 2) by omega, blockRoot_even hn hb2, sq_eq_blockRoot hn hb2]
    congr 1
    omega
  · rw [show b = 2 * (b / 2) + 1 by omega, blockRoot_odd hn hb2, neg_sq, sq_eq_blockRoot hn hb2]
    congr 1
    omega

/-- The roots of the pairs are the roots of the blocks after all seven layers (R141). -/
theorem cast_gamma (p : Nat) : (gamma p : ZMod 3329) = blockRoot 7 p := by
  rw [gamma, show (3329 : Int) = ((3329 : Nat) : Int) by rfl, ZMod.intCast_mod, blockRoot]
  push_cast
  rfl

/-- Powers 2^m of the roots of the pairs are the roots of the blocks of 2^m pairs. -/
theorem blockRoot_pow {m p : Nat} (hm : m ≤ 7) (hp : p < 128) : blockRoot 7 p ^ 2 ^ m = blockRoot (7 - m) (p / 2 ^ m) := by
  induction m with
  | zero => simp
  | succ m ih =>
    have hlt : p / 2 ^ m < 2 ^ (7 - m - 1 + 1) := by
      rw [show 7 - m - 1 + 1 = 7 - m by omega]
      exact Nat.div_lt_of_lt_mul (by rw [← pow_add, show m + (7 - m) = 7 by omega]; exact hp)
    rw [pow_succ, pow_mul, ih (by omega), show 7 - m = 7 - m - 1 + 1 by omega, blockRoot_sq (by omega) hlt,
      show 7 - (m + 1) = 7 - m - 1 by omega, Nat.div_div_eq_div_mul, ← pow_succ]

theorem blockRoot_pow_128 {p : Nat} (hp : p < 128) : blockRoot 7 p ^ 128 = -1 := by
  have h := blockRoot_pow (Nat.le_refl 7) hp
  rw [Nat.div_eq_of_lt (by simpa using hp)] at h
  exact h.trans pow_128_eq_neg_one

theorem blockRoot_pow_256 {p : Nat} (hp : p < 128) : blockRoot 7 p ^ 256 = 1 := by
  rw [show 256 = 128 * 2 from rfl, pow_mul, blockRoot_pow_128 hp, neg_one_sq]

/-! ### Sums over even and odd positions -/

theorem sum_range_two_mul {M : Type} [AddCommMonoid M] (n : Nat) (f : Nat → M) :
    ∑ i ∈ range (2 * n), f i = ∑ i ∈ range n, (f (2 * i) + f (2 * i + 1)) := by
  induction n with
  | zero => rfl
  | succ n ih => rw [Nat.mul_succ, sum_range_succ, sum_range_succ, ih, sum_range_succ, add_assoc]

/-- A polynomial is its even part and its odd part in the square. -/
theorem sum_even_odd (n : Nat) (f : Nat → ZMod 3329) (x : ZMod 3329) :
    ∑ i ∈ range (2 * n), f i * x ^ i = ∑ i ∈ range n, f (2 * i) * (x ^ 2) ^ i + (∑ i ∈ range n, f (2 * i + 1) * (x ^ 2) ^ i) * x := by
  rw [sum_range_two_mul, sum_add_distrib, sum_mul]
  congr 1 <;> refine sum_congr rfl fun i _ => ?_
  · rw [← pow_mul]
  · rw [pow_succ, pow_mul, mul_assoc]

/-! ### The forward transform (R141) -/

/-- The words after n layers: block b holds the polynomial a modulo x^(256/2^n) - ω. -/
def ForwardForm (n : Nat) (a : Nat → ZMod 3329) (r : Poly) : Prop :=
  ∀ b < 2 ^ n, ∀ j < 2 ^ (8 - n),
    (coeff r (2 ^ (8 - n) * b + j) : ZMod 3329) = ∑ i ∈ range (2 ^ n), a (2 ^ (8 - n) * i + j) * blockRoot n b ^ i

/-- The residues a forward layer leaves, where no addition overflows. -/
theorem cast_nttLayer {r : Poly} (h : r.length = 256) {B : Int} (hB : Within B r) (hB' : B + 3328 ≤ 32767) {len : Nat}
    (hl : len ∈ strides) {j : Nat} (hj : j < 256) :
    (coeff (nttLayer r len) j : ZMod 3329) =
      if j / len % 2 = 0 then (coeff r j : ZMod 3329) + coeff r (j + len) * 17 ^ brv7 (128 / len + j / (2 * len))
      else (coeff r (j - len) : ZMod 3329) - coeff r j * 17 ^ brv7 (128 / len + j / (2 * len)) := by
  have hk : 128 / len + j / (2 * len) < 128 := by
    have h1 := block_lt hl hj
    have h2 := strides_blocks_le hl
    omega
  have hB := within_iff.1 hB
  have ht (y : Word) : |(fqmul y (zeta (128 / len + j / (2 * len)))).toInt| ≤ 3328 :=
    Int.le_of_lt_add_one (fqmul_lt_of_centred y (zeta_abs _))
  rw [coeff, nttLayer_getD hl h hj, ctLayerAt_eq, blockAt]
  split_ifs with he
  · rw [show (bflyCt (r.getD j 0) (r.getD (j + len) 0) (zeta (128 / len + j / (2 * len)))).1.toInt = _ from
      add16_toInt_of_abs (hB j hj) (ht _) hB', Int.cast_add, cast_fqmul, cast_zeta hk]
    rfl
  · rw [show (bflyCt (r.getD (j - len) 0) (r.getD j 0) (zeta (128 / len + j / (2 * len)))).2.toInt = _ from
      sub16_toInt_of_abs (hB (j - len) (by omega)) (ht _) hB', Int.cast_sub, cast_fqmul, cast_zeta hk]
    rfl

/-- One forward layer splits every block in two. -/
theorem forwardForm_succ {n : Nat} (hn : n < 7) {a : Nat → ZMod 3329} {r : Poly} (h : r.length = 256) {B : Int} (hB : Within B r)
    (hB' : B + 3328 ≤ 32767) (hf : ForwardForm n a r) : ForwardForm (n + 1) a (nttLayer r (2 ^ (7 - n))) := by
  intro b hb j hj
  rw [show 8 - (n + 1) = 7 - n by omega] at hj ⊢
  have hl : 2 ^ (7 - n) ∈ strides := by
    clear hf hj hb
    revert n
    decide
  have hsize : 2 ^ (8 - n) = 2 * 2 ^ (7 - n) := by rw [← pow_succ', show 7 - n + 1 = 8 - n by omega]
  have hfirst : 128 / 2 ^ (7 - n) = 2 ^ n := by rw [show 128 = 2 ^ 7 from rfl, Nat.pow_div (by omega) (by decide)]; congr 1; omega
  have hall : 2 ^ (7 - n) * 2 ^ (n + 1) = 256 := by rw [← pow_add, show 7 - n + (n + 1) = 8 by omega]; rfl
  generalize hL : 2 ^ (7 - n) = len at *
  rw [pow_succ] at hb
  obtain ⟨c, e, he, rfl⟩ : ∃ c e, e < 2 ∧ b = 2 * c + e := ⟨b / 2, b % 2, Nat.mod_lt b (by decide), by omega⟩
  have hc : c < 2 ^ n := by omega
  have hpos : 0 < len := strides_pos hl
  have hJ : len * (2 * c + e) + j < 256 := by
    have : len * (2 * c + e + 1) ≤ len * 2 ^ (n + 1) := Nat.mul_le_mul_left _ (by rw [pow_succ]; omega)
    rw [Nat.mul_succ] at this
    omega
  have hq : (len * (2 * c + e) + j) / len = 2 * c + e := by rw [Nat.mul_add_div hpos, Nat.div_eq_of_lt hj, Nat.add_zero]
  have hq2 : (len * (2 * c + e) + j) / (2 * len) = c := by
    rw [Nat.mul_comm 2 len, ← Nat.div_div_eq_div_mul, hq]
    omega
  rw [cast_nttLayer h hB hB' hl hJ, hq, hq2, hfirst, pow_succ' 2 n, sum_even_odd]
  have hlo := hf c hc j (by omega)
  have hhi := hf c hc (len + j) (by omega)
  rw [hsize] at hlo hhi
  have hlo' : (coeff r (len * (2 * c) + j) : ZMod 3329) = ∑ i ∈ range (2 ^ n), a (len * (2 * i) + j) * blockRoot n c ^ i := by
    simpa only [Nat.mul_assoc, Nat.mul_left_comm] using hlo
  have hhi' : (coeff r (len * (2 * c + 1) + j) : ZMod 3329) = ∑ i ∈ range (2 ^ n), a (len * (2 * i + 1) + j) * blockRoot n c ^ i := by
    simpa only [Nat.mul_assoc, Nat.mul_left_comm, Nat.mul_add, Nat.mul_one, Nat.add_assoc] using hhi
  rcases (by omega : e = 0 ∨ e = 1) with rfl | rfl
  · rw [if_pos (by omega), Nat.add_zero, blockRoot_even hn hc, sq_eq_blockRoot hn hc, ← hlo', ← hhi',
      show len * (2 * c) + j + len = len * (2 * c + 1) + j by ring]
  · rw [if_neg (by omega), blockRoot_odd hn hc, neg_sq, sq_eq_blockRoot hn hc, ← hlo', ← hhi', mul_neg, sub_eq_add_neg,
      show len * (2 * c + 1) + j - len = len * (2 * c) + j by rw [Nat.mul_succ]; omega]

/-- One more layer of the forward transform: layer n + 1 has stride 2^(7 - n). -/
theorem nttPrefix_succ (p : Poly) {n : Nat} (hn : n < 7) : nttPrefix (n + 1) p = nttLayer (nttPrefix n p) (2 ^ (7 - n)) := by
  have h : nttStrides.take (n + 1) = nttStrides.take n ++ [2 ^ (7 - n)] := by revert n; decide
  rw [nttPrefix, h, List.foldl_append]
  exact List.foldl_cons ..

theorem nttPrefix_forwardForm {p : Poly} (hp : p.length = 256) (hB : Within 9464 p) {n : Nat} (hn : n ≤ 7) :
    ForwardForm n (fun i => coeff p i) (nttPrefix n p) := by
  induction n with
  | zero =>
    intro b hb j _
    have hb0 : b = 0 := by simpa using hb
    subst hb0
    simp [nttPrefix]
  | succ n ih =>
    rw [nttPrefix_succ p hn]
    exact forwardForm_succ hn (nttLayers_length _ hp) (nttWordsGrowByQPerLayer.1 p 9464 n hp hB (by omega) (by omega)) (by omega)
      (ih (by omega))

/-- The forward transform of words within the bound of R144 gives the residues modulo x^2 - γ (R141). -/
theorem nttPoly_forwardForm {p : Poly} (hp : p.length = 256) (hB : Within 9464 p) : ForwardForm 7 (fun i => coeff p i) (nttPoly p) :=
  nttPrefix_forwardForm hp hB (Nat.le_refl 7)

theorem nttForm_iff (a o : Poly) : NttForm a o ↔ ForwardForm 7 (fun i => coeff a i) o := by
  unfold NttForm ForwardForm
  refine forall₂_congr fun p _ => forall₂_congr fun e _ => ?_
  rw [modEq_iff_cast, sumTo]
  push_cast
  simp only [cast_gamma]

/-- Settles O40: seven layers split the polynomial into its residues. -/
theorem nttGivesResiduesModuloQuadratics : Obligations.NttGivesResiduesModuloQuadratics := fun p hp hB =>
  (nttForm_iff p _).2 (nttPoly_forwardForm hp hB)

/-- The words of a form, at any index. -/
theorem ForwardForm.coeff_eq {a : Nat → ZMod 3329} {r : Poly} (h : ForwardForm 7 a r) {i : Nat} (hi : i < 256) :
    (coeff r i : ZMod 3329) = ∑ k ∈ range 128, a (2 * k + i % 2) * blockRoot 7 (i / 2) ^ k := by
  have h := h (i / 2) (by show i / 2 < 128; omega) (i % 2) (Nat.mod_lt i (by decide))
  rwa [show 2 ^ (8 - 7) * (i / 2) + i % 2 = i by omega] at h

theorem foldl_fixed {α β : Type} {f : β → α → β} {x : β} {ls : List α} (h : ∀ l ∈ ls, f x l = x) : ls.foldl f x = x := by
  induction ls with
  | nil => rfl
  | cons l ls ih => rw [List.foldl_cons, h l (by simp), ih fun l hl => h l (by simp [hl])]

theorem ctLayerAt_zero (len : Nat) : ctLayerAt len (fun _ => 0) = fun _ => 0 := by
  funext j
  have h : add16 0 0 = 0 ∧ sub16 0 0 = 0 := by decide
  rw [ctLayerAt_eq, blockAt, bflyCt, zero_fqmul, h.1, h.2, ite_self]

/-- Settles O43: each residue of the form is a sum over the words, and zeros stay zeros in every layer. -/
theorem nttIsLinear : Obligations.NttIsLinear := by
  refine ⟨fun a b c ha hb hc hBa hBb hBc hadd i hi => ?_, ?_⟩
  · rw [modEq_iff_cast, Int.cast_add, (nttPoly_forwardForm ha hBa).coeff_eq hi, (nttPoly_forwardForm hb hBb).coeff_eq hi,
      (nttPoly_forwardForm hc hBc).coeff_eq hi, ← sum_add_distrib]
    refine sum_congr rfl fun k hk => ?_
    have hk := mem_range.1 hk
    have h := modEq_iff_cast.1 (hadd (2 * k + i % 2) (by omega))
    rw [h, Int.cast_add, add_mul]
  · have hz : (List.replicate 256 (0 : Word)).length = 256 := List.length_replicate
    refine List.ext_getElem (by rw [nttPoly_length hz, hz]) fun i h1 h2 => ?_
    have hi : i < 256 := by rwa [hz] at h2
    have h := nttPoly_getD hz (g := fun _ => 0) (fun j hj => List.getD_replicate 0 hj) hi
    rw [foldl_fixed fun len _ => ctLayerAt_zero len, List.getD_eq_getElem _ _ h1] at h
    rw [h, List.getElem_replicate]

/-! ### The inverse transform (R151) -/

/-- The words after m inverse layers: every block collects the inverse sum over its 2^m pairs. -/
def InverseForm (m : Nat) (b : Nat → ZMod 3329) (r : Poly) : Prop :=
  ∀ c < 2 ^ (7 - m), ∀ u < 2 ^ m, ∀ e < 2,
    (coeff r (2 ^ (m + 1) * c + (2 * u + e)) : ZMod 3329) =
      ∑ i ∈ range (2 ^ m), b (2 * (2 ^ m * c + i) + e) * blockRoot 7 (2 ^ m * c + i) ^ (256 - u)

theorem inverseForm_zero (p : Poly) : InverseForm 0 (fun i => coeff p i) p := by
  intro c hc u hu e _
  have hu0 : u = 0 := by simpa using hu
  subst hu0
  simp [blockRoot_pow_256 (show c < 128 from hc)]

/-- The reciprocal of the constant of block c lowers the power of the roots of its first half, and its negation of the second. -/
theorem blockRoot_pow_mul_zetaInv {m c u : Nat} (hm : m ≤ 6) (hc : c < 2 ^ (6 - m)) (hu : u < 2 ^ m) {x i : Nat} (hx : x < 2)
    (hi : i < 2 ^ m) :
    blockRoot 7 (2 ^ m * (2 * c + x) + i) ^ (256 - u) * ((zetaInv (128 - 256 / 2 ^ (m + 1) + c)).toInt * 169) =
      (-1) ^ x * blockRoot 7 (2 ^ m * (2 * c + x) + i) ^ (256 - (2 ^ m + u)) := by
  have h64 : 2 ^ m ≤ 64 := Nat.pow_le_pow_right (by decide) hm
  have hall : 2 ^ m * 2 ^ (6 - m + 1) = 128 := by rw [← pow_add, show m + (6 - m + 1) = 7 by omega]; rfl
  have hp : 2 ^ m * (2 * c + x) + i < 128 := by
    have : 2 ^ m * (2 * c + x + 1) ≤ 2 ^ m * 2 ^ (6 - m + 1) := Nat.mul_le_mul_left _ (by rw [pow_succ]; omega)
    rw [Nat.mul_succ] at this
    omega
  have hl : 2 ^ (m + 1) ∈ strides := by
    clear hc hu hi hp hall h64
    revert m
    decide
  have hfirst : 128 / 2 ^ (m + 1) = 2 ^ (6 - m) := by
    rw [show 128 = 2 ^ 7 from rfl, Nat.pow_div (by omega) (by decide), show 7 - (m + 1) = 6 - m by omega]
  have hroot : blockRoot 7 (2 ^ m * (2 * c + x) + i) ^ 2 ^ m = (-1) ^ x * 17 ^ brv7 (2 ^ (6 - m) + c) := by
    rw [blockRoot_pow (by omega) hp, Nat.mul_add_div (by positivity), Nat.div_eq_of_lt hi, show 7 - m = 6 - m + 1 by omega]
    rcases (by omega : x = 0 ∨ x = 1) with rfl | rfl
    · rw [pow_zero, one_mul]
      exact blockRoot_even (by omega) hc
    · rw [pow_one, neg_one_mul]
      exact blockRoot_odd (by omega) hc
  have hinv := cast_zetaInv_mul hl (b := c) (by rwa [hfirst])
  rw [hfirst] at hinv
  rw [show 256 - u = 256 - (2 ^ m + u) + 2 ^ m by omega, pow_add, hroot]
  linear_combination (-1) ^ x * blockRoot 7 (2 ^ m * (2 * c + x) + i) ^ (256 - (2 ^ m + u)) * hinv

/-- What a butterfly between two blocks makes of their sums: the sum over the pairs of both, at the same and at a later power. -/
theorem inverseForm_merge {m : Nat} (hm : m ≤ 6) {b : Nat → ZMod 3329} {r : Poly} (h : InverseForm m b r) {c u e : Nat}
    (hc : c < 2 ^ (6 - m)) (hu : u < 2 ^ m) (he : e < 2) :
    (coeff r (2 ^ (m + 1) * (2 * c) + (2 * u + e)) + coeff r (2 ^ (m + 1) * (2 * c + 1) + (2 * u + e)) : ZMod 3329) =
        ∑ i ∈ range (2 ^ (m + 1)), b (2 * (2 ^ (m + 1) * c + i) + e) * blockRoot 7 (2 ^ (m + 1) * c + i) ^ (256 - u) ∧
      ((coeff r (2 ^ (m + 1) * (2 * c) + (2 * u + e)) : ZMod 3329) - coeff r (2 ^ (m + 1) * (2 * c + 1) + (2 * u + e))) *
          ((zetaInv (128 - 256 / 2 ^ (m + 1) + c)).toInt * 169) =
        ∑ i ∈ range (2 ^ (m + 1)), b (2 * (2 ^ (m + 1) * c + i) + e) * blockRoot 7 (2 ^ (m + 1) * c + i) ^ (256 - (2 ^ m + u)) := by
  have hc2 : 2 * c + 1 < 2 ^ (7 - m) := by
    rw [show 7 - m = 6 - m + 1 by omega, pow_succ]
    omega
  have split (n : Nat) : ∑ i ∈ range (2 ^ (m + 1)), b (2 * (2 ^ (m + 1) * c + i) + e) * blockRoot 7 (2 ^ (m + 1) * c + i) ^ n =
      ∑ i ∈ range (2 ^ m), b (2 * (2 ^ m * (2 * c) + i) + e) * blockRoot 7 (2 ^ m * (2 * c) + i) ^ n +
      ∑ i ∈ range (2 ^ m), b (2 * (2 ^ m * (2 * c + 1) + i) + e) * blockRoot 7 (2 ^ m * (2 * c + 1) + i) ^ n := by
    rw [pow_succ, Nat.mul_two, sum_range_add]
    congr 1 <;> refine sum_congr rfl fun i _ => ?_
    · rw [show (2 ^ m + 2 ^ m) * c + i = 2 ^ m * (2 * c) + i by ring]
    · rw [show (2 ^ m + 2 ^ m) * c + (2 ^ m + i) = 2 ^ m * (2 * c + 1) + i by ring]
  rw [split, split, h (2 * c) (by omega) u hu e he, h (2 * c + 1) hc2 u hu e he]
  refine ⟨rfl, ?_⟩
  rw [sub_mul, sum_mul, sum_mul, sub_eq_add_neg, ← sum_neg_distrib]
  congr 1 <;> refine sum_congr rfl fun i hi => ?_
  · have hroot := blockRoot_pow_mul_zetaInv hm hc hu (x := 0) (by decide) (mem_range.1 hi)
    rw [Nat.add_zero, pow_zero, one_mul] at hroot
    rw [mul_assoc, hroot]
  · have hroot := blockRoot_pow_mul_zetaInv hm hc hu (x := 1) (by decide) (mem_range.1 hi)
    rw [pow_one, neg_one_mul] at hroot
    rw [mul_assoc, hroot, mul_neg, neg_neg]

/-- The residues an inverse layer leaves, where no addition overflows. -/
theorem cast_inttLayer {r : Poly} (h : r.length = 256) (hB : Within 16383 r) {len : Nat} (hl : len ∈ strides) {j : Nat} (hj : j < 256) :
    (coeff (inttLayer r len) j : ZMod 3329) =
      if j / len % 2 = 0 then (coeff r j : ZMod 3329) + coeff r (j + len)
      else ((coeff r (j - len) : ZMod 3329) - coeff r j) * ((zetaInv (128 - 256 / len + j / (2 * len))).toInt * 169) := by
  have hB := within_iff.1 hB
  rw [coeff, inttLayer_getD hl h hj, gsLayerAt_eq, blockAt]
  split_ifs with he
  · rw [bflyGsR, cast_barrett, add16_toInt_of_abs (hB j hj) (hB (j + len) (partner_lt hl hj he)) (by decide), Int.cast_add]
    rfl
  · rw [bflyGsR, cast_fqmul, sub16_toInt_of_abs (hB (j - len) (by omega)) (hB j hj) (by decide), Int.cast_sub]
    rfl

/-- One inverse layer merges the blocks in pairs. -/
theorem inverseForm_succ {m : Nat} (hm : m < 6) {b : Nat → ZMod 3329} {r : Poly} (hr : r.length = 256) (hB : Within 16383 r)
    (h : InverseForm m b r) : InverseForm (m + 1) b (inttLayer r (2 ^ (m + 1))) := by
  intro c hc u hu e he
  rw [show 7 - (m + 1) = 6 - m by omega] at hc
  have hl : 2 ^ (m + 1) ∈ strides := by
    clear hc hu h
    revert m
    decide
  have hpos : 0 < 2 ^ (m + 1) := by positivity
  have hall : 2 * 2 ^ (m + 1) * 2 ^ (6 - m) = 256 := by
    rw [← pow_succ', ← pow_add, show m + 1 + 1 + (6 - m) = 8 by omega]
    rfl
  have hhalf : 2 ^ (m + 1) = 2 * 2 ^ m := pow_succ' 2 m
  have hJ : 2 * 2 ^ (m + 1) * c + (2 * u + e) < 256 := by
    have : 2 * 2 ^ (m + 1) * (c + 1) ≤ 2 * 2 ^ (m + 1) * 2 ^ (6 - m) := Nat.mul_le_mul_left _ hc
    rw [Nat.mul_succ] at this
    omega
  have hq2 : (2 * 2 ^ (m + 1) * c + (2 * u + e)) / (2 * 2 ^ (m + 1)) = c := by
    rw [Nat.mul_add_div (by omega), Nat.div_eq_of_lt (by omega), Nat.add_zero]
  rw [pow_succ' 2 (m + 1), cast_inttLayer hr hB hl hJ, hq2]
  rcases Nat.lt_or_ge u (2 ^ m) with hlo | hhi
  · have hmerge := (inverseForm_merge hm.le h hc hlo he).1
    have hq : (2 * 2 ^ (m + 1) * c + (2 * u + e)) / 2 ^ (m + 1) = 2 * c := by
      rw [show 2 * 2 ^ (m + 1) * c = 2 ^ (m + 1) * (2 * c) by ring, Nat.mul_add_div hpos, Nat.div_eq_of_lt (by omega), Nat.add_zero]
    rw [if_pos (by omega), ← hmerge, show 2 * 2 ^ (m + 1) * c + (2 * u + e) + 2 ^ (m + 1) = 2 ^ (m + 1) * (2 * c + 1) + (2 * u + e) by ring,
      show 2 * 2 ^ (m + 1) * c = 2 ^ (m + 1) * (2 * c) by ring]
  · obtain ⟨v, rfl⟩ := Nat.exists_eq_add_of_le hhi
    have hmerge := (inverseForm_merge hm.le h hc (u := v) (by omega) he).2
    have hpos' : 2 * 2 ^ (m + 1) * c + (2 * (2 ^ m + v) + e) = 2 ^ (m + 1) * (2 * c + 1) + (2 * v + e) := by rw [hhalf]; ring
    have hq : (2 ^ (m + 1) * (2 * c + 1) + (2 * v + e)) / 2 ^ (m + 1) = 2 * c + 1 := by
      rw [Nat.mul_add_div hpos, Nat.div_eq_of_lt (by omega), Nat.add_zero]
    rw [hpos', hq, if_neg (by omega), ← hmerge,
      show 2 ^ (m + 1) * (2 * c + 1) + (2 * v + e) - 2 ^ (m + 1) = 2 ^ (m + 1) * (2 * c) + (2 * v + e) by rw [Nat.mul_succ]; omega]

theorem inttPrefix_within {p : Poly} (hp : p.length = 256) (hB : Within 16383 p) {m : Nat} (hm : m ≤ 6) : Within 16383 (inttPrefix m p) := by
  cases m with
  | zero => exact hB
  | succ m =>
    have h := within_iff.1 ((inttWordsStayBelowQ p hp hB).1 (m + 1) (by omega) hm).1
    exact within_iff.2 fun i hi => (h i hi).trans (by decide)

theorem inttPrefix_inverseForm {p : Poly} (hp : p.length = 256) (hB : Within 16383 p) {m : Nat} (hm : m ≤ 6) :
    InverseForm m (fun i => coeff p i) (inttPrefix m p) := by
  induction m with
  | zero => exact inverseForm_zero p
  | succ m ih =>
    rw [inttPrefix_succ p hm]
    exact inverseForm_succ hm (inttLayers_length _ hp) (inttPrefix_within hp hB (by omega)) (ih (by omega))

/-- The constants of the last layer are those of the others times R / 128 (R153). -/
theorem last_constants :
    (1441 * 169 : ZMod 3329) = 65536 * 3303 ∧ (-1397 * 169 : ZMod 3329) = (zetaInv 126).toInt * 169 * (65536 * 3303) := by decide

theorem cast_inttLast {r : Poly} (h : r.length = 256) (hB : Within 16383 r) {j : Nat} (hj : j < 256) :
    (coeff (inttLast r) j : ZMod 3329) =
      if j < 128 then ((coeff r j : ZMod 3329) + coeff r (j + 128)) * (65536 * 3303)
      else ((coeff r (j - 128) : ZMod 3329) - coeff r j) * ((zetaInv 126).toInt * 169) * (65536 * 3303) := by
  have hB := within_iff.1 hB
  rw [coeff, inttLast_getD h hj, gsLastAt]
  split_ifs with h1
  · rw [cast_fqmul, add16_toInt_of_abs (hB j hj) (hB (j + 128) (by omega)) (by decide), Int.cast_add, ← last_constants.1]
    rfl
  · rw [cast_fqmul, sub16_toInt_of_abs (hB (j - 128) (by omega)) (hB j hj) (by decide), Int.cast_sub, mul_assoc, ← last_constants.2]
    rfl

/-- The last merge, of the two halves of the words. -/
theorem inverseForm_last {b : Nat → ZMod 3329} {r : Poly} (h : InverseForm 6 b r) {u e : Nat} (hu : u < 64) (he : e < 2) :
    (coeff r (2 * u + e) + coeff r (2 * u + e + 128) : ZMod 3329) = ∑ i ∈ range 128, b (2 * i + e) * blockRoot 7 i ^ (256 - u) ∧
      ((coeff r (2 * u + e) : ZMod 3329) - coeff r (2 * u + e + 128)) * ((zetaInv 126).toInt * 169) =
        ∑ i ∈ range 128, b (2 * i + e) * blockRoot 7 i ^ (256 - (64 + u)) := by
  have hmerge := inverseForm_merge (Nat.le_refl 6) h (c := 0) (by decide) hu he
  rw [show 2 ^ (6 + 1) = 128 from rfl, show 2 ^ 6 = 64 from rfl, show 128 - 256 / 128 + 0 = 126 from rfl] at hmerge
  simpa only [Nat.mul_zero, Nat.zero_add, Nat.mul_one, Nat.add_comm 128] using hmerge

/-- The inverse transform gives the inverse sum times R (R151). -/
theorem cast_inttPoly {p : Poly} (hp : p.length = 256) (hB : Within 16383 p) {u e : Nat} (hu : u < 128) (he : e < 2) :
    (coeff (inttPoly p) (2 * u + e) : ZMod 3329) =
      65536 * 3303 * ∑ i ∈ range 128, (coeff p (2 * i + e) : ZMod 3329) * blockRoot 7 i ^ (256 - u) := by
  have hform := inttPrefix_inverseForm hp hB (Nat.le_refl 6)
  have hlast := cast_inttLast (inttLayers_length (inttStrides.take 6) hp) (inttPrefix_within hp hB (Nat.le_refl 6)) (j := 2 * u + e) (by omega)
  rw [mul_comm (65536 * 3303 : ZMod 3329)]
  refine hlast.trans ?_
  rcases Nat.lt_or_ge u 64 with hlo | hhi
  · rw [if_pos (by omega), ← (inverseForm_last hform hlo he).1]
    rfl
  · obtain ⟨v, rfl⟩ := Nat.exists_eq_add_of_le hhi
    rw [if_neg (by omega), ← (inverseForm_last hform (u := v) (by omega) he).2, show 2 * (64 + v) + e - 128 = 2 * v + e by omega,
      show 2 * (64 + v) + e = 2 * v + e + 128 by omega]
    rfl

/-- Settles O41: the inverse layers collect the sum, and the last one bounds it. -/
theorem inttGivesInverseSumTimesR : Obligations.InttGivesInverseSumTimesR := by
  refine fun p hp hB => ⟨fun m hm e he => ?_, inttPoly_within hp⟩
  rw [modEq_iff_cast, cast_inttPoly hp hB hm he, sumTo]
  simp only [Int.cast_mul, Int.cast_sum, Int.cast_pow, Int.cast_ofNat, cast_gamma]

/-! ### The two transforms together -/

/-- The powers of the roots add up to zero unless the exponent is a multiple of their number: at an odd exponent the halves of each
block cancel. -/
theorem sum_blockRoot_pow_eq_zero {n t : Nat} (hn : n ≤ 7) (ht : ¬2 ^ n ∣ t) : ∑ b ∈ range (2 ^ n), blockRoot n b ^ t = 0 := by
  induction n generalizing t with
  | zero => exact absurd (one_dvd t) ht
  | succ n ih =>
    rw [pow_succ', sum_range_two_mul]
    rcases Nat.even_or_odd' t with ⟨s, rfl | rfl⟩
    · have hs : ¬2 ^ n ∣ s := fun h => ht (by rw [pow_succ']; exact Nat.mul_dvd_mul_left 2 h)
      have hterm : ∀ b ∈ range (2 ^ n), blockRoot (n + 1) (2 * b) ^ (2 * s) + blockRoot (n + 1) (2 * b + 1) ^ (2 * s) = 2 * blockRoot n b ^ s :=
        fun b hb => by
          have hb := mem_range.1 hb
          rw [blockRoot_even (by omega) hb, blockRoot_odd (by omega) hb, pow_mul, pow_mul, neg_sq, sq_eq_blockRoot (by omega) hb, two_mul]
      rw [sum_congr rfl hterm, ← mul_sum, ih (by omega) hs, mul_zero]
    · refine sum_eq_zero fun b hb => ?_
      have hb := mem_range.1 hb
      rw [blockRoot_even (by omega) hb, blockRoot_odd (by omega) hb, (odd_two_mul_add_one s).neg_pow, add_neg_cancel]

/-- The roots of the pairs tell the coefficients apart. -/
theorem sum_pair_roots {i m : Nat} (hi : i < 128) (hm : m < 128) :
    ∑ p ∈ range 128, blockRoot 7 p ^ i * blockRoot 7 p ^ (256 - m) = if i = m then 128 else 0 := by
  simp only [← pow_add]
  split_ifs with h
  · subst h
    rw [sum_congr rfl fun p hp => by rw [show i + (256 - i) = 256 by omega, blockRoot_pow_256 (mem_range.1 hp)]]
    simp
  · exact sum_blockRoot_pow_eq_zero (n := 7) (Nat.le_refl 7) (by omega)

/-- INTT of the NTT-domain form of a polynomial is the polynomial times R (R151). -/
theorem cast_inttPoly_of_forwardForm {a : Nat → ZMod 3329} {b : Poly} (hb : b.length = 256) (hB : Within 16383 b)
    (h : ForwardForm 7 a b) {i : Nat} (hi : i < 256) : (coeff (inttPoly b) i : ZMod 3329) = a i * 65536 := by
  obtain ⟨m, e, he, rfl⟩ : ∃ m e, e < 2 ∧ i = 2 * m + e := ⟨i / 2, i % 2, Nat.mod_lt i (by decide), by omega⟩
  have hm : m < 128 := by omega
  have hsum : ∑ p ∈ range 128, (coeff b (2 * p + e) : ZMod 3329) * blockRoot 7 p ^ (256 - m) = a (2 * m + e) * 128 :=
    calc ∑ p ∈ range 128, (coeff b (2 * p + e) : ZMod 3329) * blockRoot 7 p ^ (256 - m)
      _ = ∑ p ∈ range 128, ∑ k ∈ range 128, a (2 * k + e) * (blockRoot 7 p ^ k * blockRoot 7 p ^ (256 - m)) :=
        sum_congr rfl fun p hp => by
          rw [show (coeff b (2 * p + e) : ZMod 3329) = _ from h p (mem_range.1 hp) e he, sum_mul]
          exact sum_congr rfl fun k _ => mul_assoc _ _ _
      _ = ∑ k ∈ range 128, a (2 * k + e) * if k = m then 128 else 0 := by
        rw [sum_comm]
        exact sum_congr rfl fun k hk => by rw [← mul_sum, sum_pair_roots (mem_range.1 hk) hm]
      _ = a (2 * m + e) * 128 := by
        rw [sum_eq_single_of_mem m (mem_range.2 hm) fun k _ hne => by rw [if_neg hne, mul_zero], if_pos rfl]
  rw [cast_inttPoly hb hB hm he, hsum, mul_comm (a (2 * m + e)), ← mul_assoc, mul_comm (a (2 * m + e))]
  congr 1

/-- Settles O42: the inverse sum of a form takes out one coefficient of the polynomial. -/
theorem inttInvertsNttForm : Obligations.InttInvertsNttForm := by
  intro a b _ hb hB h i hi
  rw [modEq_iff_cast, cast_inttPoly_of_forwardForm hb hB ((nttForm_iff a b).1 h) hi]
  push_cast
  rfl

theorem coeff_redPoly {p : Poly} (hp : p.length = 256) {i : Nat} (hi : i < 256) : (coeff (redPoly p) i : ZMod 3329) = coeff p i := by
  rw [coeff, redPoly_getD hp hi, cast_barrett]
  rfl

/-- Reducing the words of a form changes no residue. -/
theorem ForwardForm.redPoly {a : Nat → ZMod 3329} {r : Poly} (hr : r.length = 256) (h : ForwardForm 7 a r) :
    ForwardForm 7 a (redPoly r) := fun b hb j hj => by
  have hlt : 2 ^ (8 - 7) * b + j < 256 := by
    have : b < 128 := hb
    have : j < 2 := hj
    omega
  rw [coeff_redPoly hr hlt]
  exact h b hb j hj

theorem within_mono {B C : Int} {p : Poly} (h : Within B p) (hBC : B ≤ C) : Within C p :=
  within_iff.2 fun i hi => (within_iff.1 h i hi).trans hBC

/-- Settles O44: the reduced transform is a form within the bound of the inverse. -/
theorem roundTripMultipliesByR : Obligations.RoundTripMultipliesByR := by
  intro a ha hB
  have hl := redPoly_length (nttPoly_length ha)
  refine ⟨fun i hi => ?_, inttPoly_within hl⟩
  rw [modEq_iff_cast, cast_inttPoly_of_forwardForm hl (within_mono (redPoly_within (nttPoly_length ha)) (by decide))
    ((nttPoly_forwardForm ha hB).redPoly (nttPoly_length ha)) hi]
  push_cast
  rfl

end Sys2Proof.Machine
end

section
/-! SUPPORT. The inner product (45_polyvecops R174 to R177): within its bounds no sum of VACC wraps, so its words are the coefficients
of the sum of products modulo x^2 - γ; and a product of forms is the form of the negacyclic product. -/

namespace Sys2Proof.Machine

open Finset

/-! ### The accumulators stay exact (R177) -/

/-- Sums of words whose magnitudes add up to an int16 do not wrap. -/
theorem foldl_add16_toInt {α : Type} (c : α → Word × Word) {C : Int} (l : List α)
    (hc : ∀ a ∈ l, |(c a).1.toInt| ≤ C ∧ |(c a).2.toInt| ≤ C) {s : Word × Word} {A : Int} (hs1 : |s.1.toInt| ≤ A)
    (hs2 : |s.2.toInt| ≤ A) (hA : A + l.length * C ≤ 32767) :
    (l.foldl (fun s a => (add16 s.1 (c a).1, add16 s.2 (c a).2)) s).1.toInt = s.1.toInt + (l.map fun a => (c a).1.toInt).sum ∧
      (l.foldl (fun s a => (add16 s.1 (c a).1, add16 s.2 (c a).2)) s).2.toInt = s.2.toInt + (l.map fun a => (c a).2.toInt).sum := by
  induction l generalizing s A with
  | nil => simp
  | cons a l ih =>
    obtain ⟨h1, h2⟩ := hc a (by simp)
    have hC : 0 ≤ C := (abs_nonneg _).trans h1
    have hn : 0 ≤ l.length * C := by positivity
    rw [List.length_cons, Nat.cast_succ, add_mul, one_mul] at hA
    have hAC : A + C ≤ 32767 := by linarith
    obtain ⟨e1, e2⟩ := ih (s := (add16 s.1 (c a).1, add16 s.2 (c a).2)) (A := A + C) (fun b hb => hc b (by simp [hb]))
      (add16_abs hs1 h1 hAC) (add16_abs hs2 h2 hAC) (by linarith)
    rw [List.foldl_cons, e1, e2, add16_toInt_of_abs hs1 h1 hAC, add16_toInt_of_abs hs2 h2 hAC]
    simp only [List.map_cons, List.sum_cons, add_assoc, and_self]

theorem sum_map_congr {α : Type} {f g : α → Int} {l : List α} (h : ∀ a ∈ l, f a ≡ g a [ZMOD 3329]) :
    (l.map f).sum ≡ (l.map g).sum [ZMOD 3329] := by
  induction l with
  | nil => rfl
  | cons a l ih =>
    rw [List.map_cons, List.map_cons, List.sum_cons, List.sum_cons]
    exact (h a (by simp)).add (ih fun b hb => h b (by simp [hb]))

/-- The product of one operand pair at pair p, as VACC adds it (R174). -/
def pairProduct (p : Nat) (ab : Poly × Poly) : Word × Word :=
  basemul (ab.1.getD (2 * p) 0) (ab.1.getD (2 * p + 1) 0) (ab.2.getD (2 * p) 0) (ab.2.getD (2 * p + 1) 0) (pairZeta p)

theorem pairZeta_abs (p : Nat) : |(pairZeta p).toInt| ≤ 1664 := by
  have h := zeta_abs (64 + p / 2)
  have hneg (w : Word) (hw : |w.toInt| ≤ 1664) : |(-w).toInt| ≤ 1664 := by
    rw [← BitVec.ofInt_toInt (x := w), ← BitVec.ofInt_neg]
    obtain ⟨hl, hu⟩ := abs_le.1 hw
    have hs : (toWord (-w.toInt)).toInt = -w.toInt := by rw [toInt_toWord, s16_of_range (by omega) (by omega)]
    rw [toWord] at hs
    rw [hs, abs_neg]
    exact hw
  unfold pairZeta
  split_ifs
  · exact h
  · exact hneg _ h

/-- Within the bounds of R177 the accumulators hold the inner product modulo x^2 - γ, times R^-1. -/
theorem vaccSums_congr {ops : List (Poly × Poly)} {B M : Int} (hB : B ≤ 20682) (hM : B * B / 65536 + 1665 ≤ M) (hM1 : 1709 ≤ M)
    (hM2 : M ≤ 16383) (hlen : ops.length * (M + M) ≤ 32767) (hops : ∀ ab ∈ ops, Within B ab.1 ∧ Within B ab.2) {p : Nat}
    (hp : p < 128) :
    (vaccSums ops p).1.toInt * 65536 ≡ innerLow ops p [ZMOD 3329] ∧ (vaccSums ops p).2.toInt * 65536 ≡ innerHigh ops p [ZMOD 3329] := by
  have hword {q : Poly} (hq : Within B q) {i : Nat} (hi : i < 256) : |(q.getD i 0).toInt| ≤ B := within_iff.1 hq i hi
  have h0 : 2 * p < 256 := by omega
  have h1 : 2 * p + 1 < 256 := by omega
  have hbound (ab : Poly × Poly) (hab : ab ∈ ops) : |(pairProduct p ab).1.toInt| ≤ M + M ∧ |(pairProduct p ab).2.toInt| ≤ M + M := by
    obtain ⟨ha, hb⟩ := hops ab hab
    have hprod {x y : Word} (hx : |x.toInt| ≤ B) (hy : |y.toInt| ≤ B) : |(fqmul x y).toInt| ≤ M := (fqmul_abs_le hx hy).trans hM
    obtain ⟨⟨-, e1⟩, -, e2⟩ := basemul_toInt (hprod (hword ha h0) (hword hb h0)) (hprod (hword ha h0) (hword hb h1))
      (hprod (hword ha h1) (hword hb h0)) (hprod (hword ha h1) (hword hb h1)) (pairZeta_abs p) hM1 hM2
    exact ⟨e1, e2⟩
  have hres (ab : Poly × Poly) (hab : ab ∈ ops) :=
    basemulMultipliesModuloQuadratic (ab.1.getD (2 * p) 0) (ab.1.getD (2 * p + 1) 0) (ab.2.getD (2 * p) 0) (ab.2.getD (2 * p + 1) 0)
      (pairZeta p) (gamma p) (pairConstantsAreTheRoots.2.1 p hp) (pairZeta_abs p) (by
        obtain ⟨ha, hb⟩ := hops ab hab
        simp only [List.mem_cons, List.not_mem_nil, or_false, forall_eq_or_imp, forall_eq]
        exact ⟨(hword ha h0).trans hB, (hword ha h1).trans hB, (hword hb h0).trans hB, (hword hb h1).trans hB⟩)
  obtain ⟨s1, s2⟩ := foldl_add16_toInt (pairProduct p) (C := M + M) ops hbound (s := (0, 0)) (A := 0) (by simp) (by simp)
    (by rw [zero_add]; exact hlen)
  rw [toInt_zero, zero_add] at s1 s2
  rw [show vaccSums ops p = ops.foldl (fun s a => (add16 s.1 (pairProduct p a).1, add16 s.2 (pairProduct p a).2)) (0, 0) from rfl,
    s1, s2, ← List.sum_map_mul_right, ← List.sum_map_mul_right]
  exact ⟨sum_map_congr fun ab hab => (hres ab hab).1, sum_map_congr fun ab hab => (hres ab hab).2⟩

/-- The finishing step takes the factor R^-1 off with toMont and leaves it without (R174, R176). -/
theorem vaccFinish_congr (tm : Bool) (v : Word) :
    (vaccFinish tm v).toInt * (if tm then 1 else 65536) ≡ v.toInt * 65536 [ZMOD 3329] := by
  rw [modEq_iff_cast]
  cases tm with
  | false =>
    rw [vaccFinish, if_neg Bool.false_ne_true, if_neg Bool.false_ne_true, Int.cast_mul, Int.cast_mul, cast_barrett]
  | true =>
    rw [vaccFinish, if_pos rfl, if_pos rfl, mul_one, cast_fqmul, cast_barrett, Int.cast_mul, show constR2.toInt = 1353 by decide]
    congr 1

/-- Both words of pair p of VACC's output, within the bounds of R177. -/
theorem vaccPoly_congr {ops : List (Poly × Poly)} (tm : Bool) {B M : Int} (hB : B ≤ 20682) (hM : B * B / 65536 + 1665 ≤ M)
    (hM1 : 1709 ≤ M) (hM2 : M ≤ 16383) (hlen : ops.length * (M + M) ≤ 32767) (hops : ∀ ab ∈ ops, Within B ab.1 ∧ Within B ab.2)
    {p : Nat} (hp : p < 128) :
    coeff (vaccPoly ops tm) (2 * p) * (if tm then 1 else 65536) ≡ innerLow ops p [ZMOD 3329] ∧
      coeff (vaccPoly ops tm) (2 * p + 1) * (if tm then 1 else 65536) ≡ innerHigh ops p [ZMOD 3329] := by
  obtain ⟨h1, h2⟩ := vaccSums_congr hB hM hM1 hM2 hlen hops hp
  have e0 := vaccPoly_getD ops tm hp (show 0 < 2 by decide)
  have e1 := vaccPoly_getD ops tm hp (show 1 < 2 by decide)
  rw [Nat.add_zero, if_pos rfl] at e0
  rw [if_neg Nat.one_ne_zero] at e1
  rw [coeff, coeff, e0, e1]
  exact ⟨(vaccFinish_congr tm _).trans h1, (vaccFinish_congr tm _).trans h2⟩

/-- Settles O52: 2·K products of the bounds of R177 add up to an int16. -/
theorem vaccGivesInnerProductModuloQuadratics : Obligations.VaccGivesInnerProductModuloQuadratics := by
  intro ops tm B hB hops
  have hw : ∀ ab ∈ ops, Within B ab.1 ∧ Within B ab.2 := fun ab hab => (hops ab hab).2.2
  refine ⟨fun p hp => ?_, vaccPoly_within ops tm⟩
  simp only [List.mem_cons, List.not_mem_nil, or_false, Prod.mk.injEq] at hB
  rcases hB with ⟨hl, rfl⟩ | ⟨hl, rfl⟩ | ⟨hl, rfl⟩
  · exact vaccPoly_congr tm (M := 8191) (by decide) (by decide) (by decide) (by decide) (by rw [hl]; decide) hw hp
  · exact vaccPoly_congr tm (M := 5461) (by decide) (by decide) (by decide) (by decide) (by rw [hl]; decide) hw hp
  · exact vaccPoly_congr tm (M := 4095) (by decide) (by decide) (by decide) (by decide) (by rw [hl]; decide) hw hp

/-! ### The form of a negacyclic product (R176) -/

/-- One product of coefficients, of degree s in all, lands in one coefficient of the residue: x^256 = -1 is γ^128 = -1 in pairs. -/
theorem sum_negacyclic_term {x : ZMod 3329} (hx : x ^ 128 = -1) (c : ZMod 3329) {s e : Nat} (hs : s < 511) (he : e < 2) :
    ∑ k ∈ range 128, (if s = 2 * k + e then c else if s = 2 * k + e + 256 then -c else 0) * x ^ k =
      if s % 2 = e then c * x ^ (s / 2) else 0 := by
  split_ifs with hpar
  · rw [sum_eq_single_of_mem (s / 2 % 128) (mem_range.2 (Nat.mod_lt _ (by decide))) fun k hk hne => by
      have hk := mem_range.1 hk
      rw [if_neg (by omega), if_neg (by omega), zero_mul]]
    rcases Nat.lt_or_ge s 256 with h | h
    · rw [if_pos (by omega), Nat.mod_eq_of_lt (by omega)]
    · rw [if_neg (by omega), if_pos (by omega), show s / 2 = s / 2 % 128 + 128 by omega, pow_add, hx, Nat.add_mod_right, Nat.mod_mod]
      ring
  · exact sum_eq_zero fun k _ => by rw [if_neg (by omega), if_neg (by omega), zero_mul]

/-- The residues of a negacyclic product, before the factors are taken apart. -/
theorem sum_negacyclic {x : ZMod 3329} (hx : x ^ 128 = -1) (a b : Poly) {e : Nat} (he : e < 2) :
    ∑ k ∈ range 128, (negacyclic a b (2 * k + e) : ZMod 3329) * x ^ k =
      ∑ i ∈ range 256, ∑ j ∈ range 256,
        if (i + j) % 2 = e then (coeff a i * coeff b j : ZMod 3329) * x ^ ((i + j) / 2) else 0 := by
  have hterm (k : Nat) : (negacyclic a b (2 * k + e) : ZMod 3329) * x ^ k = ∑ i ∈ range 256, ∑ j ∈ range 256,
      (if i + j = 2 * k + e then (coeff a i * coeff b j : ZMod 3329) else
        if i + j = 2 * k + e + 256 then -(coeff a i * coeff b j : ZMod 3329) else 0) * x ^ k := by
    simp only [negacyclic, sumTo, Int.cast_sum, sum_mul, apply_ite (Int.cast (R := ZMod 3329)), Int.cast_mul, Int.cast_neg, Int.cast_zero]
  rw [sum_congr rfl fun k _ => hterm k, sum_comm]
  refine sum_congr rfl fun i hi => ?_
  rw [sum_comm]
  refine sum_congr rfl fun j hj => sum_negacyclic_term hx _ ?_ he
  have hi := mem_range.1 hi
  have hj := mem_range.1 hj
  omega

/-- A sum over pairs of indices, by their parities. -/
theorem sum_pairs_by_parity {M : Type} [AddCommMonoid M] (f : Nat → Nat → M) :
    ∑ i ∈ range 256, ∑ j ∈ range 256, f i j =
      ∑ u ∈ range 128, ∑ v ∈ range 128,
        (f (2 * u) (2 * v) + f (2 * u) (2 * v + 1) + (f (2 * u + 1) (2 * v) + f (2 * u + 1) (2 * v + 1))) := by
  rw [show 256 = 2 * 128 from rfl, sum_range_two_mul]
  refine sum_congr rfl fun u _ => ?_
  rw [sum_range_two_mul, sum_range_two_mul, ← sum_add_distrib]

/-- The words of pair p of a form are the residues modulo x^2 - γ of the even and of the odd coefficients. -/
theorem forwardForm_seven_iff {a : Nat → ZMod 3329} {r : Poly} :
    ForwardForm 7 a r ↔ ∀ p < 128,
      (coeff r (2 * p) : ZMod 3329) = ∑ k ∈ range 128, a (2 * k) * blockRoot 7 p ^ k ∧
        (coeff r (2 * p + 1) : ZMod 3329) = ∑ k ∈ range 128, a (2 * k + 1) * blockRoot 7 p ^ k := by
  refine forall₂_congr fun p _ => ⟨fun h => ⟨h 0 (by decide), h 1 (by decide)⟩, fun h e he => ?_⟩
  obtain rfl | rfl : e = 0 ∨ e = 1 := by
    rw [show 2 ^ (8 - 7) = 2 from rfl] at he
    omega
  · exact h.1
  · exact h.2

theorem ForwardForm.pair {a : Nat → ZMod 3329} {r : Poly} (h : ForwardForm 7 a r) {p : Nat} (hp : p < 128) :
    (coeff r (2 * p) : ZMod 3329) = ∑ k ∈ range 128, a (2 * k) * blockRoot 7 p ^ k ∧
      (coeff r (2 * p + 1) : ZMod 3329) = ∑ k ∈ range 128, a (2 * k + 1) * blockRoot 7 p ^ k :=
  forwardForm_seven_iff.1 h p hp

/-- The product of two forms is the form of the negacyclic product, pair by pair. -/
theorem mul_forms {a b : Poly} {A B : Poly} (hA : ForwardForm 7 (fun i => coeff a i) A) (hB : ForwardForm 7 (fun i => coeff b i) B)
    {p : Nat} (hp : p < 128) :
    (coeff A (2 * p) * coeff B (2 * p) + blockRoot 7 p * (coeff A (2 * p + 1) * coeff B (2 * p + 1)) : ZMod 3329) =
        ∑ k ∈ range 128, (negacyclic a b (2 * k) : ZMod 3329) * blockRoot 7 p ^ k ∧
      (coeff A (2 * p) * coeff B (2 * p + 1) + coeff A (2 * p + 1) * coeff B (2 * p) : ZMod 3329) =
        ∑ k ∈ range 128, (negacyclic a b (2 * k + 1) : ZMod 3329) * blockRoot 7 p ^ k := by
  have hx := blockRoot_pow_128 hp
  rw [show ∑ k ∈ range 128, (negacyclic a b (2 * k) : ZMod 3329) * blockRoot 7 p ^ k = _ from sum_negacyclic hx a b (e := 0) (by decide),
    sum_negacyclic hx a b (by decide), sum_pairs_by_parity, sum_pairs_by_parity,
    (hA.pair hp).1, (hA.pair hp).2, (hB.pair hp).1, (hB.pair hp).2]
  generalize blockRoot 7 p = x
  have even (u v : Nat) : (2 * u + 2 * v) % 2 = 0 ∧ (2 * u + (2 * v + 1)) % 2 = 1 ∧ (2 * u + 1 + 2 * v) % 2 = 1 ∧
      (2 * u + 1 + (2 * v + 1)) % 2 = 0 := by omega
  have half (u v : Nat) : (2 * u + 2 * v) / 2 = u + v ∧ (2 * u + (2 * v + 1)) / 2 = u + v ∧ (2 * u + 1 + 2 * v) / 2 = u + v ∧
      (2 * u + 1 + (2 * v + 1)) / 2 = u + v + 1 := by omega
  constructor
  · rw [sum_mul_sum, sum_mul_sum, mul_sum, ← sum_add_distrib]
    refine sum_congr rfl fun u _ => ?_
    rw [mul_sum, ← sum_add_distrib]
    refine sum_congr rfl fun v _ => ?_
    obtain ⟨p1, p2, p3, p4⟩ := even u v
    obtain ⟨q1, -, -, q4⟩ := half u v
    rw [if_pos p1, if_neg (by omega), if_neg (by omega), if_pos p4, q1, q4]
    ring
  · rw [sum_mul_sum, sum_mul_sum, ← sum_add_distrib]
    refine sum_congr rfl fun u _ => ?_
    rw [← sum_add_distrib]
    refine sum_congr rfl fun v _ => ?_
    obtain ⟨p1, p2, p3, p4⟩ := even u v
    obtain ⟨-, q2, q3, -⟩ := half u v
    rw [if_neg (by omega), if_pos p2, if_pos p3, if_neg (by omega), q2, q3]
    ring

/-! ### The pipeline (R176) -/

theorem sum_map_sum_range {α : Type} (l : List α) (n : Nat) (f : α → Nat → ZMod 3329) :
    (l.map fun a => ∑ k ∈ range n, f a k).sum = ∑ k ∈ range n, (l.map fun a => f a k).sum := by
  induction l with
  | nil => simp
  | cons a l ih => simp only [List.map_cons, List.sum_cons, ih, sum_add_distrib]

/-- The reduced transform of an operand pair. -/
def reducedForms (ab : Poly × Poly) : Poly × Poly := (redPoly (nttPoly ab.1), redPoly (nttPoly ab.2))

/-- Coefficient k of the sum of the negacyclic products, as a residue. -/
def productSum (ops : List (Poly × Poly)) (k : Nat) : ZMod 3329 := (ops.map fun ab => (negacyclic ab.1 ab.2 k : ZMod 3329)).sum

/-- The inner product of the reduced forms is the form of the sum of products. -/
theorem cast_inner_reducedForms {ops : List (Poly × Poly)}
    (hops : ∀ ab ∈ ops, ab.1.length = 256 ∧ ab.2.length = 256 ∧ Within 3328 ab.1 ∧ Within 3328 ab.2) {p : Nat} (hp : p < 128) :
    (innerLow (ops.map reducedForms) p : ZMod 3329) = ∑ k ∈ range 128, productSum ops (2 * k) * blockRoot 7 p ^ k ∧
      (innerHigh (ops.map reducedForms) p : ZMod 3329) = ∑ k ∈ range 128, productSum ops (2 * k + 1) * blockRoot 7 p ^ k := by
  have hmul (ab : Poly × Poly) (hab : ab ∈ ops) := by
    obtain ⟨la, lb, wa, wb⟩ := hops ab hab
    exact mul_forms ((nttPoly_forwardForm la (within_mono wa (by decide))).redPoly (nttPoly_length la))
      ((nttPoly_forwardForm lb (within_mono wb (by decide))).redPoly (nttPoly_length lb)) hp
  simp only [productSum, ← List.sum_map_mul_right, ← sum_map_sum_range]
  constructor
  · rw [innerLow, List.map_map, Int.cast_list_sum, List.map_map]
    refine congrArg List.sum (List.map_congr_left fun ab hab => ?_)
    rw [← (hmul ab hab).1]
    simp [reducedForms, cast_gamma]
  · rw [innerHigh, List.map_map, Int.cast_list_sum, List.map_map]
    refine congrArg List.sum (List.map_congr_left fun ab hab => ?_)
    rw [← (hmul ab hab).2]
    simp [reducedForms]

theorem reducedForms_within {ab : Poly × Poly} (h1 : ab.1.length = 256) (h2 : ab.2.length = 256) :
    Within 1664 (reducedForms ab).1 ∧ Within 1664 (reducedForms ab).2 := by
  simp only [reducedForms]
  exact ⟨redPoly_within (nttPoly_length h1), redPoly_within (nttPoly_length h2)⟩

/-- What VACC leaves of the reduced forms is a form: of the sum of products with toMont, of R^-1 times it without. -/
theorem vaccPoly_forwardForm {ops : List (Poly × Poly)} (tm : Bool) (hlen : ops.length ≤ 4)
    (hops : ∀ ab ∈ ops, ab.1.length = 256 ∧ ab.2.length = 256 ∧ Within 3328 ab.1 ∧ Within 3328 ab.2) :
    ForwardForm 7 (fun i => productSum ops i * if tm then 1 else 169) (vaccPoly (ops.map reducedForms) tm) := by
  refine forwardForm_seven_iff.2 fun p hp => ?_
  have hred : ∀ ab ∈ ops.map reducedForms, Within 1664 ab.1 ∧ Within 1664 ab.2 := by
    intro ab hab
    obtain ⟨c, hc, rfl⟩ := List.mem_map.1 hab
    obtain ⟨la, lb, -, -⟩ := hops c hc
    exact reducedForms_within la lb
  obtain ⟨h0, h1⟩ := vaccPoly_congr tm (M := 1709) (by decide) (by decide) (by decide) (by decide)
    (by rw [List.length_map]; omega) hred hp
  obtain ⟨s0, s1⟩ := cast_inner_reducedForms hops hp
  have unscale {v n : Int} (h : v * (if tm then 1 else 65536) ≡ n [ZMOD 3329]) :
      (v : ZMod 3329) = n * if tm then 1 else 169 := by
    rw [← modEq_iff_cast.1 h]
    cases tm
    · have hR := R_mul_169
      simp only [Bool.false_eq_true, if_false, Int.cast_mul, Int.cast_ofNat]
      linear_combination (-(v : ZMod 3329)) * hR
    · simp
  have hsum (f : Nat → ZMod 3329) (y : ZMod 3329) :
      ∑ k ∈ range 128, f k * y * blockRoot 7 p ^ k = (∑ k ∈ range 128, f k * blockRoot 7 p ^ k) * y := by
    rw [sum_mul]
    exact sum_congr rfl fun k _ => by ring
  exact ⟨by rw [hsum, ← s0, unscale h0], by rw [hsum, ← s1, unscale h1]⟩

/-- Settles O53: INTT takes the sum of products out of its form and multiplies it by R, which VACC without toMont had taken off. -/
theorem pipelineGivesNegacyclicInnerProduct : Obligations.PipelineGivesNegacyclicInnerProduct := by
  intro ops tm hl hops i hi
  have hlen : ops.length ≤ 4 := by
    simp only [List.mem_cons, List.not_mem_nil, or_false] at hl
    omega
  have hw : Within 16383 (vaccPoly (ops.map reducedForms) tm) :=
    within_mono (vaccPoly_within _ tm) (by cases tm <;> decide)
  have h := cast_inttPoly_of_forwardForm (vaccPoly_length _ tm) hw (vaccPoly_forwardForm tm hlen hops) hi
  rw [modEq_iff_cast]
  refine h.trans ?_
  rw [Int.cast_mul, Int.cast_list_sum, List.map_map, mul_assoc]
  refine congrArg₂ (· * ·) rfl ?_
  cases tm
  · simpa [mul_comm] using R_mul_169
  · simp

end Sys2Proof.Machine
end
